-- ==== Sys2Proof/Word.lean ====
section
/-! DEFINITION. The two word types of the attiny-thermostat core (00_scope.md R6). -/

namespace Sys2Proof

/-- A byte: 8 bits, read as an unsigned integer 0 to 255 (R6). Every memory of the hardware is byte-wide (R62). -/
abbrev Byte := BitVec 8

/-- A command word: `unit[15:12] func[11:8] opd[7:0]` (30_encoding.md R90). `PROG` is a list of them. -/
abbrev CmdWord := BitVec 16

end Sys2Proof
end

