-- ==== Sys2Proof/Config.lean ====
section
/-! DEFINITION. What an implementation fixes before reset (00_scope.md R5), and the free values of the model. -/

namespace Sys2Proof

/-- The three byte memories (20_memory.md R60). They are disjoint; no address space joins them. -/
inductive MemId where
  | rxBuf
  | txBuf
  | smoothBuf
deriving DecidableEq, Repr

/-- The parameters of R5 that the spec leaves OPEN. A capacity is a power of two between 2 and 256, so it is held as its
exponent less one: no value of this type breaks the constraint. `tBit`, `tLoop`, `baudDiv` and `tickPeriod` are durations and
a divisor that no rule depends on (D31). DESIGN CHOICE (log 1): the parameters travel with the state, which no step changes. -/
structure Config where
  /-- `RX_CAP` is 2 ^ (rxCapLog + 1). -/
  rxCapLog : Fin 8
  /-- `TX_CAP` is 2 ^ (txCapLog + 1). -/
  txCapLog : Fin 8
  /-- `HYST`, an integer 0 to 255. -/
  hyst : Fin 256
  /-- `SLAVE_READ_ADDR`, the byte `TEMP.READ` writes after the start. -/
  slaveReadAddr : Byte
  tBit : Nat
  tLoop : Nat
  baudDiv : Nat
  tickPeriod : Nat
deriving DecidableEq, Repr

/-- `RX_CAP`, the receive ring's capacity in slots (R5, R21). -/
def Config.rxCap (c : Config) : Nat := 2 ^ (c.rxCapLog.val + 1)

/-- `TX_CAP`, the transmit ring's capacity in slots (R5, R22). -/
def Config.txCap (c : Config) : Nat := 2 ^ (c.txCapLog.val + 1)

/-- The configuration 95_test_vectors.md uses "unless a vector says otherwise". DESIGN CHOICE (log 1): State.reset takes it,
since the spec leaves each of these values OPEN. -/
def Config.vectors : Config where
  rxCapLog := 1
  txCapLog := 1
  hyst := 2
  slaveReadAddr := 0x91#8
  tBit := 1
  tLoop := 1
  baudDiv := 1
  tickPeriod := 1

/-- FREE VALUE (log 3): what a slot that nothing has written since reset reads as. 10_state.md R40 gives such slots no value
and U4 makes the read a draw that the slot then keeps, hence one unknown constant for each slot. -/
opaque Config.unwrittenSlot : MemId → Nat → Byte

/-- FREE VALUE (log 2): the parameter `FormatStatus` of R5, a total function of (setpoint, raw, smoothed, override) to the
bytes of the status line, whose text the spec leaves out of scope (R3, R216, D30). -/
opaque Config.formatStatus : BitVec 6 → Byte → Byte → Bool → List Byte

end Sys2Proof
end

