-- ==== Sys2Proof/Syntax.lean ====
section
/-! DEFINITION. The 29 operations of 30_encoding.md R92, one constructor for each row of the opcode table, in the table's order. -/

namespace Sys2Proof

/-- One operation. An operand is the byte `opd` of its command word (R91). -/
inductive Instr where
  /-- `SEQ.NOP`, 43_thermostat_control.md R222. -/
  | seqNop
  /-- `SEQ.JMP a`, R223. -/
  | seqJmp (a : Byte)
  /-- `SEQ.END`, R224. -/
  | seqEnd
  /-- `UART.INIT`, 40_ring_fifo_transport.md R113. -/
  | uartInit
  /-- `UART.SEND b`, R114. -/
  | uartSend (b : Byte)
  /-- `UART.AVAIL`, R115. -/
  | uartAvail
  /-- `UART.RECV`, R116. -/
  | uartRecv
  /-- `BUS.INIT`, 41_two_wire_bus_master.md R154. -/
  | busInit
  /-- `BUS.START`, R155. -/
  | busStart
  /-- `BUS.STOP`, R156. -/
  | busStop
  /-- `BUS.WBIT b`, R157. -/
  | busWbit (b : Byte)
  /-- `BUS.RBIT`, R158. -/
  | busRbit
  /-- `BUS.WBYTE v`, R159. -/
  | busWbyte (v : Byte)
  /-- `BUS.RBYTE a`, R160. -/
  | busRbyte (a : Byte)
  /-- `TEMP.READ`, 42_acquisition_smoothing.md R190. -/
  | tempRead
  /-- `TEMP.SMOOTH s`, R191. -/
  | tempSmooth (x : Byte)
  /-- `TEMP.PRELOAD t`, R192. -/
  | tempPreload (t : Byte)
  /-- `TEMP.SMOOTHR`, R196. -/
  | tempSmoothr
  /-- `TEMP.PRELOADR`, R197. -/
  | tempPreloadr
  /-- `CTL.SETPT`, 43_thermostat_control.md R211. -/
  | ctlSetpt
  /-- `CTL.OVR`, R212. -/
  | ctlOvr
  /-- `CTL.HYST`, R213. -/
  | ctlHyst
  /-- `CTL.STATUS`, R216. -/
  | ctlStatus
  /-- `CTL.SLEEP`, R217. -/
  | ctlSleep
  /-- `CTL.ITER`, R218. -/
  | ctlIter
  /-- `CTL.BOOT`, R219. -/
  | ctlBoot
  /-- `EVT.RXC d`, 40_ring_fifo_transport.md R117. -/
  | evtRxc (d : Byte)
  /-- `EVT.TXR`, R118. -/
  | evtTxr
  /-- `EVT.TICK`, 43_thermostat_control.md R220. -/
  | evtTick
deriving DecidableEq, Repr

end Sys2Proof
end

