-- ==== Sys2Proof/WellFormed.lean ====
section
/-! DEFINITION. The checks of well-formedness: where an operation may stand (30_encoding.md R93, R94), the size of a program
and the constraints on parameters (00_scope.md R5). Operands are bytes by their type, so no check bounds them. -/

namespace Sys2Proof

/-- The two places a command word can stand in: the command list `PROG`, and a schedule of events (R93). -/
inductive Site where
  | program
  | schedule
deriving DecidableEq, Repr

/-- The three event operations: notation for one step of `RXI`, `TXI` or `TICK`, not foreground commands (R93). -/
def Instr.isEvent : Instr → Bool
  | .evtRxc _ | .evtTxr | .evtTick => true
  | .seqNop | .seqJmp _ | .seqEnd
  | .uartInit | .uartSend _ | .uartAvail | .uartRecv
  | .busInit | .busStart | .busStop | .busWbit _ | .busRbit | .busWbyte _ | .busRbyte _
  | .tempRead | .tempSmooth _ | .tempPreload _ | .tempSmoothr | .tempPreloadr
  | .ctlSetpt | .ctlOvr | .ctlHyst | .ctlStatus | .ctlSleep | .ctlIter | .ctlBoot => false

/-- An operation is well formed at a site: a foreground command in `PROG`, an event in a schedule (R93, R94). -/
def Instr.wellFormed (site : Site) (i : Instr) : Bool :=
  match site with
  | .program => !i.isEvent
  | .schedule => i.isEvent

/-- `PROG` holds at most 256 words (R5, R60): `pc` is 8 bits. -/
def progSizeOk (p : List CmdWord) : Bool := p.length ≤ 256

/-- The constraints of R5 that the types of Config do not carry: the two delays are positive durations. -/
def Config.wellFormed (c : Config) : Bool := 0 < c.tBit && 0 < c.tLoop

end Sys2Proof
end

