-- ==== Sys2Proof/Decode.lean ====
section
/-! DEFINITION. The decoder of 30_encoding.md R98, total on 16-bit words and rejecting by name, the encoder written from the same
table R92, the table itself as mask and match rows, and the host's entry decodeTableWord. A command word has no byte layout
(20_memory.md R63), so the decoder reads a word and not a list of bytes. -/

namespace Sys2Proof

/-- The field `unit`, bits 15:12 (R90). -/
def unitField (w : CmdWord) : BitVec 4 := w.extractLsb' 12 4

/-- The field `func`, bits 11:8 (R90). -/
def funcField (w : CmdWord) : BitVec 4 := w.extractLsb' 8 4

/-- The field `opd`, bits 7:0 (R90). -/
def opdField (w : CmdWord) : Byte := w.extractLsb' 0 8

/-- Why a word is reserved (R94). -/
inductive DecodeError where
  /-- `unit` is 5 to 13 or 15. -/
  | reservedUnit
  /-- The unit exists and has no operation with this `func`. -/
  | reservedFunc
  /-- The word of an operation without operand, with `opd` not 0x00. -/
  | nonzeroOperand
deriving DecidableEq, Repr

/-- An operation without an operand: its `opd` must be 0x00 (R92). -/
def bare (opd : Byte) (i : Instr) : Except DecodeError Instr :=
  if opd = 0#8 then .ok i else .error .nonzeroOperand

/-- The decoder (R92, R94, R98): the fields are split once, and every word is an operation or reserved under a name. -/
def decode (w : CmdWord) : Except DecodeError Instr :=
  let o := opdField w
  match (unitField w).toNat, (funcField w).toNat with
  | 0, 0 => bare o .seqNop
  | 0, 1 => .ok (.seqJmp o)
  | 0, 2 => bare o .seqEnd
  | 1, 0 => bare o .uartInit
  | 1, 1 => .ok (.uartSend o)
  | 1, 2 => bare o .uartAvail
  | 1, 3 => bare o .uartRecv
  | 2, 0 => bare o .busInit
  | 2, 1 => bare o .busStart
  | 2, 2 => bare o .busStop
  | 2, 3 => .ok (.busWbit o)
  | 2, 4 => bare o .busRbit
  | 2, 5 => .ok (.busWbyte o)
  | 2, 6 => .ok (.busRbyte o)
  | 3, 0 => bare o .tempRead
  | 3, 1 => .ok (.tempSmooth o)
  | 3, 2 => .ok (.tempPreload o)
  | 3, 3 => bare o .tempSmoothr
  | 3, 4 => bare o .tempPreloadr
  | 4, 0 => bare o .ctlSetpt
  | 4, 1 => bare o .ctlOvr
  | 4, 2 => bare o .ctlHyst
  | 4, 3 => bare o .ctlStatus
  | 4, 4 => bare o .ctlSleep
  | 4, 5 => bare o .ctlIter
  | 4, 6 => bare o .ctlBoot
  | 14, 0 => .ok (.evtRxc o)
  | 14, 1 => bare o .evtTxr
  | 14, 2 => bare o .evtTick
  | 0, _ | 1, _ | 2, _ | 3, _ | 4, _ | 14, _ => .error .reservedFunc
  | _, _ => .error .reservedUnit

/-- The three fields put together (R90). -/
def packWord (unit func : BitVec 4) (opd : Byte) : CmdWord := unit ++ func ++ opd

/-- The encoder: the word of each row of R92. -/
def encode : Instr → CmdWord
  | .seqNop => packWord 0 0 0
  | .seqJmp a => packWord 0 1 a
  | .seqEnd => packWord 0 2 0
  | .uartInit => packWord 1 0 0
  | .uartSend b => packWord 1 1 b
  | .uartAvail => packWord 1 2 0
  | .uartRecv => packWord 1 3 0
  | .busInit => packWord 2 0 0
  | .busStart => packWord 2 1 0
  | .busStop => packWord 2 2 0
  | .busWbit b => packWord 2 3 b
  | .busRbit => packWord 2 4 0
  | .busWbyte v => packWord 2 5 v
  | .busRbyte a => packWord 2 6 a
  | .tempRead => packWord 3 0 0
  | .tempSmooth x => packWord 3 1 x
  | .tempPreload t => packWord 3 2 t
  | .tempSmoothr => packWord 3 3 0
  | .tempPreloadr => packWord 3 4 0
  | .ctlSetpt => packWord 4 0 0
  | .ctlOvr => packWord 4 1 0
  | .ctlHyst => packWord 4 2 0
  | .ctlStatus => packWord 4 3 0
  | .ctlSleep => packWord 4 4 0
  | .ctlIter => packWord 4 5 0
  | .ctlBoot => packWord 4 6 0
  | .evtRxc d => packWord 14 0 d
  | .evtTxr => packWord 14 1 0
  | .evtTick => packWord 14 2 0

/-- One row of the opcode map as R92 prints it: `w` is this operation when `w & mask == match`. -/
structure OpcodeRow where
  pattern : CmdWord
  mask : CmdWord
deriving DecidableEq, Repr

/-- A word is the operation of a row when `w & mask == match` (R92). -/
def OpcodeRow.covers (r : OpcodeRow) (w : CmdWord) : Bool := w &&& r.mask == r.pattern

/-- The 29 rows of R92, in the table's order, match and mask copied from it. -/
def opcodeRows : List OpcodeRow :=
  [⟨0x0000#16, 0xFFFF#16⟩, ⟨0x0100#16, 0xFF00#16⟩, ⟨0x0200#16, 0xFFFF#16⟩]
  ++ [⟨0x1000#16, 0xFFFF#16⟩, ⟨0x1100#16, 0xFF00#16⟩, ⟨0x1200#16, 0xFFFF#16⟩, ⟨0x1300#16, 0xFFFF#16⟩]
  ++ [⟨0x2000#16, 0xFFFF#16⟩, ⟨0x2100#16, 0xFFFF#16⟩, ⟨0x2200#16, 0xFFFF#16⟩, ⟨0x2300#16, 0xFF00#16⟩,
      ⟨0x2400#16, 0xFFFF#16⟩, ⟨0x2500#16, 0xFF00#16⟩, ⟨0x2600#16, 0xFF00#16⟩]
  ++ [⟨0x3000#16, 0xFFFF#16⟩, ⟨0x3100#16, 0xFF00#16⟩, ⟨0x3200#16, 0xFF00#16⟩, ⟨0x3300#16, 0xFFFF#16⟩,
      ⟨0x3400#16, 0xFFFF#16⟩]
  ++ [⟨0x4000#16, 0xFFFF#16⟩, ⟨0x4100#16, 0xFFFF#16⟩, ⟨0x4200#16, 0xFFFF#16⟩, ⟨0x4300#16, 0xFFFF#16⟩,
      ⟨0x4400#16, 0xFFFF#16⟩, ⟨0x4500#16, 0xFFFF#16⟩, ⟨0x4600#16, 0xFFFF#16⟩]
  ++ [⟨0xE000#16, 0xFF00#16⟩, ⟨0xE100#16, 0xFFFF#16⟩, ⟨0xE200#16, 0xFFFF#16⟩]

/-- A decoded word that is well formed at a site: what a fetch from `PROG` (R94, R221) or an event of a schedule (R93) gives. -/
def decodeAt (site : Site) (w : CmdWord) : Option Instr :=
  match decode w with
  | .ok i => if i.wellFormed site then some i else none
  | .error _ => none

/-- The instruction the decoder reads from a table row's bits (one word: bit 0 is its least significant bit). -/
def decodeTableWord (nbits w : Nat) : Option Instr :=
  if nbits ≤ 16 then
    match decode (BitVec.ofNat 16 (w % 2 ^ nbits)) with
    | .ok i => some i
    | .error _ => none
  else none

end Sys2Proof
end

