-- ==== Sys2Proof/Machine/State.lean ====
section
/-! DEFINITION. The state of the attiny-thermostat core (10_state.md), as plain data; the reasons a step can stop; reset. -/

namespace Sys2Proof.Machine

/-- A byte memory: (index, byte) pairs, indices strictly rising, a slot listed once it has been written (log 3). -/
abbrev Memory := List Host.Cell

/-- One ring (R21, R22): its slots, the index of the slot written last and the index of the slot read last (R111). -/
structure Ring where
  buf : Memory
  head : Byte
  tail : Byte
deriving DecidableEq, Repr

/-- The serial frame format `UART.INIT` writes (R24, R113). -/
structure FrameFormat where
  dataBits : Nat
  stopBits : Nat
  parity : Bool
deriving DecidableEq, Repr

/-- The serial control bits and the two configuration values written by `UART.INIT` (R24). -/
structure SerialCtl where
  rxen : Bool
  txen : Bool
  rxcie : Bool
  txie : Bool
  baudDiv : Nat
  frame : FrameFormat
deriving DecidableEq, Repr

/-- The hidden serial hardware (R25): the assembled byte not yet read, and whether the transmitter can take a byte. -/
structure SerialHw where
  rxHw : Option Byte
  txHwReady : Bool
deriving DecidableEq, Repr

/-- The master's drive of the two bus lines (R26): true releases the line, false drives it low. -/
structure BusDrive where
  scl : Bool
  sda : Bool
deriving DecidableEq, Repr

/-- The smoothing buffer and its write cursor (R28). -/
structure Smoothing where
  buf : Memory
  cur : BitVec 4
deriving DecidableEq, Repr

/-- The five data latches (R29). -/
structure Latches where
  res : Byte
  sp : BitVec 6
  raw : Byte
  sm : Byte
  ov : Bool
deriving DecidableEq, Repr

/-- The tick counters (R31). -/
structure Tick where
  ms : BitVec 16
  sec : BitVec 32
deriving DecidableEq, Repr

/-- The sequencer's position (R32): the index of the running command, and the stack of the numbers of the micro-steps to be
taken next, outermost first. `[1]` is a command not yet begun; `[n]` where micro-step n is a call is that call not yet begun. -/
structure Sequencer where
  pc : BitVec 8
  ustep : List Nat
deriving DecidableEq, Repr

/-- The temporaries of the running foreground operation (R32): the seven R32 lists, and `line`, the bytes of a status line still to
be sent, the one being sent first (R216). DESIGN CHOICE (log 6): the spec gives `i` and `k` no width; `i` counts 7 down to 0 (R159, R160)
and is 3 bits, `k` counts 0 to 15 (R191, R192) and is 4 bits. DEDUCED (log 6): `h1` and `t1` have the 8 bits of a ring index (R21, R22),
`v` the one bit of a line level (R158). -/
structure Temps where
  h1 : Byte
  t1 : Byte
  i : BitVec 3
  r : Byte
  v : Bool
  sum : BitVec 16
  k : BitVec 4
  line : List Byte
deriving DecidableEq, Repr

/-- What the environment owns and the hardware reads: the slave's drive of the bus lines (R27, R152), the setpoint pins (R34)
and the override pin (R35). True is a high level, a released line. -/
structure Env where
  sclSlv : Bool
  sdaSlv : Bool
  spN : BitVec 6
  ovrN : Bool
deriving DecidableEq, Repr

/-- An entry of `BusTrace`: a line action (R151), a delay (R153) or a sampled level (R158). -/
inductive BusAct where
  | sdaLow
  | sdaRel
  | sclLow
  | sclRel
  | delay
  | sample (v : Bool)
deriving DecidableEq, Repr

/-- The observation traces (R11), oldest entry first. No operation reads them. -/
structure Traces where
  txWire : List Byte
  bus : List BusAct
  coil : List Bool
deriving DecidableEq, Repr

/-- A step of the environment. -/
inductive EnvStep where
  /-- A byte arrives from the serial peer (R122). -/
  | rxByte (d : Byte)
  /-- The serial hardware has moved its byte on (R123). -/
  | txReady
  /-- The slave releases (true) or pulls low (false) the clock line (R152). -/
  | sclSlv (level : Bool)
  /-- The slave releases (true) or pulls low (false) the data line (R152). -/
  | sdaSlv (level : Bool)
  /-- Setpoint pin i takes a level (R37). -/
  | spPin (i : Fin 6) (level : Bool)
  /-- The override pin takes a level (R37). -/
  | ovrPin (level : Bool)
deriving DecidableEq, Repr

/-- Which agent moves next (R12, R69): a schedule is "a list of foreground micro-step counts and event words" (R93), here one
item for each step, with the environment's steps beside them. -/
inductive SchedItem where
  /-- The foreground takes one micro-step. -/
  | fg
  /-- An event word: one step of `RXI`, `TXI` or `TICK` (R93). -/
  | event (w : CmdWord)
  /-- A step of the environment. -/
  | env (e : EnvStep)
deriving DecidableEq, Repr

/-- The state of the machine (R20). `cfg` and `prog` are the parameters and the command list, which no step writes (R5, R74);
`trace` is observation (R11); `sched` is the model's own field: the choice of which agent moves next, as plain data, with the
foreground moving once it is empty (DESIGN CHOICE, log 9). -/
structure State where
  cfg : Config
  prog : List CmdWord
  rx : Ring
  tx : Ring
  ctl : SerialCtl
  ser : SerialHw
  bus : BusDrive
  smooth : Smoothing
  lat : Latches
  coil : Bool
  tick : Tick
  seq : Sequencer
  tmp : Temps
  env : Env
  trace : Traces
  sched : List SchedItem
deriving DecidableEq, Repr

/-- Why the machine stops. The hardware itself raises nothing (60_exceptions.md R240). -/
inductive Fault where
  /-- Raised by the fetch when the foreground is chosen to move and `pc` is at or beyond the end of `PROG`: "it has no step
  (stuck)" (R221, U9). Safe: events still run when the schedule chooses them (log 12). -/
  | fgStuck
  /-- Raised by a foreground operation whose `ustep` names no micro-step of it. No run reaches it, for `ustep` is written only
  by the sequencer. Safe (log 16). -/
  | strayMicroStep
deriving DecidableEq, Repr

/-- What the model refuses, each time because the spec says `refuse` (R10). -/
inductive Refusal where
  /-- Raised by an arm of exec whose operation has no meaning yet. Safe. -/
  | notModelled (mnemonic : String)
  /-- Raised by the fetch on a reserved word or an event word in `PROG`: "the sequencer's step on a reserved word is `refuse`"
  (R94). Safe. -/
  | reservedWord (w : CmdWord)
  /-- Raised by `UART.SEND` with `TXEN` 0 and by `UART.AVAIL` and `UART.RECV` with `RXEN` 0 (R127). Safe. -/
  | beforeInit
  /-- Raised by a schedule item whose word is no event word (R93): the schedule is ill formed. Safe. -/
  | notAnEvent (w : CmdWord)
deriving DecidableEq, Repr

/-- The spec's default command list `[CTL.BOOT, CTL.ITER, SEQ.JMP 1]` (R5, R223). -/
def defaultProgram : List CmdWord := [0x4600#16, 0x4500#16, 0x0101#16]

/-- The state after reset (R40, R270, R271) for given parameters and command list. R40 gives: control bits 0, `RxHw` none,
`TxHwReady` 1, both lines released, `Cur` 0, coil off, tick counters 0, `pc` 0, `ustep` 1, traces empty, memories unwritten.
DESIGN CHOICE, since R40 says "unspecified" or nothing: indices 0 (log 4), latches 0 (log 5), temporaries 0 (log 6), baud divisor
and frame 0 (log 7), the environment's levels all 1 (log 8), the schedule empty (log 9). -/
def State.resetWith (cfg : Config) (prog : List CmdWord) : State where
  cfg := cfg
  prog := prog
  rx := { buf := [], head := 0, tail := 0 }
  tx := { buf := [], head := 0, tail := 0 }
  ctl := { rxen := false, txen := false, rxcie := false, txie := false, baudDiv := 0,
           frame := { dataBits := 0, stopBits := 0, parity := false } }
  ser := { rxHw := none, txHwReady := true }
  bus := { scl := true, sda := true }
  smooth := { buf := [], cur := 0 }
  lat := { res := 0, sp := 0, raw := 0, sm := 0, ov := false }
  coil := false
  tick := { ms := 0, sec := 0 }
  seq := { pc := 0, ustep := [1] }
  tmp := { h1 := 0, t1 := 0, i := 0, r := 0, v := false, sum := 0, k := 0, line := [] }
  env := { sclSlv := true, sdaSlv := true, spN := 0x3F#6, ovrN := true }
  trace := { txWire := [], bus := [], coil := [] }
  sched := []

/-- The machine right after reset, with the default program (R5, R271) and the vectors' parameters (log 1, log 15). -/
def State.reset : State := State.resetWith Config.vectors defaultProgram

/-- What one micro-step of a foreground operation does (R9): the operation goes on at a position, or it is done, or the spec
refuses it, or the position names no micro-step of it. A hold goes on at the same position in the same state. -/
inductive MicroResult where
  | more (pos : List Nat) (s : State)
  | done (s : State)
  | refuse (r : Refusal)
  | stray
deriving DecidableEq, Repr

/-- What the schedule's next item asks for: an operation to execute, an environment's step already made, or a stop. -/
inductive Move where
  | run (i : Instr) (s : State)
  | moved (s : State)
  | stop (f : Fault)
  | refuse (r : Refusal)
deriving DecidableEq, Repr

/-- The outcome of a step of this machine. -/
abbrev Result := Host.Outcome State Fault Refusal

end Sys2Proof.Machine
end

