-- ==== Sys2Proof/Machine/Ops.lean ====
section
/-! DEFINITION. The named operations over memory, registers, lines and traces; the engine of micro-steps (00_scope.md R9); taking an
event and returning from it (60_exceptions.md R246, R248), which on this hardware stand where other hardware has exceptions (R240). -/

namespace Sys2Proof.Machine

/-! ### Memory: one byte at an index (R7, R62) -/

/-- The byte written to a slot, or none while nothing has been written to it since reset. -/
def Memory.lookup : Memory → Nat → Option Byte
  | [], _ => none
  | (b, v) :: m, a => if a = b then some v else Memory.lookup m a

/-- `MemRead(M+a, 1)` (R7). An unwritten slot reads as its free value (R40, U4; log 3). -/
def Memory.read (id : MemId) (m : Memory) (a : Nat) : Byte := (m.lookup a).getD (Config.unwrittenSlot id a)

/-- `MemWrite(M+a, 1, v)` (R7), keeping the indices strictly rising. -/
def Memory.write : Memory → Nat → Byte → Memory
  | [], a, v => [(a, v)]
  | (b, w) :: m, a, v =>
    if a < b then (a, v) :: (b, w) :: m
    else if a = b then (a, v) :: m
    else (b, w) :: Memory.write m a v

/-- Every index of the list is at least `lo` and the indices rise strictly. -/
def Memory.risingFrom : Nat → Memory → Bool
  | _, [] => true
  | lo, (b, _) :: m => decide (lo ≤ b) && Memory.risingFrom (b + 1) m

/-- The canonical form: indices strictly rising, each below the memory's size. An unlisted slot has no written byte, so no entry
can repeat what an unlisted slot holds (log 3). -/
def Memory.wf (size : Nat) (m : Memory) : Bool := Memory.risingFrom 0 m && m.all fun c => decide (c.1 < size)

/-- `MemWrite(M+k, 1, v)` for k = 0 to n - 1, in order (R192). -/
def Memory.fill (m : Memory) (n : Nat) (v : Byte) : Memory := (List.range n).foldl (fun acc k => acc.write k v) m

/-- The exact sum of `MemRead(M+k, 1)` for k = 0 to n - 1 (R191 u3). -/
def Memory.sumTo (id : MemId) (m : Memory) (n : Nat) : Nat := ((List.range n).map fun k => (m.read id k).toNat).sum

/-! ### Writing one part of the state -/

def State.setRx (s : State) (x : Ring) : State := { s with rx := x }
def State.setTx (s : State) (x : Ring) : State := { s with tx := x }
def State.setCtl (s : State) (x : SerialCtl) : State := { s with ctl := x }
def State.setSer (s : State) (x : SerialHw) : State := { s with ser := x }
def State.setBus (s : State) (x : BusDrive) : State := { s with bus := x }
def State.setSmooth (s : State) (x : Smoothing) : State := { s with smooth := x }
def State.setLat (s : State) (x : Latches) : State := { s with lat := x }
def State.setCoil (s : State) (x : Bool) : State := { s with coil := x }
def State.setTick (s : State) (x : Tick) : State := { s with tick := x }
def State.setSeq (s : State) (x : Sequencer) : State := { s with seq := x }
def State.setTmp (s : State) (x : Temps) : State := { s with tmp := x }
def State.setEnv (s : State) (x : Env) : State := { s with env := x }
def State.setTrace (s : State) (x : Traces) : State := { s with trace := x }
def State.setSched (s : State) (x : List SchedItem) : State := { s with sched := x }
def State.setProg (s : State) (x : List CmdWord) : State := { s with prog := x }

/-! ### Rings (R8, R111, R112) -/

/-- `next(i, C) = (i + 1) & (C - 1)`, the only way an index moves (R8). On an 8-bit register the sum wraps at 256, a multiple of
every capacity, so the result is the exact one. -/
def maskedNext (C : Nat) (i : Byte) : Byte := (i + 1#8) &&& BitVec.ofNat 8 (C - 1)

/-- `count(h, t, C) = (h - t) & (C - 1)`, the number of queued bytes (R8, R112). -/
def ringCount (C : Nat) (h t : Byte) : Nat := ((h - t) &&& BitVec.ofNat 8 (C - 1)).toNat

/-! ### Bus lines (R27, R151, R153, R158) -/

/-- The level of the clock line: the wired-AND of the master's and the slave's drive (R27). -/
def State.sclLevel (s : State) : Bool := s.bus.scl && s.env.sclSlv

/-- The level of the data line (R27). -/
def State.sdaLevel (s : State) : Bool := s.bus.sda && s.env.sdaSlv

/-- `emit BusTrace, x` (R11). -/
def State.emitBus (s : State) (x : BusAct) : State := s.setTrace { s.trace with bus := s.trace.bus ++ [x] }

/-- The line action `SDA_LOW` (R151). -/
def sdaLow (s : State) : State := (s.setBus { s.bus with sda := false }).emitBus .sdaLow

/-- The line action `SDA_REL` (R151). -/
def sdaRel (s : State) : State := (s.setBus { s.bus with sda := true }).emitBus .sdaRel

/-- The line action `SCL_LOW` (R151). -/
def sclLow (s : State) : State := (s.setBus { s.bus with scl := false }).emitBus .sclLow

/-- The line action `SCL_REL` (R151). -/
def sclRel (s : State) : State := (s.setBus { s.bus with scl := true }).emitBus .sclRel

/-- `DELAY`: changes no state and is traced (R153). -/
def busDelay (s : State) : State := s.emitBus .delay

/-- `v <- SDA; emit BusTrace, SAMPLE v` (R158 u4). -/
def sampleSda (s : State) : State := (s.setTmp { s.tmp with v := s.sdaLevel }).emitBus (.sample s.sdaLevel)

/-! ### Latches, coil, pin -/

/-- `RES <- v` (R29). -/
def State.setRes (s : State) (v : Byte) : State := s.setLat { s.lat with res := v }

/-- `COIL <- v; emit CoilTrace, v` (R36, R213). -/
def State.driveCoil (s : State) (v : Bool) : State :=
  (s.setCoil v).setTrace { s.trace with coil := s.trace.coil ++ [v] }

/-- The output pin `coil`, equal to `COIL` at all times (R36). -/
def State.coilPin (s : State) : Bool := s.coil

/-! ### Micro-steps (R9, R32, R97) -/

/-- A foreground operation: what it does at a position in a state. -/
abbrev Micro := List Nat → State → MicroResult

/-- An operation of one micro-step. -/
def once (f : State → MicroResult) : Micro
  | [1], s => f s
  | _, _ => .stray

/-- An operation that is a straight list of micro-steps u1, u2, ..., each a change of state, the last one being `done`. -/
def straight (us : List (State → State)) : Micro
  | [n + 1], s =>
    match us[n]? with
    | none => .stray
    | some u => if n + 1 = us.length then .done (u s) else .more [n + 2] (u s)
  | _, _ => .stray

/-- Micro-step n is `call m`: one micro-step of m in place, at the position `sub` inside it (no position: m not yet begun), and
what follows when m is done. The call costs no micro-step of its own (DEDUCED from the counts of 95_test_vectors.md, log 17). -/
def callAt (n : Nat) (sub : List Nat) (m : Micro) (s : State) (andThen : State → MicroResult) : MicroResult :=
  match m (if sub = [] then [1] else sub) s with
  | .more p s' => .more (n :: p) s'
  | .done s' => andThen s'
  | .refuse r => .refuse r
  | .stray => .stray

/-- An operation that is a list of calls u1, u2, ..., in order (R97). -/
def calls (ms : List Micro) : Micro
  | (n + 1) :: sub, s =>
    match ms[n]? with
    | none => .stray
    | some m => callAt (n + 1) sub m s fun s' => if n + 1 = ms.length then .done s' else .more [n + 2] s'
  | _, _ => .stray

/-- One step of the foreground in an operation: the position moves on, or the operation is done and the sequencer advances,
`pc <- (pc + 1) mod 256` and `ustep <- 1` (R221). -/
def runFg (m : Micro) (s : State) : Result :=
  match m s.seq.ustep s with
  | .more p s' => .next (s'.setSeq { s'.seq with ustep := p })
  | .done s' => .next (s'.setSeq { pc := s'.seq.pc + 1#8, ustep := [1] })
  | .refuse r => .refused r
  | .stray => .fault .strayMicroStep

/-! ### Taking an event (R246) and returning from it (R248) -/

/-- The return from a handler: there is no return instruction and nothing to restore; the foreground goes on with the
micro-step it was about to take (R248). -/
def returnFromEvent (s : State) : State := s

/-- Taking an event is one atomic step of its agent. Nothing is saved and nothing changes besides what the handler's rule
writes (R246). An event whose enabling condition (R243) does not hold is not taken, and nothing changes (log 10). -/
def takeEvent (enabled : Bool) (handler : State → State) (s : State) : Result :=
  if enabled then .next (returnFromEvent (handler s)) else .next s

end Sys2Proof.Machine
end

