-- ==== Sys2Proof/Machine/Operands.lean ====
section
/-! DEFINITION. Every way an operation takes an operand: the byte `opd` and its two reductions (30_encoding.md R91), booleans as
bytes, single bits of a byte, and the two decoded inputs (43_thermostat_control.md R211, R212). -/

namespace Sys2Proof.Machine

/-- `(opd != 0) ? 1 : 0`, the operand of `BUS.WBIT` and the acknowledgment bit of `BUS.RBYTE` (R91). -/
def bitOperand (opd : Byte) : Bool := opd != 0#8

/-- A boolean or a bit as the byte 1 or 0 (R115, R158). -/
def byteOfBool (b : Bool) : Byte := if b then 1#8 else 0#8

/-- `v[i]`, bit i of a byte (R6). -/
def bitAt (v : Byte) (i : BitVec 3) : Bool := v.getLsbD i.toNat

/-- The byte with only bit i set. -/
def bitMask (i : BitVec 3) : Byte := 1#8 <<< i.toNat

/-- `r[i] <- b` (R160 u2). -/
def withBit (r : Byte) (i : BitVec 3) (b : Bool) : Byte := if b then r ||| bitMask i else r &&& ~~~bitMask i

/-- The absolute command index of `SEQ.JMP`: `opd` unchanged (R91). -/
def jumpTarget (opd : Byte) : BitVec 8 := opd

/-- The setpoint: the sum over i = 0..5 of 2^i for each pin that reads 0 (R211, R34). -/
def setpointOf (spN : BitVec 6) : BitVec 6 :=
  BitVec.ofNat 6 ((List.range 6).map fun i => if spN.getLsbD i = false then 2 ^ i else 0).sum

/-- The override: 1 when the pin reads 0 (R212). -/
def overrideOf (ovrN : Bool) : Bool := !ovrN

end Sys2Proof.Machine
end

