-- ==== Sys2Proof/Machine/Flags.lean ====
section
/-! DEFINITION. The computed conditions. There are no arithmetic condition codes (10_state.md R33); what is computed each time is
ring empty and full (R112), the enabling of events (60_exceptions.md R243) and the two comparisons of the actuator (43 R213, R214). -/

namespace Sys2Proof.Machine

/-- A ring is empty when `head == tail` (R112). -/
def Ring.isEmpty (r : Ring) : Bool := r.head == r.tail

/-- A ring is full when `next(head) == tail` (R112). -/
def Ring.isFull (C : Nat) (r : Ring) : Bool := maskedNext C r.head == r.tail

/-- Receive-complete with byte d is enabled: `RXEN == 1`, `RXCIE == 1`, `RxHw == some d` (R243). -/
def rxcEnabled (d : Byte) (s : State) : Bool := s.ctl.rxen && s.ctl.rxcie && s.ser.rxHw == some d

/-- Transmit-ready is enabled: `TXEN == 1`, `TXIE == 1`, `TxHwReady == 1` (R243). -/
def txrEnabled (s : State) : Bool := s.ctl.txen && s.ctl.txie && s.ser.txHwReady

/-- The tick is enabled always, from reset (R243). -/
def tickEnabled (_ : State) : Bool := true

/-- Off to on: `(SM > SP) or (OV == 1)`, over exact integers (R213, R214). -/
def turnsOn (l : Latches) : Bool := decide (l.sm.toNat > l.sp.toNat) || l.ov

/-- On to off: `(OV == 0) and (SM <= SP - HYST)`, over exact integers, so that the threshold may be negative (R213, R214). -/
def turnsOff (hyst : Nat) (l : Latches) : Bool :=
  !l.ov && decide ((l.sm.toNat : Int) ≤ (l.sp.toNat : Int) - (hyst : Int))

end Sys2Proof.Machine
end

