-- ==== Sys2Proof/Machine/Agents.lean ====
section
/-! DEFINITION. Which agent moves next and what it is about to do: the foreground's fetch (43_thermostat_control.md R221), an event word
of the schedule (30_encoding.md R93), the environment's steps (R122, R123, R152, R37), and placing a word where the next step fetches. -/

namespace Sys2Proof.Machine

/-- A pin level put in place i of the six (R37). -/
def withPin (p : BitVec 6) (i : Fin 6) (level : Bool) : BitVec 6 :=
  if level then p ||| (1#6 <<< i.val) else p &&& ~~~(1#6 <<< i.val)

/-- One step of the environment. A byte arrives only while `RXEN == 1` and `RxHw == none` (R122, assumption `NoHwOverrun`); a
delivery at another time is no step of the environment and changes nothing (log 11). -/
def envStep (e : EnvStep) (s : State) : State :=
  match e with
  | .rxByte d => if s.ctl.rxen && s.ser.rxHw == none then s.setSer { s.ser with rxHw := some d } else s
  | .txReady => s.setSer { s.ser with txHwReady := true }
  | .sclSlv level => s.setEnv { s.env with sclSlv := level }
  | .sdaSlv level => s.setEnv { s.env with sdaSlv := level }
  | .spPin i level => s.setEnv { s.env with spN := withPin s.env.spN i level }
  | .ovrPin level => s.setEnv { s.env with ovrN := level }

/-- The command the foreground runs: `PROG[pc]` decoded (R221). It is decoded again at each micro-step of the command, which
gives the same command, for `PROG` is read-only and `pc` stays for the whole of a command (R32, R74). -/
def fgMove (s : State) : Move :=
  match s.prog[s.seq.pc.toNat]? with
  | none => .stop .fgStuck
  | some w =>
    match decodeAt .program w with
    | some i => .run i s
    | none => .refuse (.reservedWord w)

/-- An event word of the schedule (R93). -/
def eventMove (w : CmdWord) (s : State) : Move :=
  match decodeAt .schedule w with
  | some i => .run i s
  | none => .refuse (.notAnEvent w)

/-- What the next step does: the schedule's first item is taken off and its agent moves; with the schedule empty the
foreground moves (log 9). -/
def nextMove (s : State) : Move :=
  match s.sched with
  | [] => fgMove s
  | .fg :: rest => fgMove (s.setSched rest)
  | .event w :: rest => eventMove w (s.setSched rest)
  | .env e :: rest => .moved (envStep e (s.setSched rest))

/-- The command list with word w at index n; indices between its end and n are filled with `SEQ.NOP`. -/
def placeAt : List CmdWord → Nat → CmdWord → List CmdWord
  | [], 0, w => [w]
  | _ :: p, 0, w => w :: p
  | [], n + 1, w => 0#16 :: placeAt [] n w
  | x :: p, n + 1, w => x :: placeAt p n w

/-- A command placed at `PROG[pc]`, not yet begun, with the foreground the next to move. -/
def placeCommand (w : CmdWord) (s : State) : State :=
  ((s.setProg (placeAt s.prog s.seq.pc.toNat w)).setSeq { s.seq with ustep := [1] }).setSched
    (if s.sched = [] then [] else .fg :: s.sched)

/-- An event word put first in the schedule. The operand of `EVT.RXC` is the byte the serial hardware holds (R93), so placing
that word places the byte in `RxHw` (log 22). -/
def placeEvent (w : CmdWord) (i : Instr) (s : State) : State :=
  let s' := s.setSched (.event w :: s.sched)
  match i with
  | .evtRxc d => s'.setSer { s'.ser with rxHw := some d }
  | _ => s'

/-- A word placed where the next step takes its instruction from: an event word in the schedule, any other word in `PROG`. -/
def placeWord (w : CmdWord) (s : State) : State :=
  match decodeAt .schedule w with
  | some i => placeEvent w i s
  | none => placeCommand w s

end Sys2Proof.Machine
end

