-- ==== Sys2Proof/Machine/Bus.lean ====
section
/-! DEFINITION. The software-timed two-wire bus master (41_two_wire_bus_master.md): `BUS.INIT`, `BUS.START`, `BUS.STOP`, `BUS.WBIT`,
`BUS.RBIT`, `BUS.WBYTE`, `BUS.RBYTE`. No operation of the family holds, refuses or fails (R161). -/

namespace Sys2Proof.Machine

/-- `BUS.INIT` (R154). -/
def uBusInit : Micro := straight [sdaLow, sclLow, busDelay, sclRel, sdaRel, busDelay]

/-- `BUS.START` (R155). -/
def uBusStart : Micro := straight [sdaLow, busDelay, sclLow, busDelay]

/-- `BUS.STOP` (R156). -/
def uBusStop : Micro := straight [sclRel, busDelay, sdaRel, busDelay]

/-- `drive-data` of `BUS.WBIT`: released for a 1, driven low for a 0 (R157 u1). -/
def driveData (bit : Bool) (s : State) : State := if bit then sdaRel s else sdaLow s

/-- `BUS.WBIT b` (R157). -/
def uBusWbit (b : Byte) : Micro := straight [driveData (bitOperand b), sclRel, busDelay, sclLow, busDelay]

/-- `RES <- v`, the last micro-step of `BUS.RBIT` (R158 u7). -/
def resFromSample (s : State) : State := s.setRes (byteOfBool s.tmp.v)

/-- `BUS.RBIT` (R158). -/
def uBusRbit : Micro := straight [sdaRel, sclRel, busDelay, sampleSda, sclLow, busDelay, resFromSample]

/-- One micro-step of the loop `for i = 7 down to 0: call m`, standing at micro-step n of its operation: after a call the
body's `wrapUp` runs in the same micro-step; the next round begins at `[n, 1]`, and after i = 0 the operation goes on with
`after` (R159 u1, R160 u2; the loop's bookkeeping costs no micro-step, DEDUCED from the counts 47 and 63, log 17). -/
def bitLoop (n : Nat) (sub : List Nat) (m : Micro) (wrapUp : State → State) (s : State) (after : State → MicroResult) :
    MicroResult :=
  callAt n sub m s fun s' =>
    let s'' := wrapUp s'
    if s''.tmp.i = 0#3 then after s'' else .more [n, 1] (s''.setTmp { s''.tmp with i := s''.tmp.i - 1#3 })

/-- `i <- 7`, where the loop begins. -/
def startBits (s : State) : State := s.setTmp { s.tmp with i := 7#3 }

/-- `call BUS.WBIT v[i]` (R159 u1). -/
def wbyteBit (v : Byte) : Micro := fun pos s => uBusWbit (byteOfBool (bitAt v s.tmp.i)) pos s

/-- `BUS.WBYTE v` (R159). -/
def uBusWbyte (v : Byte) : Micro
  | [1], s => bitLoop 1 [] (wbyteBit v) id (startBits s) (.more [2])
  | 1 :: sub, s => bitLoop 1 sub (wbyteBit v) id s (.more [2])
  | 2 :: sub, s => callAt 2 sub uBusRbit s .done
  | _, _ => .stray

/-- `r[i] <- RES[0]` (R160 u2). -/
def storeBit (s : State) : State := s.setTmp { s.tmp with r := withBit s.tmp.r s.tmp.i (s.lat.res.getLsbD 0) }

/-- `BUS.RBYTE a` (R160). -/
def uBusRbyte (a : Byte) : Micro
  | [1], s => .more [2] (s.setTmp { s.tmp with r := 0#8 })
  | [2], s => bitLoop 2 [] uBusRbit storeBit (startBits s) (.more [3])
  | 2 :: sub, s => bitLoop 2 sub uBusRbit storeBit s (.more [3])
  | 3 :: sub, s => callAt 3 sub (uBusWbit (byteOfBool (bitOperand a))) s (.more [4])
  | [4], s => .done (s.setRes s.tmp.r)
  | _, _ => .stray

def execBusInit (s : State) : Result := runFg uBusInit s
def execBusStart (s : State) : Result := runFg uBusStart s
def execBusStop (s : State) : Result := runFg uBusStop s
def execBusWbit (b : Byte) (s : State) : Result := runFg (uBusWbit b) s
def execBusRbit (s : State) : Result := runFg uBusRbit s
def execBusWbyte (v : Byte) (s : State) : Result := runFg (uBusWbyte v) s
def execBusRbyte (a : Byte) (s : State) : Result := runFg (uBusRbyte a) s

end Sys2Proof.Machine
end

