-- ==== Sys2Proof/Machine/Temperature.lean ====
section
/-! DEFINITION. Temperature acquisition and the moving average (42_acquisition_smoothing.md): `TEMP.READ`, `TEMP.SMOOTH`,
`TEMP.PRELOAD`, `TEMP.SMOOTHR`, `TEMP.PRELOADR`. -/

namespace Sys2Proof.Machine

/-- `SMOOTH_DEPTH` (R5). -/
def smoothDepth : Nat := 16

/-- `SMOOTH_SHIFT`, log2 of the depth (R5). -/
def smoothShift : Nat := 4

/-- `RAW <- RES` (R190 u5). -/
def latchRaw (s : State) : State := s.setLat { s.lat with raw := s.lat.res }

/-- `TEMP.READ` (R190): the acknowledgment `BUS.WBYTE` leaves in `RES` is not looked at; `BUS.RBYTE` gets the operand 1. -/
def uTempRead : Micro := fun pos s =>
  calls [uBusStart, uBusWbyte s.cfg.slaveReadAddr, uBusRbyte 1#8, uBusStop, once fun s => .done (latchRaw s)] pos s

/-- `MemWrite(SmoothBuf+Cur, 1, s)` (R191 u1). -/
def insertSample (x : Byte) (s : State) : State :=
  s.setSmooth { s.smooth with buf := s.smooth.buf.write s.smooth.cur.toNat x }

/-- `Cur <- (Cur + 1) & 15` (R191 u2): `Cur` is 4 bits. -/
def advanceCursor (s : State) : State := s.setSmooth { s.smooth with cur := s.smooth.cur + 1#4 }

/-- The last value `k` takes in `for k = 0 to 15` (R191, R192), which the temporary holds when the loop is over (log 6). -/
def lastSlot : BitVec 4 := 15#4

/-- `sum <- 0; for k = 0 to 15: sum <- sum +` slot k (R191 u3), exact: at most 4080, so 16 bits hold it. -/
def sumWindow (s : State) : State :=
  s.setTmp { s.tmp with sum := BitVec.ofNat 16 (s.smooth.buf.sumTo .smoothBuf smoothDepth), k := lastSlot }

/-- `SM <- (sum >> 4)[7:0]; RES <- SM` (R191 u4). -/
def latchMean (s : State) : State :=
  let m := (s.tmp.sum >>> smoothShift).setWidth 8
  s.setLat { s.lat with sm := m, res := m }

/-- `TEMP.SMOOTH x` (R191). -/
def uTempSmooth (x : Byte) : Micro := straight [insertSample x, advanceCursor, sumWindow, latchMean]

/-- `MemWrite(SmoothBuf+k, 1, t)` for k = 0 to 15 (R192 u1). -/
def fillWindow (t : Byte) (s : State) : State :=
  (s.setSmooth { s.smooth with buf := s.smooth.buf.fill smoothDepth t }).setTmp { s.tmp with k := lastSlot }

/-- `TEMP.PRELOAD t` (R192). -/
def uTempPreload (t : Byte) : Micro := once fun s => .done (fillWindow t s)

/-- `TEMP.SMOOTHR`: `call TEMP.SMOOTH RAW` (R196). -/
def uTempSmoothr : Micro := fun pos s => calls [uTempSmooth s.lat.raw] pos s

/-- `TEMP.PRELOADR`: `call TEMP.PRELOAD RAW` (R197). -/
def uTempPreloadr : Micro := fun pos s => calls [uTempPreload s.lat.raw] pos s

def execTempRead (s : State) : Result := runFg uTempRead s
def execTempSmooth (x : Byte) (s : State) : Result := runFg (uTempSmooth x) s
def execTempPreload (t : Byte) (s : State) : Result := runFg (uTempPreload t) s
def execTempSmoothr (s : State) : Result := runFg uTempSmoothr s
def execTempPreloadr (s : State) : Result := runFg uTempPreloadr s

end Sys2Proof.Machine
end

