-- ==== Sys2Proof/Machine/Transport.lean ====
section
/-! DEFINITION. The byte transport (40_ring_fifo_transport.md): `UART.INIT`, `UART.SEND`, `UART.AVAIL`, `UART.RECV` and the two serial
handlers `EVT.RXC`, `EVT.TXR`. Each `u...` is the operation's micro-steps, which other operations call; each `exec...` is an arm. -/

namespace Sys2Proof.Machine

/-- 8 data bits, 1 stop bit, no parity (R5, R113). -/
def frame8N1 : FrameFormat := { dataBits := 8, stopBits := 1, parity := false }

/-- What `UART.INIT` writes, in one atomic micro-step (R113). -/
def initTransport (s : State) : State :=
  (((s.setRx { s.rx with head := 0, tail := 0 }).setTx { s.tx with head := 0, tail := 0 }).setSer
    { s.ser with rxHw := none }).setCtl
    { rxen := true, txen := true, rxcie := true, txie := false, baudDiv := s.cfg.baudDiv, frame := frame8N1 }

/-- `UART.INIT` (R113). -/
def uUartInit : Micro := once fun s => .done (initTransport s)

/-- `UART.SEND b` (R114), refused before `UART.INIT` (R127; the precondition is tested by u1, log 19). -/
def uUartSend (b : Byte) : Micro
  | [1], s =>
    if s.ctl.txen then .more [2] (s.setTmp { s.tmp with h1 := maskedNext s.cfg.txCap s.tx.head }) else .refuse .beforeInit
  | [2], s => if s.tmp.h1 = s.tx.tail then .more [2] s else .more [3] s
  | [3], s => .more [4] (s.setTx { s.tx with buf := s.tx.buf.write s.tmp.h1.toNat b })
  | [4], s => .more [5] (s.setTx { s.tx with head := s.tmp.h1 })
  | [5], s => .done (s.setCtl { s.ctl with txie := true })
  | _, _ => .stray

/-- `UART.AVAIL` (R115), refused before `UART.INIT` (R127). -/
def uUartAvail : Micro := once fun s =>
  if s.ctl.rxen then .done (s.setRes (byteOfBool (!s.rx.isEmpty))) else .refuse .beforeInit

/-- `UART.RECV` (R116), refused before `UART.INIT` (R127). -/
def uUartRecv : Micro
  | [1], s => if s.ctl.rxen then (if s.rx.isEmpty then .more [1] s else .more [2] s) else .refuse .beforeInit
  | [2], s => .more [3] (s.setTmp { s.tmp with t1 := maskedNext s.cfg.rxCap s.rx.tail })
  | [3], s => .more [4] (s.setRx { s.rx with tail := s.tmp.t1 })
  | [4], s => .done (s.setRes (s.rx.buf.read .rxBuf s.tmp.t1.toNat))
  | _, _ => .stray

/-- The receive-complete handler: the hardware's byte goes to the slot the head moves to, whether or not the head then meets the
tail (R117). The handler's own d and h1 live inside its atomic step and touch no temporary of the foreground (R246). -/
def rxcHandler (s : State) : State :=
  match s.ser.rxHw with
  | none => s
  | some d =>
    let h1 := maskedNext s.cfg.rxCap s.rx.head
    (s.setSer { s.ser with rxHw := none }).setRx { s.rx with head := h1, buf := s.rx.buf.write h1.toNat d }

/-- The transmit-ready handler: the next byte is handed to the serial hardware, or an empty ring disarms the interrupt (R118). -/
def txrHandler (s : State) : State :=
  if s.tx.isEmpty then s.setCtl { s.ctl with txie := false }
  else
    let t1 := maskedNext s.cfg.txCap s.tx.tail
    ((s.setTx { s.tx with tail := t1 }).setSer { s.ser with txHwReady := false }).setTrace
      { s.trace with txWire := s.trace.txWire ++ [s.tx.buf.read .txBuf t1.toNat] }

def execUartInit (s : State) : Result := runFg uUartInit s
def execUartSend (b : Byte) (s : State) : Result := runFg (uUartSend b) s
def execUartAvail (s : State) : Result := runFg uUartAvail s
def execUartRecv (s : State) : Result := runFg uUartRecv s

/-- `EVT.RXC d`: its operand is the byte in `RxHw` (R117, R93; log 22). -/
def execEvtRxc (d : Byte) (s : State) : Result := takeEvent (rxcEnabled d s) rxcHandler s

/-- `EVT.TXR` (R118). -/
def execEvtTxr (s : State) : Result := takeEvent (txrEnabled s) txrHandler s

end Sys2Proof.Machine
end

