-- ==== Sys2Proof/Machine/Control.lean ====
section
/-! DEFINITION. The thermostat control and the tick (43_thermostat_control.md): `CTL.SETPT`, `CTL.OVR`, `CTL.HYST`, `CTL.STATUS`,
`CTL.SLEEP`, `CTL.ITER`, `CTL.BOOT` and the handler `EVT.TICK`. -/

namespace Sys2Proof.Machine

/-- `CTL.SETPT` (R211): the six pins are sampled in one micro-step. -/
def uCtlSetpt : Micro := once fun s => .done (s.setLat { s.lat with sp := setpointOf s.env.spN })

/-- `CTL.OVR` (R212). -/
def uCtlOvr : Micro := once fun s => .done (s.setLat { s.lat with ov := overrideOf s.env.ovrN })

/-- The hysteresis state machine: the coil is written only on a transition (R210, R213). -/
def hysteresis (s : State) : State :=
  if s.coil then (if turnsOff s.cfg.hyst.val s.lat then s.driveCoil false else s)
  else (if turnsOn s.lat then s.driveCoil true else s)

/-- `CTL.HYST` (R213). -/
def uCtlHyst : Micro := once fun s => .done (hysteresis s)

/-- The bytes of the status line (R216 u1): the parameter `FormatStatus` of the four latches. -/
def statusLine (l : Latches) : List Byte := Config.formatStatus l.sp l.raw l.sm l.ov

/-- `CTL.STATUS` (R216): u1 forms the line, u2 sends its bytes in order with `UART.SEND`. "An empty list sends nothing": u2 is then
one micro-step that changes nothing (DEDUCED, log 18). -/
def uCtlStatus : Micro
  | [1], s => .more [2] (s.setTmp { s.tmp with line := statusLine s.lat })
  | 2 :: sub, s =>
    match s.tmp.line with
    | [] => .done s
    | c :: rest =>
      callAt 2 sub (uUartSend c) s fun s' =>
        let s'' := s'.setTmp { s'.tmp with line := rest }
        if rest = [] then .done s'' else .more [2, 1] s''
  | _, _ => .stray

/-- `CTL.SLEEP` (R217): a busy-wait of `T_LOOP`, one micro-step that changes no state. -/
def uCtlSleep : Micro := once .done

/-- `CTL.ITER` (R218, R97). -/
def uCtlIter : Micro :=
  calls [uCtlSetpt, uTempRead, uTempSmoothr, uCtlOvr, uCtlHyst, uCtlStatus, uCtlSleep]

/-- `CTL.BOOT` (R219, R97). -/
def uCtlBoot : Micro := calls [uUartInit, uBusInit, uTempRead, uTempPreloadr]

/-- The tick handler (R220). -/
def tickHandler (s : State) : State :=
  if s.tick.ms = 999#16 then s.setTick { ms := 0#16, sec := s.tick.sec + 1#32 }
  else s.setTick { s.tick with ms := s.tick.ms + 1#16 }

def execCtlSetpt (s : State) : Result := runFg uCtlSetpt s
def execCtlOvr (s : State) : Result := runFg uCtlOvr s
def execCtlHyst (s : State) : Result := runFg uCtlHyst s
def execCtlStatus (s : State) : Result := runFg uCtlStatus s
def execCtlSleep (s : State) : Result := runFg uCtlSleep s
def execCtlIter (s : State) : Result := runFg uCtlIter s
def execCtlBoot (s : State) : Result := runFg uCtlBoot s

/-- `EVT.TICK` (R220). -/
def execEvtTick (s : State) : Result := takeEvent (tickEnabled s) tickHandler s

end Sys2Proof.Machine
end

