-- ==== Sys2Proof/Machine/Sequence.lean ====
section
/-! DEFINITION. The sequencer's own commands (43_thermostat_control.md R222 to R224): `SEQ.NOP`, `SEQ.JMP`, `SEQ.END`. -/

namespace Sys2Proof.Machine

/-- `SEQ.NOP`: one micro-step, no state change, done (R222). -/
def execSeqNop (s : State) : Result := runFg (once .done) s

/-- `SEQ.JMP a`: `pc <- a; ustep <- 1`, and the increment of R221 is not applied (R223). -/
def execSeqJmp (a : Byte) (s : State) : Result :=
  if s.seq.ustep = [1] then .next (s.setSeq { pc := jumpTarget a, ustep := [1] }) else .fault .strayMicroStep

/-- `SEQ.END`: the foreground has no further step and `pc` stays (R224). Choosing the foreground there changes nothing; events
and the environment go on (log 13). -/
def execSeqEnd (s : State) : Result := runFg (once fun s => .more [1] s) s

end Sys2Proof.Machine
end

