-- ==== Sys2Proof/Machine/Dispatch.lean ====
section
/-! DEFINITION. The meaning of every operation: one arm for each constructor of Instr, one direct call each. -/

namespace Sys2Proof.Machine

def exec (i : Instr) (s : State) : Host.Outcome State Fault Refusal :=
  match i with
  | .seqNop => Sys2Proof.Machine.execSeqNop s
  | .seqJmp a => Sys2Proof.Machine.execSeqJmp a s
  | .seqEnd => Sys2Proof.Machine.execSeqEnd s
  | .uartInit => Sys2Proof.Machine.execUartInit s
  | .uartSend b => Sys2Proof.Machine.execUartSend b s
  | .uartAvail => Sys2Proof.Machine.execUartAvail s
  | .uartRecv => Sys2Proof.Machine.execUartRecv s
  | .busInit => Sys2Proof.Machine.execBusInit s
  | .busStart => Sys2Proof.Machine.execBusStart s
  | .busStop => Sys2Proof.Machine.execBusStop s
  | .busWbit b => Sys2Proof.Machine.execBusWbit b s
  | .busRbit => Sys2Proof.Machine.execBusRbit s
  | .busWbyte v => Sys2Proof.Machine.execBusWbyte v s
  | .busRbyte a => Sys2Proof.Machine.execBusRbyte a s
  | .tempRead => Sys2Proof.Machine.execTempRead s
  | .tempSmooth x => Sys2Proof.Machine.execTempSmooth x s
  | .tempPreload t => Sys2Proof.Machine.execTempPreload t s
  | .tempSmoothr => Sys2Proof.Machine.execTempSmoothr s
  | .tempPreloadr => Sys2Proof.Machine.execTempPreloadr s
  | .ctlSetpt => Sys2Proof.Machine.execCtlSetpt s
  | .ctlOvr => Sys2Proof.Machine.execCtlOvr s
  | .ctlHyst => Sys2Proof.Machine.execCtlHyst s
  | .ctlStatus => Sys2Proof.Machine.execCtlStatus s
  | .ctlSleep => Sys2Proof.Machine.execCtlSleep s
  | .ctlIter => Sys2Proof.Machine.execCtlIter s
  | .ctlBoot => Sys2Proof.Machine.execCtlBoot s
  | .evtRxc d => Sys2Proof.Machine.execEvtRxc d s
  | .evtTxr => Sys2Proof.Machine.execEvtTxr s
  | .evtTick => Sys2Proof.Machine.execEvtTick s

end Sys2Proof.Machine
end

