-- ==== Sys2Proof/Safety.lean ====
section
/-! DEFINITION. What claims about the machine are stated with: runs of an operation and of the machine, legal positions, the queue a
ring holds, invariants, the traces the bus rules list, fairness (70_reset_and_hazards.md R287) and the end of a run (R225). -/

namespace Sys2Proof.Machine

/-! ### Running -/

/-- n micro-steps of the operation i with no other agent between them, stopping at the first stop. -/
def execTimes : Nat → Instr → State → Result
  | 0, _, s => .next s
  | n + 1, i, s =>
    match exec i s with
    | .next s' => execTimes n i s'
    | r => r

/-- n steps of the machine, whichever agents the schedule chooses, stopping at the first stop. -/
def runSteps (n : Nat) (s : State) : Result := Sys2Proof.core.run n s

/-- The foreground stands at position p of its command. -/
def State.goesTo (s : State) (p : List Nat) : State := { s with seq := { s.seq with ustep := p } }

/-- The command is done: `pc <- (pc + 1) mod 256`, `ustep <- 1` (R221). -/
def State.finished (s : State) : State := { s with seq := { pc := s.seq.pc + 1#8, ustep := [1] } }

/-- A change of the next state, if there is one. -/
def mapNext (f : State → State) : Result → Result
  | .next s => .next (f s)
  | r => r

/-- The command at `PROG[pc]`, if it is a foreground command (R221). -/
def fgCommand (s : State) : Option Instr := (s.prog[s.seq.pc.toNat]?).bind (decodeAt .program)

/-- The command whose micro-step the next step is, if the foreground is the next to move (log 9). -/
def fgNext (s : State) : Option Instr :=
  match s.sched with
  | [] | .fg :: _ => fgCommand s
  | .event _ :: _ | .env _ :: _ => none

/-! ### Legal positions of `ustep` (R32) -/

/-- A position of a straight list of n micro-steps. -/
def legalStraight (n : Nat) : List Nat → Bool
  | [k] => decide (1 ≤ k) && decide (k ≤ n)
  | _ => false

/-- The position inside a call: not yet begun, or a position of the callee. -/
def legalInCall (callee : List Nat → Bool) (sub : List Nat) : Bool := sub == [] || callee sub

/-- A position of a list of calls. -/
def legalCalls (callees : List (List Nat → Bool)) : List Nat → Bool
  | (n + 1) :: sub =>
    match callees[n]? with
    | none => false
    | some c => legalInCall c sub
  | _ => false

def legalWbyte : List Nat → Bool
  | 1 :: sub => legalInCall (legalStraight 5) sub
  | 2 :: sub => legalInCall (legalStraight 7) sub
  | _ => false

def legalRbyte : List Nat → Bool
  | [1] => true
  | 2 :: sub => legalInCall (legalStraight 7) sub
  | 3 :: sub => legalInCall (legalStraight 5) sub
  | [4] => true
  | _ => false

def legalRead : List Nat → Bool :=
  legalCalls [legalStraight 4, legalWbyte, legalRbyte, legalStraight 4, legalStraight 1]

def legalStatus : List Nat → Bool
  | [1] => true
  | 2 :: sub => legalInCall (legalStraight 5) sub
  | _ => false

/-- The positions of each foreground operation, from the micro-steps its rule lists. An event has none: it is one atomic step. -/
def legalPos : Instr → List Nat → Bool
  | .seqNop | .seqJmp _ | .seqEnd => legalStraight 1
  | .uartInit | .uartAvail => legalStraight 1
  | .uartSend _ => legalStraight 5
  | .uartRecv => legalStraight 4
  | .busInit => legalStraight 6
  | .busStart | .busStop => legalStraight 4
  | .busWbit _ => legalStraight 5
  | .busRbit => legalStraight 7
  | .busWbyte _ => legalWbyte
  | .busRbyte _ => legalRbyte
  | .tempRead => legalRead
  | .tempSmooth _ => legalStraight 4
  | .tempPreload _ => legalStraight 1
  | .tempSmoothr => legalCalls [legalStraight 4]
  | .tempPreloadr => legalCalls [legalStraight 1]
  | .ctlSetpt | .ctlOvr | .ctlHyst | .ctlSleep => legalStraight 1
  | .ctlStatus => legalStatus
  | .ctlIter =>
    legalCalls [legalStraight 1, legalRead, legalCalls [legalStraight 4], legalStraight 1, legalStraight 1, legalStatus,
      legalStraight 1]
  | .ctlBoot => legalCalls [legalStraight 1, legalStraight 6, legalRead, legalCalls [legalStraight 1]]
  | .evtRxc _ | .evtTxr | .evtTick => fun _ => false

/-- `ustep` is a position of the command at `PROG[pc]`; where there is none, it stands at the start. -/
def PosLegal (s : State) : Prop :=
  match fgCommand s with
  | some i => legalPos i s.seq.ustep = true
  | none => s.seq.ustep = [1]

/-- A callee's step seen from its caller, where micro-step n of the caller, of `len` in all, is the call: the caller's position is
put before the callee's; when the callee is done the caller goes on, or is itself done (R9, R97). -/
def asCall (n len : Nat) (s : State) : Result → Result
  | .next t =>
    if t.seq.pc = s.seq.pc then .next { t with seq := { t.seq with ustep := n :: t.seq.ustep } }
    else if n = len then .next t
    else .next { t with seq := { pc := s.seq.pc, ustep := [n + 1] } }
  | r => r

/-- The same for the call in a loop `for i = 7 down to 0` at micro-step n (R159 u1, R160 u2): when the callee is done `body` runs, the
rest of the loop's body, and then the next round begins or, after `i = 0`, the caller goes on (log 17). -/
def asLoopCall (n : Nat) (body : State → State) (s : State) : Result → Result
  | .next t =>
    if t.seq.pc = s.seq.pc then .next { t with seq := { t.seq with ustep := n :: t.seq.ustep } }
    else if t.tmp.i = 0#3 then .next { body t with seq := { pc := s.seq.pc, ustep := [n + 1] } }
    else .next { body t with
      tmp := { (body t).tmp with i := t.tmp.i - 1#3 }, seq := { pc := s.seq.pc, ustep := [n, 1] } }
  | r => r

/-! ### Rings (R112) -/

/-- The k-th slot after the tail. -/
def slotAfter (C : Nat) (t : Byte) : Nat → Byte
  | 0 => t
  | k + 1 => maskedNext C (slotAfter C t k)

/-- The queued bytes, oldest first: the slots `next(tail)`, `next(next(tail))`, ..., `head` (R112). -/
def Ring.queue (id : MemId) (C : Nat) (r : Ring) : List Byte :=
  (List.range (ringCount C r.head r.tail)).map fun k => r.buf.read id (slotAfter C r.tail (k + 1)).toNat

/-- The receive ring's queue. -/
def State.rxQueue (s : State) : List Byte := s.rx.queue .rxBuf s.cfg.rxCap

/-- The transmit ring's queue. -/
def State.txQueue (s : State) : List Byte := s.tx.queue .txBuf s.cfg.txCap

/-- The `UART.SEND` the foreground is in, alone or inside a status line: its operand and its next micro-step (R114, R216). -/
def sendAt (s : State) : Option (Byte × Nat) :=
  match fgCommand s, s.seq.ustep with
  | some (.uartSend b), [k] => some (b, k)
  | some .ctlStatus, [2] => s.tmp.line.head?.map fun c => (c, 1)
  | some .ctlStatus, [2, k] => s.tmp.line.head?.map fun c => (c, k)
  | some .ctlIter, [6, 2] => s.tmp.line.head?.map fun c => (c, 1)
  | some .ctlIter, [6, 2, k] => s.tmp.line.head?.map fun c => (c, k)
  | _, _ => none

/-- The next step is an `EVT.RXC` that finds the receive ring full (R119). -/
def rxOverflow (s : State) : Bool :=
  match s.sched with
  | .event w :: _ =>
    match decodeAt .schedule w with
    | some (.evtRxc d) => s.ctl.rxen && s.ctl.rxcie && s.ser.rxHw == some d && maskedNext s.cfg.rxCap s.rx.head == s.rx.tail
    | some _ | none => false
  | [] | .fg :: _ | .env _ :: _ => false

/-- Operation i stands at the one micro-step of `UART.INIT`, alone or as u1 of `CTL.BOOT` (R113, R219). -/
def atInit (i : Instr) (s : State) : Bool :=
  match i with
  | .uartInit => true
  | .ctlBoot => s.seq.ustep.head? == some 1
  | _ => false

/-! ### Which operations may write what (R70, and the "State written" of each operation's rule) -/

/-- The operations that drive the bus lines (R154 to R160, R190, R218, R219). -/
def drivesBus : Instr → Bool
  | .busInit | .busStart | .busStop | .busWbit _ | .busRbit | .busWbyte _ | .busRbyte _ | .tempRead | .ctlIter | .ctlBoot => true
  | _ => false

/-- The operations that write the smoothing buffer (R191, R192, R196, R197, R218, R219). -/
def writesWindow : Instr → Bool
  | .tempSmooth _ | .tempSmoothr | .tempPreload _ | .tempPreloadr | .ctlIter | .ctlBoot => true
  | _ => false

/-- The operations that compute a mean (R191, R196, R218). -/
def writesMean : Instr → Bool
  | .tempSmooth _ | .tempSmoothr | .ctlIter => true
  | _ => false

/-- The operations that queue bytes for transmission (R114, R216, R218). -/
def sendsBytes : Instr → Bool
  | .uartSend _ | .ctlStatus | .ctlIter => true
  | _ => false

/-- The operations that latch the raw reading (R190, R218, R219). -/
def writesRaw : Instr → Bool
  | .tempRead | .ctlIter | .ctlBoot => true
  | _ => false

/-- The operations that write `RES` (R115, R116, R158 to R160, R190, R191, R196, R218, R219). -/
def writesRes : Instr → Bool
  | .uartAvail | .uartRecv | .busRbit | .busWbyte _ | .busRbyte _ | .tempRead | .tempSmooth _ | .tempSmoothr | .ctlIter
  | .ctlBoot => true
  | _ => false

/-! ### Invariants -/

/-- What every run keeps of data: indices below the capacity (R23), memories in canonical form inside their size (R60), the
millisecond counter in its range (R31). -/
structure DataInv (s : State) : Prop where
  rxHead : s.rx.head.toNat < s.cfg.rxCap
  rxTail : s.rx.tail.toNat < s.cfg.rxCap
  txHead : s.tx.head.toNat < s.cfg.txCap
  txTail : s.tx.tail.toNat < s.cfg.txCap
  h1 : s.tmp.h1.toNat < s.cfg.txCap
  t1 : s.tmp.t1.toNat < s.cfg.rxCap
  rxBuf : s.rx.buf.wf s.cfg.rxCap = true
  txBuf : s.tx.buf.wf s.cfg.txCap = true
  smoothBuf : s.smooth.buf.wf 16 = true
  tickMs : s.tick.ms.toNat ≤ 999

/-- What a `UART.SEND` under way knows of its slot (R114): `h1` is the slot after the head, past the hold it is not the tail, and
past u3 it holds the byte. -/
def SendInv (s : State) : Prop :=
  ∀ b k, sendAt s = some (b, k) →
    (2 ≤ k → k ≤ 4 → s.tmp.h1 = maskedNext s.cfg.txCap s.tx.head) ∧
    (3 ≤ k → k ≤ 4 → s.tmp.h1 ≠ s.tx.tail) ∧
    (k = 4 → s.tx.buf.lookup s.tmp.h1.toNat = some b)

/-- What a `UART.RECV` under way knows of its slot where no overflow came in between (R116): past u1 the ring is not empty, past u2
`t1` is the slot after the tail, and past u3 it is the tail itself. -/
structure RecvInv (s : State) : Prop where
  nonEmpty : fgCommand s = some .uartRecv → s.seq.ustep = [2] ∨ s.seq.ustep = [3] → s.rx.head ≠ s.rx.tail
  slot : fgCommand s = some .uartRecv → s.seq.ustep = [3] → s.tmp.t1 = maskedNext s.cfg.rxCap s.rx.tail
  freed : fgCommand s = some .uartRecv → s.seq.ustep = [4] → s.tmp.t1 = s.rx.tail

/-- No queued byte is stranded (R124): with bytes queued the transmit-ready interrupt is armed, or the foreground stands at the
micro-step that arms it. -/
def NoStrandedByte (s : State) : Prop :=
  s.tx.head ≠ s.tx.tail → s.ctl.txie = true ∨ ∃ b, sendAt s = some (b, 5)

/-- Every queued byte of the transmit ring was written (R76). -/
def TxQueuedWritten (s : State) : Prop :=
  ∀ k, k < ringCount s.cfg.txCap s.tx.head s.tx.tail →
    s.tx.buf.lookup (slotAfter s.cfg.txCap s.tx.tail (k + 1)).toNat ≠ none

/-- Every slot of the receive ring was written. -/
def RxAllWritten (s : State) : Prop := ∀ a, a < s.cfg.rxCap → s.rx.buf.lookup a ≠ none

/-- Every queued byte of the receive ring was written, and so was the slot a `UART.RECV` under way is going to read (R76). -/
structure RxQueuedWritten (s : State) : Prop where
  queued : ∀ k, k < ringCount s.cfg.rxCap s.rx.head s.rx.tail →
    s.rx.buf.lookup (slotAfter s.cfg.rxCap s.rx.tail (k + 1)).toNat ≠ none
  freeing : fgCommand s = some .uartRecv → s.seq.ustep = [2] ∨ s.seq.ustep = [3] →
    s.rx.head ≠ s.rx.tail ∨ RxAllWritten s
  slot : fgCommand s = some .uartRecv → s.seq.ustep = [3] → s.tmp.t1 = maskedNext s.cfg.rxCap s.rx.tail
  reading : fgCommand s = some .uartRecv → s.seq.ustep = [4] → s.rx.buf.lookup s.tmp.t1.toNat ≠ none

/-- The drive of the lines after an entry of `BusTrace` (R151). -/
def replayAct (b : BusDrive) : BusAct → BusDrive
  | .sdaLow => { b with sda := false }
  | .sdaRel => { b with sda := true }
  | .sclLow => { b with scl := false }
  | .sclRel => { b with scl := true }
  | .delay | .sample _ => b

/-- The drive a whole `BusTrace` leaves, from the released lines of reset (R40). -/
def replayBus (t : List BusAct) : BusDrive := t.foldl replayAct { scl := true, sda := true }

/-- The idle bus: both lines released (R164). -/
def busIdle (s : State) : Prop := s.bus = { scl := true, sda := true }

/-- The observation traces agree with the outputs: the coil is the last value traced (R36), the drive bits are what the bus
actions leave (R151). -/
structure TraceInv (s : State) : Prop where
  coil : s.coil = s.trace.coil.getLast?.getD false
  bus : s.bus = replayBus s.trace.bus

/-! ### The traces the bus rules list -/

/-- The lines are driven as b and the entry a is traced (R151, R153). -/
def State.busAct (s : State) (b : BusDrive) (a : BusAct) : State :=
  { s with bus := b, trace := { s.trace with bus := s.trace.bus ++ [a] } }

/-- The bits of a byte, most significant first (R159, R160). -/
def bitsMsbFirst (v : Byte) : List Bool := [7, 6, 5, 4, 3, 2, 1, 0].map fun i => v.getLsbD i

/-- R157. -/
def wbitTrace (bit : Bool) : List BusAct := [if bit then .sdaRel else .sdaLow, .sclRel, .delay, .sclLow, .delay]

/-- R158. -/
def rbitTrace (v : Bool) : List BusAct := [.sdaRel, .sclRel, .delay, .sample v, .sclLow, .delay]

/-- R159: eight bits written, one acknowledgment sampled. -/
def wbyteTrace (v : Byte) (ack : Bool) : List BusAct := (bitsMsbFirst v).flatMap wbitTrace ++ rbitTrace ack

/-- R160: eight bits sampled, one acknowledgment written. -/
def rbyteTrace (p : Byte) (ack : Bool) : List BusAct := (bitsMsbFirst p).flatMap rbitTrace ++ wbitTrace ack

/-- R155. -/
def startTrace : List BusAct := [.sdaLow, .delay, .sclLow, .delay]

/-- R156. -/
def stopTrace : List BusAct := [.sclRel, .delay, .sdaRel, .delay]

/-- R190: start, address, one byte with not-acknowledge, stop. -/
def readTrace (addr : Byte) (ack : Bool) (p : Byte) : List BusAct :=
  startTrace ++ wbyteTrace addr ack ++ rbyteTrace p true ++ stopTrace

/-- What a slave that never drives `SDA` records: the level of `SDA` at each rising edge of `SCL` (R163, the echo slave). -/
def echoRecord : BusDrive → List BusAct → List Bool
  | _, [] => []
  | b, a :: rest =>
    let b' := replayAct b a
    (if b.scl = false ∧ b'.scl = true then [b'.sda] else []) ++ echoRecord b' rest

/-- The byte a slave holding the data line at one level yields: 0xFF released, 0x00 stuck low (R160). -/
def constantByte (level : Bool) : Byte := if level then 0xFF#8 else 0x00#8

/-- The schedule of a `BUS.RBYTE` against the pattern slave of R163 for byte p: the slave sets its level before each of the eight
rising edges and releases the line after the eighth falling edge. -/
def patternSchedule (p : Byte) : List SchedItem :=
  .fg :: ((bitsMsbFirst p).flatMap fun b => .env (.sdaSlv b) :: List.replicate 7 .fg)
    ++ .env (.sdaSlv true) :: List.replicate 6 .fg

/-- The schedule of a `BUS.WBYTE` against a slave that answers its ninth clock (R159): the slave sets its level after the eighth
falling edge and releases the line after the ninth. -/
def ackSchedule (ack : Bool) : List SchedItem :=
  List.replicate 39 .fg ++ .env (.sdaSlv ack) :: List.replicate 6 .fg ++ .env (.sdaSlv true) :: List.replicate 2 .fg

/-- The schedule of a `TEMP.READ` (R190) against a slave that answers the address with `ack` and then presents p. -/
def readSchedule (ack : Bool) (p : Byte) : List SchedItem :=
  List.replicate 4 .fg ++ ackSchedule ack ++ patternSchedule p ++ List.replicate 5 .fg

/-- The micro-steps that send a status line when no send holds (R216; one empty micro-step for an empty line, log 18). -/
def statusSteps (line : List Byte) : Nat := if line = [] then 1 else 5 * line.length

/-- The byte in slot k of the smoothing window after x is inserted at the cursor (R191). -/
def windowAfter (s : State) (x : Byte) (k : Nat) : Byte :=
  if k = s.smooth.cur.toNat then x else s.smooth.buf.read .smoothBuf k

/-- The mean of the window after x is inserted: `floor((w_0 + ... + w_15) / 16)` (R193). -/
def meanAfter (s : State) (x : Byte) : Nat := ((List.range 16).map fun k => (windowAfter s x k).toNat).sum / 16

/-! ### Transitions, runs and fairness (R69, R287) -/

/-- The condition of R243 under which an event may be taken. -/
def eventEnabled (i : Instr) (s : State) : Bool :=
  match i with
  | .evtRxc d => s.ctl.rxen && s.ctl.rxcie && s.ser.rxHw == some d
  | .evtTxr => s.ctl.txen && s.ctl.txie && s.ser.txHwReady
  | .evtTick => true
  | _ => false

/-- One step of the spec's interleaving: the agent of `it` moves from s to t. -/
def AgentStep (it : SchedItem) (s t : State) : Prop := step (s.setSched [it]) = .next t

/-- An infinite run: at each instant one agent moves. -/
def IsRun (who : Nat → SchedItem) (r : Nat → State) : Prop := ∀ n, AgentStep (who n) (r n) (r (n + 1))

/-- `EvtFair`: an event that stays enabled is eventually taken (R287). -/
def EvtFair (who : Nat → SchedItem) (r : Nat → State) : Prop :=
  ∀ i, i.isEvent = true → ∀ n, (∀ m, n ≤ m → eventEnabled i (r m) = true) → ∃ m, n ≤ m ∧ who m = .event (encode i)

/-- `TxFair`: the serial hardware eventually becomes ready again after each byte (R123, R287). -/
def TxFair (who : Nat → SchedItem) (r : Nat → State) : Prop :=
  ∀ n, (r n).ser.txHwReady = false → ∃ m, n ≤ m ∧ who m = .env .txReady

/-- `FgFair`: the foreground eventually takes its next micro-step (R287). Where it has none, stuck past the end of `PROG` (U9) or
refused, R287 is silent; the model asks nothing of such a run, which may so be fair (DESIGN CHOICE, log 12 and log 26). -/
def FgFair (who : Nat → SchedItem) (r : Nat → State) : Prop :=
  ∀ n, (∀ m, n ≤ m → ∃ t, AgentStep .fg (r m) t) → ∃ m, n ≤ m ∧ who m = .fg

/-- The end of a run (R225): the foreground is at a `SEQ.END`, no serial event can change a ring, and the environment owes nothing,
which under `TxFair` means that the serial hardware is ready (log 20). -/
def runOver (txFair : Bool) (s : State) : Prop :=
  fgCommand s = some .seqEnd ∧ ¬ (s.ctl.txie = true ∧ s.ser.txHwReady = true) ∧ s.ser.rxHw = none ∧
    (txFair = true → s.ser.txHwReady = true)

end Sys2Proof.Machine
end

