-- ==== Sys2Proof/Certificates/Slice0/Obligations.lean ====
section
/-! DEFINITION. The statements for the provers. Each `R<n>` is a numbered rule of spec/; `log <n>` an entry of notes/assumptions/. -/

open Sys2Proof Sys2Proof.Machine

/-! ## Encoding -/

/-- The words of 95_test_vectors.md section 2.5 (V60 to V67) decode as listed there, and `CTL.BOOT` and `CTL.ITER` as their rows of
30_encoding.md section 2 say (0x4600, 0x4500, R92). -/
def Obligations.SampleWordsDecode : Prop :=
  decode 0x1141#16 = .ok (.uartSend 0x41#8) ∧ decode 0x2591#16 = .ok (.busWbyte 0x91#8) ∧
  decode 0x2601#16 = .ok (.busRbyte 1#8) ∧ decode 0x3124#16 = .ok (.tempSmooth 36#8) ∧
  decode 0x0101#16 = .ok (.seqJmp 1#8) ∧ decode 0x4600#16 = .ok .ctlBoot ∧ decode 0x4500#16 = .ok .ctlIter ∧
  decode 0xE069#16 = .ok (.evtRxc 0x69#8) ∧ decode 0x1001#16 = .error .nonzeroOperand ∧
  decode 0x5000#16 = .error .reservedUnit ∧ decode 0x1400#16 = .error .reservedFunc ∧
  decode 0x2700#16 = .error .reservedFunc ∧ decode 0x4700#16 = .error .reservedFunc ∧
  decode 0xF000#16 = .error .reservedUnit

/-- R92: every row of the opcode map, its words and its operand; a word is an operation just when a row covers it. -/
def Obligations.OpcodeMapIsComplete : Prop :=
  (decode 0x0000#16 = .ok .seqNop ∧ (∀ a : Byte, decode (0x0100#16 ||| a.setWidth 16) = .ok (.seqJmp a)) ∧
    decode 0x0200#16 = .ok .seqEnd) ∧
  (decode 0x1000#16 = .ok .uartInit ∧ (∀ b : Byte, decode (0x1100#16 ||| b.setWidth 16) = .ok (.uartSend b)) ∧
    decode 0x1200#16 = .ok .uartAvail ∧ decode 0x1300#16 = .ok .uartRecv) ∧
  (decode 0x2000#16 = .ok .busInit ∧ decode 0x2100#16 = .ok .busStart ∧ decode 0x2200#16 = .ok .busStop ∧
    (∀ b : Byte, decode (0x2300#16 ||| b.setWidth 16) = .ok (.busWbit b)) ∧ decode 0x2400#16 = .ok .busRbit ∧
    (∀ v : Byte, decode (0x2500#16 ||| v.setWidth 16) = .ok (.busWbyte v)) ∧
    (∀ a : Byte, decode (0x2600#16 ||| a.setWidth 16) = .ok (.busRbyte a))) ∧
  (decode 0x3000#16 = .ok .tempRead ∧ (∀ x : Byte, decode (0x3100#16 ||| x.setWidth 16) = .ok (.tempSmooth x)) ∧
    (∀ t : Byte, decode (0x3200#16 ||| t.setWidth 16) = .ok (.tempPreload t)) ∧
    decode 0x3300#16 = .ok .tempSmoothr ∧ decode 0x3400#16 = .ok .tempPreloadr) ∧
  (decode 0x4000#16 = .ok .ctlSetpt ∧ decode 0x4100#16 = .ok .ctlOvr ∧ decode 0x4200#16 = .ok .ctlHyst ∧
    decode 0x4300#16 = .ok .ctlStatus ∧ decode 0x4400#16 = .ok .ctlSleep ∧ decode 0x4500#16 = .ok .ctlIter ∧
    decode 0x4600#16 = .ok .ctlBoot) ∧
  ((∀ d : Byte, decode (0xE000#16 ||| d.setWidth 16) = .ok (.evtRxc d)) ∧ decode 0xE100#16 = .ok .evtTxr ∧
    decode 0xE200#16 = .ok .evtTick) ∧
  (∀ w : CmdWord, (∃ i, decode w = .ok i) ↔ ∃ r ∈ opcodeRows, r.covers w = true)

/-- R98: the rows are disjoint, a word no row covers is reserved, and decoding and encoding are inverse to each other on every
operation and every word that is not reserved. -/
def Obligations.DecodeAndEncodeAgree : Prop :=
  (∀ i : Instr, decode (encode i) = .ok i) ∧
  (∀ (w : CmdWord) (i : Instr), decode w = .ok i → encode i = w) ∧
  (∀ (w : CmdWord), ∀ r ∈ opcodeRows, ∀ r' ∈ opcodeRows, r.covers w = true → r'.covers w = true → r = r') ∧
  (∀ w : CmdWord, (∀ r ∈ opcodeRows, r.covers w = false) → ∃ e, decode w = .error e)

/-- The reserved space (R94), and the sequencer's refusal of a reserved word and of an event word in `PROG` when the foreground is
the next to move, which the model's schedule says (log 9, log 14). -/
def Obligations.ReservedWordsAreRefused : Prop :=
  (∀ w : CmdWord, 5 ≤ (unitField w).toNat ∧ (unitField w).toNat ≤ 13 ∨ (unitField w).toNat = 15 →
    decode w = .error .reservedUnit) ∧
  (∀ w : CmdWord, (unitField w).toNat = 0 ∧ 2 < (funcField w).toNat ∨ (unitField w).toNat = 1 ∧ 3 < (funcField w).toNat ∨
    (unitField w).toNat = 2 ∧ 6 < (funcField w).toNat ∨ (unitField w).toNat = 3 ∧ 4 < (funcField w).toNat ∨
    (unitField w).toNat = 4 ∧ 6 < (funcField w).toNat ∨ (unitField w).toNat = 14 ∧ 2 < (funcField w).toNat →
    decode w = .error .reservedFunc) ∧
  (∀ r ∈ opcodeRows, r.mask = 0xFFFF#16 → ∀ w : CmdWord, w &&& 0xFF00#16 = r.pattern → opdField w ≠ 0#8 →
    decode w = .error .nonzeroOperand) ∧
  (∀ (s : State) (w : CmdWord), s.sched = [] ∨ s.sched.head? = some .fg → s.prog[s.seq.pc.toNat]? = some w →
    (∃ e, decode w = .error e) ∨ (∃ i, decode w = .ok i ∧ i.isEvent = true) → step s = .refused (.reservedWord w))

/-! ## The sequencer and the agents -/

/-- A step is exec of the decoded instruction in the state less the schedule's item: the command at `PROG[pc]` when the foreground
moves (R221), the event of an event word when the schedule gives one (R93, R246). The schedule is the model's own (log 9). -/
def Obligations.StepRunsTheDecodedInstruction : Prop :=
  ∀ (s : State) (w : CmdWord) (i : Instr) (rest : List SchedItem), decode w = .ok i →
    (s.prog[s.seq.pc.toNat]? = some w → i.wellFormed .program = true →
      (s.sched = [] → step s = exec i s) ∧ (s.sched = .fg :: rest → step s = exec i { s with sched := rest })) ∧
    (s.sched = .event w :: rest → i.wellFormed .schedule = true → step s = exec i { s with sched := rest })

/-- The environment's steps (R122, R123, R152, R37). A byte that arrives while the receiver is off or still holds one is no step
of the environment and is dropped: the model's choice, log 11. -/
def Obligations.EnvironmentSteps : Prop :=
  ∀ (s : State) (rest : List SchedItem),
    (∀ d, s.sched = .env (.rxByte d) :: rest → s.ctl.rxen = true → s.ser.rxHw = none →
      step s = .next { s with ser := { s.ser with rxHw := some d }, sched := rest }) ∧
    (∀ d, s.sched = .env (.rxByte d) :: rest → s.ctl.rxen = false ∨ s.ser.rxHw ≠ none →
      step s = .next { s with sched := rest }) ∧
    (s.sched = .env .txReady :: rest → step s = .next { s with ser := { s.ser with txHwReady := true }, sched := rest }) ∧
    (∀ l, s.sched = .env (.sclSlv l) :: rest → step s = .next { s with env := { s.env with sclSlv := l }, sched := rest }) ∧
    (∀ l, s.sched = .env (.sdaSlv l) :: rest → step s = .next { s with env := { s.env with sdaSlv := l }, sched := rest }) ∧
    (∀ l, s.sched = .env (.ovrPin l) :: rest → step s = .next { s with env := { s.env with ovrN := l }, sched := rest }) ∧
    (∀ (i : Fin 6) (l : Bool), s.sched = .env (.spPin i l) :: rest → ∃ t, step s = .next t ∧
      t = { s with env := { s.env with spN := t.env.spN }, sched := rest } ∧ t.env.spN.getLsbD i.val = l ∧
      ∀ j : Fin 6, j ≠ i → t.env.spN.getLsbD j.val = s.env.spN.getLsbD j.val)

/-- Where the foreground has no step. With `pc` at or beyond the end of `PROG` it is stuck (R221, U9): the model's fault fgStuck
(log 12), and an event of the schedule is taken all the same. At `SEQ.END` it makes no progress and `pc` stays (R224): that
choosing it there answers the same state is the model's choice (log 13). -/
def Obligations.ForegroundWithoutStep : Prop :=
  (∀ s : State, s.sched = [] ∨ s.sched.head? = some .fg → s.prog.length ≤ s.seq.pc.toNat → step s = .fault .fgStuck) ∧
  (∀ (s : State) (w : CmdWord) (i : Instr), s.sched.head? = some (.event w) → decode w = .ok i → i.isEvent = true →
    s.prog.length ≤ s.seq.pc.toNat → ∃ t, step s = .next t) ∧
  (decode 0x0200#16 = .ok .seqEnd ∧ ∀ s : State, s.seq.ustep = [1] → exec .seqEnd s = .next s)

/-- `SEQ.NOP` changes nothing and is done (R222); `SEQ.JMP a` sets `pc` to a with no increment (R223), and a target at or beyond
the end of `PROG` leaves the foreground stuck at the next fetch, which the model answers with the fault fgStuck (log 12). -/
def Obligations.NopAndJump : Prop :=
  decode 0x0000#16 = .ok .seqNop ∧
  (∀ a : Byte, decode (0x0100#16 ||| a.setWidth 16) = .ok (.seqJmp a)) ∧
  (∀ s : State, s.seq.ustep = [1] →
    exec .seqNop s = .next { s with seq := { pc := s.seq.pc + 1#8, ustep := [1] } }) ∧
  (∀ (a : Byte) (s : State), s.seq.ustep = [1] → exec (.seqJmp a) s = .next { s with seq := { pc := a, ustep := [1] } }) ∧
  (∀ (a : Byte) (s t : State), s.sched = [] → s.prog.length ≤ a.toNat → exec (.seqJmp a) s = .next t →
    step t = .fault .fgStuck)

/-! ## Byte transport -/

/-- `next` and `count` are arithmetic modulo the capacity, for every capacity of R5. -/
def Obligations.MaskedIncrementWraps : Prop :=
  ∀ (c : Config) (C : Nat), C = c.rxCap ∨ C = c.txCap →
    (2 ≤ C ∧ C ≤ 256 ∧ ∃ k, C = 2 ^ k) ∧
    (∀ i : Byte, i.toNat < C → (maskedNext C i).toNat = (i.toNat + 1) &&& (C - 1)) ∧
    (∀ i : Byte, i.toNat < C - 1 → (maskedNext C i).toNat = i.toNat + 1) ∧
    (∀ i : Byte, i.toNat = C - 1 → maskedNext C i = 0#8) ∧
    (∀ h t : Byte, h.toNat < C → t.toNat < C → (ringCount C h t : Int) = ((h.toNat : Int) - (t.toNat : Int)) % (C : Int))

/-- R113: `UART.INIT` in one micro-step: indices, control bits, `RxHw`, baud divisor and frame; nothing else changes. -/
def Obligations.UartInitResetsTransport : Prop :=
  decode 0x1000#16 = .ok .uartInit ∧
  ∀ s : State, s.seq.ustep = [1] →
    exec .uartInit s = .next (State.finished { s with
      rx := { s.rx with head := 0#8, tail := 0#8 }
      tx := { s.tx with head := 0#8, tail := 0#8 }
      ser := { s.ser with rxHw := none }
      ctl := { rxen := true, txen := true, rxcie := true, txie := false, baudDiv := s.cfg.baudDiv,
               frame := { dataBits := 8, stopBits := 1, parity := false } } })

/-- R114: the micro-steps u1 to u5 of `UART.SEND`, the hold at u2 while the ring is full, which no event but `EVT.TXR` lifts, and the
whole run when the ring is not full. -/
def Obligations.UartSendMicroSteps : Prop :=
  ∀ (b : Byte) (s : State), decode (0x1100#16 ||| b.setWidth 16) = .ok (.uartSend b) ∧
    (s.seq.ustep = [1] → s.ctl.txen = true → exec (.uartSend b) s =
      .next (State.goesTo { s with tmp := { s.tmp with h1 := maskedNext s.cfg.txCap s.tx.head } } [2])) ∧
    (s.seq.ustep = [2] → s.tmp.h1 = s.tx.tail → exec (.uartSend b) s = .next s ∧
      ∀ (i : Instr) (t : State), i.isEvent = true → i ≠ .evtTxr → exec i s = .next t → t.tmp.h1 = t.tx.tail) ∧
    (s.seq.ustep = [2] → s.tmp.h1 ≠ s.tx.tail → exec (.uartSend b) s = .next (s.goesTo [3])) ∧
    (s.seq.ustep = [3] → exec (.uartSend b) s =
      .next (State.goesTo { s with tx := { s.tx with buf := s.tx.buf.write s.tmp.h1.toNat b } } [4])) ∧
    (s.seq.ustep = [4] → exec (.uartSend b) s =
      .next (State.goesTo { s with tx := { s.tx with head := s.tmp.h1 } } [5])) ∧
    (s.seq.ustep = [5] → exec (.uartSend b) s = .next (State.finished { s with ctl := { s.ctl with txie := true } })) ∧
    (s.seq.ustep = [1] → s.ctl.txen = true → maskedNext s.cfg.txCap s.tx.head ≠ s.tx.tail →
      execTimes 5 (.uartSend b) s = .next (State.finished { s with
        tmp := { s.tmp with h1 := maskedNext s.cfg.txCap s.tx.head }
        tx := { s.tx with
          head := maskedNext s.cfg.txCap s.tx.head
          buf := s.tx.buf.write (maskedNext s.cfg.txCap s.tx.head).toNat b }
        ctl := { s.ctl with txie := true } }))

/-- R115: `UART.AVAIL` answers 1 in `RES` when the receive ring is non-empty and 0 when it is empty, and never holds. -/
def Obligations.UartAvailAnswersNonEmpty : Prop :=
  decode 0x1200#16 = .ok .uartAvail ∧
  ∀ s : State, s.seq.ustep = [1] → s.ctl.rxen = true →
    exec .uartAvail s = .next (State.finished { s with
      lat := { s.lat with res := if s.rx.head = s.rx.tail then 0#8 else 1#8 } })

/-- R116: the micro-steps u1 to u4 of `UART.RECV`, the hold at u1 while the ring is empty, which no event but `EVT.RXC` lifts, and
the two overflow windows: an overflow between u1 and u3 loses nothing, one between u3 and u4 returns the overflowing byte and
leaves the ring empty. -/
def Obligations.UartRecvMicroSteps : Prop :=
  decode 0x1300#16 = .ok .uartRecv ∧
  (∀ s : State,
    (s.seq.ustep = [1] → s.ctl.rxen = true → s.rx.head = s.rx.tail → exec .uartRecv s = .next s ∧
      ∀ (i : Instr) (t : State), i.isEvent = true → (∀ d, i ≠ .evtRxc d) → exec i s = .next t → t.rx.head = t.rx.tail) ∧
    (s.seq.ustep = [1] → s.ctl.rxen = true → s.rx.head ≠ s.rx.tail → exec .uartRecv s = .next (s.goesTo [2])) ∧
    (s.seq.ustep = [2] → exec .uartRecv s =
      .next (State.goesTo { s with tmp := { s.tmp with t1 := maskedNext s.cfg.rxCap s.rx.tail } } [3])) ∧
    (s.seq.ustep = [3] → exec .uartRecv s =
      .next (State.goesTo { s with rx := { s.rx with tail := s.tmp.t1 } } [4])) ∧
    (s.seq.ustep = [4] → exec .uartRecv s =
      .next (State.finished { s with lat := { s.lat with res := s.rx.buf.read .rxBuf s.tmp.t1.toNat } }))) ∧
  (∀ (s t : State) (d : Byte), DataInv s → s.rx.head ≠ s.rx.tail → eventEnabled (.evtRxc d) s = true →
    exec (.evtRxc d) s = .next t →
    t.rx.tail = s.rx.tail ∧ t.rx.buf.read .rxBuf (maskedNext s.cfg.rxCap s.rx.tail).toNat =
      s.rx.buf.read .rxBuf (maskedNext s.cfg.rxCap s.rx.tail).toNat) ∧
  (∀ (s t : State) (d : Byte), DataInv s → s.seq.ustep = [2] → maskedNext s.cfg.rxCap s.rx.head = s.rx.tail →
    eventEnabled (.evtRxc d) s = true → exec (.evtRxc d) s = .next t →
    ∃ c q u, s.rxQueue = c :: q ∧ execTimes 3 .uartRecv t = .next u ∧ u.lat.res = c ∧ u.rxQueue = q ++ [d] ∧
      ringCount u.cfg.rxCap u.rx.head u.rx.tail = s.cfg.rxCap - 1) ∧
  (∀ (s t : State) (d : Byte), DataInv s → s.seq.ustep = [3] → s.tmp.t1 = maskedNext s.cfg.rxCap s.rx.tail →
    maskedNext s.cfg.rxCap s.rx.head = s.rx.tail → eventEnabled (.evtRxc d) s = true → exec (.evtRxc d) s = .next t →
    ∃ c q u, s.rxQueue = c :: q ∧ execTimes 2 .uartRecv t = .next u ∧ u.lat.res = c ∧ u.rxQueue = q ++ [d] ∧
      ringCount u.cfg.rxCap u.rx.head u.rx.tail = s.cfg.rxCap - 1) ∧
  (∀ (s t : State) (d : Byte), DataInv s → s.seq.ustep = [4] → s.tmp.t1 = s.rx.tail →
    maskedNext s.cfg.rxCap s.rx.head = s.rx.tail → eventEnabled (.evtRxc d) s = true → exec (.evtRxc d) s = .next t →
    ∃ u, exec .uartRecv t = .next u ∧ u.lat.res = d ∧ u.rx.head = u.rx.tail)

/-- Transport operations before `UART.INIT` are refused, `CTL.STATUS` through its sends; the enables are 0 at reset and only
`UART.INIT` sets them (R127). That an operation tests its precondition in its first micro-step is the model's reading (log 19). -/
def Obligations.TransportBeforeInitIsRefused : Prop :=
  (∀ (b : Byte) (s : State), s.seq.ustep = [1] → s.ctl.txen = false → exec (.uartSend b) s = .refused .beforeInit) ∧
  (∀ s : State, s.seq.ustep = [1] → s.ctl.rxen = false →
    exec .uartAvail s = .refused .beforeInit ∧ exec .uartRecv s = .refused .beforeInit) ∧
  (∀ s : State, s.seq.ustep = [2] → s.tmp.line ≠ [] → s.ctl.txen = false → exec .ctlStatus s = .refused .beforeInit) ∧
  (∀ (cfg : Config) (prog : List CmdWord),
    (State.resetWith cfg prog).ctl.txen = false ∧ (State.resetWith cfg prog).ctl.rxen = false) ∧
  (∀ (i : Instr) (s t : State), exec i s = .next t → atInit i s = false →
    t.ctl.txen = s.ctl.txen ∧ t.ctl.rxen = s.ctl.rxen)

/-- R117: `EVT.RXC d` reads the byte, advances the head and stores the byte whether or not the ring was full; nothing else changes. -/
def Obligations.ReceiveCompleteStoresByte : Prop :=
  (∀ d : Byte, decode (0xE000#16 ||| d.setWidth 16) = .ok (.evtRxc d)) ∧
  ∀ (d : Byte) (s : State), s.ctl.rxen = true → s.ctl.rxcie = true → s.ser.rxHw = some d →
    exec (.evtRxc d) s = .next { s with
      ser := { s.ser with rxHw := none }
      rx := { s.rx with
        head := maskedNext s.cfg.rxCap s.rx.head
        buf := s.rx.buf.write (maskedNext s.cfg.rxCap s.rx.head).toNat d } }

/-- R118: `EVT.TXR` hands the next byte over, or on an empty ring disarms itself; nothing else changes. -/
def Obligations.TransmitReadyHandsOver : Prop :=
  decode 0xE100#16 = .ok .evtTxr ∧
  ∀ s : State, s.ctl.txen = true → s.ctl.txie = true → s.ser.txHwReady = true →
    (s.tx.head ≠ s.tx.tail → exec .evtTxr s = .next { s with
      tx := { s.tx with tail := maskedNext s.cfg.txCap s.tx.tail }
      ser := { s.ser with txHwReady := false }
      trace := { s.trace with
        txWire := s.trace.txWire ++ [s.tx.buf.read .txBuf (maskedNext s.cfg.txCap s.tx.tail).toNat] } }) ∧
    (s.tx.head = s.tx.tail → exec .evtTxr s = .next { s with ctl := { s.ctl with txie := false } })

/-- R119: a receive-complete on a full ring leaves it reading empty; the byte goes to the one slot that held no queued byte, every
other slot keeps its byte, and no state records the loss. -/
def Obligations.ReceiveOverflowEmptiesRing : Prop :=
  ∀ (d : Byte) (s : State), DataInv s → eventEnabled (.evtRxc d) s = true → maskedNext s.cfg.rxCap s.rx.head = s.rx.tail →
    s.rxQueue.length = s.cfg.rxCap - 1 ∧
    (∀ k, 1 ≤ k → k ≤ s.cfg.rxCap - 1 → slotAfter s.cfg.rxCap s.rx.tail k ≠ s.rx.tail) ∧
    ∃ t, exec (.evtRxc d) s = .next t ∧ t.rx.head = t.rx.tail ∧ t.rx.tail = s.rx.tail ∧ t.rxQueue = [] ∧
      t.rx.buf.read .rxBuf s.rx.tail.toNat = d ∧
      (∀ a, a ≠ s.rx.tail.toNat → t.rx.buf.read .rxBuf a = s.rx.buf.read .rxBuf a) ∧
      t = { s with rx := t.rx, ser := { s.ser with rxHw := none } }

/-- R120: a ring never holds more than C - 1 bytes: `UART.SEND` holds at that count, and a receive-complete at that count leaves 0. -/
def Obligations.RingHoldsAtMostCapacityLessOne : Prop :=
  ∀ s : State, DataInv s →
    (s.rxQueue.length ≤ s.cfg.rxCap - 1 ∧ s.txQueue.length ≤ s.cfg.txCap - 1) ∧
    (∀ b, s.seq.ustep = [2] → s.tmp.h1 = maskedNext s.cfg.txCap s.tx.head →
      (exec (.uartSend b) s = .next s ↔ s.txQueue.length = s.cfg.txCap - 1)) ∧
    (∀ d t, s.rxQueue.length = s.cfg.rxCap - 1 → eventEnabled (.evtRxc d) s = true → exec (.evtRxc d) s = .next t →
      t.rxQueue.length = 0)

/-- The abstract view of the rings (R125), at the steps that move an index: append, remove the first, clear on overflow; and the
receive half of R121: across every step of every agent that is no overflow the receive queue is unchanged, appended to by `EVT.RXC`,
loses its first byte at u3 of a `UART.RECV`, whose u4 then puts that byte in `RES`, or is emptied by `UART.INIT`. What an overflow
does inside a receive is UartRecvMicroSteps. -/
def Obligations.RingsAreQueues : Prop :=
  (∀ s : State, DataInv s →
    (∀ b, s.seq.ustep = [3] → s.tmp.h1 = maskedNext s.cfg.txCap s.tx.head → s.tmp.h1 ≠ s.tx.tail →
      ∃ t, execTimes 2 (.uartSend b) s = .next t ∧ t.txQueue = s.txQueue ++ [b]) ∧
    (eventEnabled .evtTxr s = true → s.tx.head ≠ s.tx.tail → ∃ c q t, s.txQueue = c :: q ∧ exec .evtTxr s = .next t ∧
      t.txQueue = q ∧ t.trace.txWire = s.trace.txWire ++ [c]) ∧
    (∀ d, eventEnabled (.evtRxc d) s = true → ∃ t, exec (.evtRxc d) s = .next t ∧
      t.rxQueue = if s.rxQueue.length < s.cfg.rxCap - 1 then s.rxQueue ++ [d] else []) ∧
    (s.seq.ustep = [3] → s.tmp.t1 = maskedNext s.cfg.rxCap s.rx.tail → s.rx.head ≠ s.rx.tail → ∃ c q t,
      s.rxQueue = c :: q ∧ execTimes 2 .uartRecv s = .next t ∧ t.lat.res = c ∧ t.rxQueue = q) ∧
    (s.seq.ustep = [1] → s.ctl.rxen = true → ∃ t, exec .uartAvail s = .next t ∧ t.rxQueue = s.rxQueue ∧
      (t.lat.res = 1#8 ↔ s.rxQueue ≠ []))) ∧
  (∀ s t : State, DataInv s → RecvInv s → rxOverflow s = false → step s = .next t → RecvInv t ∧
    (t.rxQueue = s.rxQueue ∨
      (∃ d, s.sched.head? = some (.event (encode (.evtRxc d))) ∧ eventEnabled (.evtRxc d) s = true ∧
        t.rxQueue = s.rxQueue ++ [d]) ∨
      (fgNext s = some .uartRecv ∧ s.seq.ustep = [3] ∧ t.seq.ustep = [4] ∧
        s.rxQueue = t.rx.buf.read .rxBuf t.tmp.t1.toNat :: t.rxQueue) ∨
      (∃ i, fgNext s = some i ∧ atInit i s = true ∧ t.rxQueue = [])) ∧
    (fgCommand s = some .uartRecv → s.seq.ustep = [4] →
      (fgNext s = some .uartRecv → t.lat.res = s.rx.buf.read .rxBuf s.tmp.t1.toNat ∧ t.rxQueue = s.rxQueue) ∧
      (fgNext s = none → t.seq = s.seq ∧ t.tmp.t1 = s.tmp.t1 ∧
        t.rx.buf.read .rxBuf t.tmp.t1.toNat = s.rx.buf.read .rxBuf s.tmp.t1.toNat)))

/-- What a `UART.SEND` under way knows of its slot holds after every step of every agent. -/
def Obligations.SendUnderWayKeepsItsSlot : Prop :=
  ∀ s t : State, DataInv s → SendInv s → step s = .next t → SendInv t

/-- Transmit order (R121): the bytes handed over followed by the bytes queued are only ever appended to, by the publishing
micro-step of a `UART.SEND` and with its operand, whichever agent moves; `UART.INIT` alone empties the queue. -/
def Obligations.TransmitOrderIsKept : Prop :=
  ∀ s t : State, DataInv s → SendInv s → step s = .next t →
    t.trace.txWire ++ t.txQueue = s.trace.txWire ++ s.txQueue ∨
    (∃ b, sendAt s = some (b, 4) ∧ fgNext s = fgCommand s ∧
      t.trace.txWire ++ t.txQueue = s.trace.txWire ++ s.txQueue ++ [b]) ∨
    (∃ i, fgNext s = some i ∧ atInit i s = true ∧ t.trace.txWire = s.trace.txWire ∧ t.txQueue = [])

/-- No stranded byte (R124), as an invariant of every step of every agent. -/
def Obligations.NoByteIsEverStranded : Prop := ∀ s t : State, NoStrandedByte s → step s = .next t → NoStrandedByte t

/-- R76: no queued slot of either ring is unwritten, and the slot a `UART.RECV` is about to read is written, after every step. -/
def Obligations.NoUnwrittenRingSlotIsRead : Prop :=
  (∀ s t : State, DataInv s → SendInv s → TxQueuedWritten s → step s = .next t → TxQueuedWritten t) ∧
  (∀ s t : State, DataInv s → RxQueuedWritten s → step s = .next t → RxQueuedWritten t)

/-- The ring invariants (R23), for every step: (i) indices stay below the capacities, (ii) the capacities are powers of two, (iii) an
index moves by `next` or is set to 0 by `UART.INIT`. Which agent moves next is the model's schedule (log 9). -/
def Obligations.RingInvariants : Prop :=
  (∀ c : Config, (∃ k, c.rxCap = 2 ^ k) ∧ ∃ k, c.txCap = 2 ^ k) ∧
  ∀ s t : State, DataInv s → SendInv s → step s = .next t →
    (t.rx.head.toNat < t.cfg.rxCap ∧ t.rx.tail.toNat < t.cfg.rxCap ∧ t.tx.head.toNat < t.cfg.txCap ∧
      t.tx.tail.toNat < t.cfg.txCap) ∧
    ((∀ i, fgNext s = some i → atInit i s = false) → (fgNext s = some .uartRecv → s.seq.ustep = [3] →
        s.tmp.t1 = maskedNext s.cfg.rxCap s.rx.tail) →
      (t.rx.head = s.rx.head ∨ t.rx.head = maskedNext s.cfg.rxCap s.rx.head) ∧
      (t.rx.tail = s.rx.tail ∨ t.rx.tail = maskedNext s.cfg.rxCap s.rx.tail) ∧
      (t.tx.head = s.tx.head ∨ t.tx.head = maskedNext s.cfg.txCap s.tx.head) ∧
      (t.tx.tail = s.tx.tail ∨ t.tx.tail = maskedNext s.cfg.txCap s.tx.tail)) ∧
    ((∃ i, fgNext s = some i ∧ atInit i s = true) →
      t.rx.head = 0#8 ∧ t.rx.tail = 0#8 ∧ t.tx.head = 0#8 ∧ t.tx.tail = 0#8)

/-- Every step keeps the data in range: indices, memories in canonical form, the millisecond counter (R23, R31, R60, R64). -/
def Obligations.EveryStepKeepsDataInRange : Prop := ∀ s t : State, DataInv s → step s = .next t → DataInv t

/-- The single-writer table (R70): which operations can change a shared element. -/
def Obligations.EachSharedElementHasOneWriter : Prop :=
  ∀ (i : Instr) (s t : State), exec i s = .next t →
    ((∀ d, i ≠ .evtRxc d) → t.rx.buf = s.rx.buf ∧ (atInit i s = false → t.rx.head = s.rx.head ∧ t.ser.rxHw = s.ser.rxHw)) ∧
    (i ≠ .evtTxr → t.trace.txWire = s.trace.txWire ∧ t.ser.txHwReady = s.ser.txHwReady ∧
      (atInit i s = false → t.tx.tail = s.tx.tail)) ∧
    (i ≠ .evtTick → t.tick = s.tick) ∧
    (i.isEvent = true → t.rx.tail = s.rx.tail ∧ t.tx.head = s.tx.head ∧ t.tx.buf = s.tx.buf ∧ t.bus = s.bus ∧
      t.smooth = s.smooth ∧ t.lat = s.lat ∧ t.coil = s.coil ∧ t.tmp = s.tmp ∧ t.seq = s.seq) ∧
    (t.cfg = s.cfg ∧ t.prog = s.prog ∧ t.env = s.env ∧ t.sched = s.sched)

/-- The frame of every operation over the registers, the temporaries of R32 among them: each is written only by the operations whose
rules name it (R24, R29, R32, R70, R113 to R118, R150 to R160, R190 to R197, R210 to R220). -/
def Obligations.EachRegisterHasItsWriters : Prop :=
  ∀ (i : Instr) (s t : State), exec i s = .next t →
    (drivesBus i = false → t.bus = s.bus ∧ t.trace.bus = s.trace.bus ∧ t.tmp.v = s.tmp.v ∧
      t.tmp.i = s.tmp.i ∧ t.tmp.r = s.tmp.r) ∧
    (writesWindow i = false → t.smooth = s.smooth ∧ t.tmp.k = s.tmp.k) ∧
    (writesMean i = false → t.smooth.cur = s.smooth.cur ∧ t.lat.sm = s.lat.sm ∧ t.tmp.sum = s.tmp.sum) ∧
    (writesRaw i = false → t.lat.raw = s.lat.raw) ∧
    (writesRes i = false → t.lat.res = s.lat.res) ∧
    (i ≠ .ctlSetpt → i ≠ .ctlIter → t.lat.sp = s.lat.sp) ∧
    (i ≠ .ctlOvr → i ≠ .ctlIter → t.lat.ov = s.lat.ov) ∧
    (i ≠ .ctlHyst → i ≠ .ctlIter → t.coil = s.coil ∧ t.trace.coil = s.trace.coil) ∧
    (sendsBytes i = false → t.tx.buf = s.tx.buf ∧ t.tmp.h1 = s.tmp.h1 ∧ t.tmp.line = s.tmp.line ∧
      (atInit i s = false → t.tx.head = s.tx.head)) ∧
    (i ≠ .uartRecv → t.tmp.t1 = s.tmp.t1 ∧ (atInit i s = false → t.rx.tail = s.rx.tail)) ∧
    (atInit i s = false → t.ctl = { s.ctl with txie := t.ctl.txie } ∧
      (sendsBytes i = false → i ≠ .evtTxr → t.ctl.txie = s.ctl.txie)) ∧
    (∀ a, 16 ≤ a → t.smooth.buf.read .smoothBuf a = s.smooth.buf.read .smoothBuf a) ∧
    (∀ a, a ≠ s.tmp.h1.toNat → t.tx.buf.read .txBuf a = s.tx.buf.read .txBuf a)

/-- No operation but those of the receive side reads or writes the receive ring, and likewise the transmit ring (R126, R226). -/
def Obligations.RingsAreIndependent : Prop :=
  ∀ (i : Instr) (s : State),
    (∀ q : Ring, (∀ d, i ≠ .evtRxc d) → i ≠ .uartInit → i ≠ .uartAvail → i ≠ .uartRecv → i ≠ .ctlBoot →
      exec i { s with rx := q } = mapNext (fun t => { t with rx := q }) (exec i s)) ∧
    (∀ q : Ring, i ≠ .evtTxr → i ≠ .uartInit → (∀ b, i ≠ .uartSend b) → i ≠ .ctlStatus → i ≠ .ctlIter → i ≠ .ctlBoot →
      exec i { s with tx := q } = mapNext (fun t => { t with tx := q }) (exec i s))

/-! ## Events -/

/-- An event is one atomic step that touches neither the position nor a temporary, a latch, a bus line, the coil, the filter, the
parameters or the environment (R246, R248). That it answers a next state where it is disabled too is the model's choice (log 10). -/
def Obligations.EventLeavesTheForegroundAlone : Prop :=
  ∀ (i : Instr) (s : State), i.isEvent = true → ∃ t, exec i s = .next t ∧
    t = { s with
      rx := { s.rx with head := t.rx.head, buf := t.rx.buf }
      tx := { s.tx with tail := t.tx.tail }
      ctl := { s.ctl with txie := t.ctl.txie }
      ser := t.ser
      tick := t.tick
      trace := { s.trace with txWire := t.trace.txWire } }

/-- An event whose condition of R243 fails is not taken: the state stays (that exec answers so is the model's choice, log 10); the
tick is always enabled. -/
def Obligations.DisabledEventIsNotTaken : Prop :=
  (∀ (i : Instr) (s : State), i.isEvent = true → eventEnabled i s = false → exec i s = .next s) ∧
  (∀ s : State, eventEnabled .evtTick s = true)

/-- R220: the tick, always enabled, counts milliseconds to 999 and then seconds modulo 2^32; nothing else reads or writes the
counters. -/
def Obligations.TickCounts : Prop :=
  decode 0xE200#16 = .ok .evtTick ∧
  ∀ s : State,
    eventEnabled .evtTick s = true ∧
    (s.tick.ms.toNat = 999 → exec .evtTick s = .next { s with
      tick := { ms := 0#16, sec := BitVec.ofNat 32 ((s.tick.sec.toNat + 1) % 2 ^ 32) } }) ∧
    (s.tick.ms.toNat ≠ 999 → exec .evtTick s = .next { s with tick := { s.tick with ms := s.tick.ms + 1#16 } }) ∧
    (∀ (i : Instr) (k : Tick), i ≠ .evtTick →
      exec i { s with tick := k } = mapNext (fun t => { t with tick := k }) (exec i s))

/-! ## Two-wire bus -/

/-- R154, R155, R156: the micro-steps of `BUS.INIT`, `BUS.START` and `BUS.STOP`, from any line state. -/
def Obligations.BusFramingMicroSteps : Prop :=
  (decode 0x2000#16 = .ok .busInit ∧ decode 0x2100#16 = .ok .busStart ∧ decode 0x2200#16 = .ok .busStop) ∧
  ∀ s : State,
    ((s.seq.ustep = [1] → exec .busInit s = .next ((s.busAct { s.bus with sda := false } .sdaLow).goesTo [2])) ∧
     (s.seq.ustep = [2] → exec .busInit s = .next ((s.busAct { s.bus with scl := false } .sclLow).goesTo [3])) ∧
     (s.seq.ustep = [3] → exec .busInit s = .next ((s.busAct s.bus .delay).goesTo [4])) ∧
     (s.seq.ustep = [4] → exec .busInit s = .next ((s.busAct { s.bus with scl := true } .sclRel).goesTo [5])) ∧
     (s.seq.ustep = [5] → exec .busInit s = .next ((s.busAct { s.bus with sda := true } .sdaRel).goesTo [6])) ∧
     (s.seq.ustep = [6] → exec .busInit s = .next (s.busAct s.bus .delay).finished)) ∧
    ((s.seq.ustep = [1] → exec .busStart s = .next ((s.busAct { s.bus with sda := false } .sdaLow).goesTo [2])) ∧
     (s.seq.ustep = [2] → exec .busStart s = .next ((s.busAct s.bus .delay).goesTo [3])) ∧
     (s.seq.ustep = [3] → exec .busStart s = .next ((s.busAct { s.bus with scl := false } .sclLow).goesTo [4])) ∧
     (s.seq.ustep = [4] → exec .busStart s = .next (s.busAct s.bus .delay).finished)) ∧
    ((s.seq.ustep = [1] → exec .busStop s = .next ((s.busAct { s.bus with scl := true } .sclRel).goesTo [2])) ∧
     (s.seq.ustep = [2] → exec .busStop s = .next ((s.busAct s.bus .delay).goesTo [3])) ∧
     (s.seq.ustep = [3] → exec .busStop s = .next ((s.busAct { s.bus with sda := true } .sdaRel).goesTo [4])) ∧
     (s.seq.ustep = [4] → exec .busStop s = .next (s.busAct s.bus .delay).finished))

/-- Whole runs of the framing operations: `BUS.INIT` and `BUS.STOP` leave the idle bus, `BUS.START` both lines low (R164), with the
traces of R154 to R156; after a not-acknowledged read the data line does not move during `BUS.STOP` (R283). -/
def Obligations.BusFramingRuns : Prop :=
  ∀ s : State, s.seq.ustep = [1] →
    execTimes 6 .busInit s = .next (State.finished { s with
      bus := { scl := true, sda := true }
      trace := { s.trace with bus := s.trace.bus ++ [.sdaLow, .sclLow, .delay, .sclRel, .sdaRel, .delay] } }) ∧
    execTimes 4 .busStart s = .next (State.finished { s with
      bus := { scl := false, sda := false }, trace := { s.trace with bus := s.trace.bus ++ startTrace } }) ∧
    execTimes 4 .busStop s = .next (State.finished { s with
      bus := { scl := true, sda := true }, trace := { s.trace with bus := s.trace.bus ++ stopTrace } }) ∧
    (s.bus = { scl := false, sda := true } → ∀ n, n ≤ 4 → ∃ t, execTimes n .busStop s = .next t ∧ t.bus.sda = true)

/-- R157: the micro-steps of `BUS.WBIT b`; any non-zero operand is the bit 1. -/
def Obligations.WriteBitMicroSteps : Prop :=
  ∀ (b : Byte) (s : State), decode (0x2300#16 ||| b.setWidth 16) = .ok (.busWbit b) ∧
    (s.seq.ustep = [1] → b ≠ 0#8 →
      exec (.busWbit b) s = .next ((s.busAct { s.bus with sda := true } .sdaRel).goesTo [2])) ∧
    (s.seq.ustep = [1] → b = 0#8 →
      exec (.busWbit b) s = .next ((s.busAct { s.bus with sda := false } .sdaLow).goesTo [2])) ∧
    (s.seq.ustep = [2] → exec (.busWbit b) s = .next ((s.busAct { s.bus with scl := true } .sclRel).goesTo [3])) ∧
    (s.seq.ustep = [3] → exec (.busWbit b) s = .next ((s.busAct s.bus .delay).goesTo [4])) ∧
    (s.seq.ustep = [4] → exec (.busWbit b) s = .next ((s.busAct { s.bus with scl := false } .sclLow).goesTo [5])) ∧
    (s.seq.ustep = [5] → exec (.busWbit b) s = .next (s.busAct s.bus .delay).finished)

/-- R158: the micro-steps of `BUS.RBIT`; the sample is the wired-AND level of the data line. -/
def Obligations.ReadBitMicroSteps : Prop :=
  decode 0x2400#16 = .ok .busRbit ∧
  ∀ s : State,
    (s.seq.ustep = [1] → exec .busRbit s = .next ((s.busAct { s.bus with sda := true } .sdaRel).goesTo [2])) ∧
    (s.seq.ustep = [2] → exec .busRbit s = .next ((s.busAct { s.bus with scl := true } .sclRel).goesTo [3])) ∧
    (s.seq.ustep = [3] → exec .busRbit s = .next ((s.busAct s.bus .delay).goesTo [4])) ∧
    (s.seq.ustep = [4] → exec .busRbit s = .next (State.goesTo { s.busAct s.bus (.sample (s.bus.sda && s.env.sdaSlv)) with
      tmp := { s.tmp with v := s.bus.sda && s.env.sdaSlv } } [5])) ∧
    (s.seq.ustep = [5] → exec .busRbit s = .next ((s.busAct { s.bus with scl := false } .sclLow).goesTo [6])) ∧
    (s.seq.ustep = [6] → exec .busRbit s = .next ((s.busAct s.bus .delay).goesTo [7])) ∧
    (s.seq.ustep = [7] → exec .busRbit s =
      .next (State.finished { s with lat := { s.lat with res := if s.tmp.v then 1#8 else 0#8 } }))

/-- The 47 micro-steps of `BUS.WBYTE v` (R159): the trace, the acknowledgment in `RES`, the lines, and nothing else but temporaries,
against a slave that holds its level and, in a schedule of the model's (log 9), against one that answers the ninth clock alone
(V24); an echo slave records the bits of v, then the acknowledgment clock (R163). -/
def Obligations.WriteByteRuns : Prop :=
  ∀ (v : Byte) (s : State), s.seq.ustep = [1] →
    (∃ t, execTimes 47 (.busWbyte v) s = .next t ∧
      t = State.finished { s with
        bus := { scl := false, sda := true }
        lat := { s.lat with res := if s.env.sdaSlv then 1#8 else 0#8 }
        trace := { s.trace with bus := s.trace.bus ++ wbyteTrace v s.env.sdaSlv }
        tmp := t.tmp }) ∧
    (∀ (ack : Bool) (rest : List SchedItem), fgCommand s = some (.busWbyte v) → s.sched = ackSchedule ack ++ rest →
      ∃ t, runSteps 49 s = .next t ∧
        t = State.finished { s with
          bus := { scl := false, sda := true }
          lat := { s.lat with res := if ack then 1#8 else 0#8 }
          trace := { s.trace with bus := s.trace.bus ++ wbyteTrace v ack }
          env := { s.env with sdaSlv := true }
          sched := rest
          tmp := t.tmp }) ∧
    (wbyteTrace v s.env.sdaSlv).length = 46 ∧
    (s.bus.scl = false → echoRecord s.bus (wbyteTrace v s.env.sdaSlv) = bitsMsbFirst v ++ [true])

/-- The 63 micro-steps of `BUS.RBYTE a` (R160) against a slave that holds its level: 0xFF released, 0x00 stuck low. -/
def Obligations.ReadByteRunsOnSteadyLine : Prop :=
  ∀ (a : Byte) (s : State), s.seq.ustep = [1] →
    (∃ t, execTimes 63 (.busRbyte a) s = .next t ∧
      t = State.finished { s with
        bus := { scl := false, sda := decide (a ≠ 0#8) }
        lat := { s.lat with res := constantByte s.env.sdaSlv }
        trace := { s.trace with bus := s.trace.bus ++ rbyteTrace (constantByte s.env.sdaSlv) (decide (a ≠ 0#8)) }
        tmp := t.tmp }) ∧
    (rbyteTrace (constantByte s.env.sdaSlv) (decide (a ≠ 0#8))).length = 53

/-- The pattern slave (R163): against a slave that presents the bits of p most significant first, `BUS.RBYTE a` yields p, for every
p. The schedule that makes the slave move between the micro-steps is the model's (log 9). -/
def Obligations.ReadByteReconstructsPattern : Prop :=
  ∀ (p a : Byte) (s : State) (rest : List SchedItem), fgCommand s = some (.busRbyte a) → s.seq.ustep = [1] →
    s.sched = patternSchedule p ++ rest → ∃ t, runSteps 72 s = .next t ∧
      t = State.finished { s with
        bus := { scl := false, sda := decide (a ≠ 0#8) }
        lat := { s.lat with res := p }
        trace := { s.trace with bus := s.trace.bus ++ rbyteTrace p (decide (a ≠ 0#8)) }
        env := { s.env with sdaSlv := true }
        sched := rest
        tmp := t.tmp }

/-- The observation traces agree with the outputs after every step: the coil is the last value traced (R36), and the lines are
driven as the bus actions leave them (R151). -/
def Obligations.TracesAgreeWithOutputs : Prop := ∀ s t : State, TraceInv s → step s = .next t → TraceInv t

/-! ## Temperature -/

/-- The 119 micro-steps of `TEMP.READ` (R190): the raw byte, the trace with its 40 delays (R288), the idle bus at the end, and
nothing else but temporaries, against a slave that holds its level and, in a schedule of the model's (log 9), against one that answers
its address with any level and then presents any byte p (V24). -/
def Obligations.TemperatureReadRuns : Prop :=
  ∀ s : State, s.seq.ustep = [1] →
    (∃ t, execTimes 119 .tempRead s = .next t ∧
      t = State.finished { s with
        bus := { scl := true, sda := true }
        lat := { s.lat with res := constantByte s.env.sdaSlv, raw := constantByte s.env.sdaSlv }
        trace := { s.trace with
          bus := s.trace.bus ++ readTrace s.cfg.slaveReadAddr s.env.sdaSlv (constantByte s.env.sdaSlv) }
        tmp := t.tmp }) ∧
    (∀ (ack : Bool) (p : Byte) (rest : List SchedItem), fgCommand s = some .tempRead → s.sched = readSchedule ack p ++ rest →
      ∃ t, runSteps 130 s = .next t ∧
        t = State.finished { s with
          bus := { scl := true, sda := true }
          lat := { s.lat with res := p, raw := p }
          trace := { s.trace with bus := s.trace.bus ++ readTrace s.cfg.slaveReadAddr ack p }
          env := { s.env with sdaSlv := true }
          sched := rest
          tmp := t.tmp }) ∧
    (readTrace s.cfg.slaveReadAddr s.env.sdaSlv (constantByte s.env.sdaSlv)).length = 107 ∧
    (readTrace s.cfg.slaveReadAddr s.env.sdaSlv (constantByte s.env.sdaSlv)).count .delay = 40

/-- R191: the micro-steps of `TEMP.SMOOTH x`; the 16-bit sum is exact. What the temporary `k` holds after its loop is not stated. -/
def Obligations.SmoothMicroSteps : Prop :=
  ∀ (x : Byte) (s : State), decode (0x3100#16 ||| x.setWidth 16) = .ok (.tempSmooth x) ∧
    (s.seq.ustep = [1] → exec (.tempSmooth x) s =
      .next (State.goesTo { s with smooth := { s.smooth with buf := s.smooth.buf.write s.smooth.cur.toNat x } } [2])) ∧
    (s.seq.ustep = [2] → exec (.tempSmooth x) s =
      .next (State.goesTo { s with smooth := { s.smooth with cur := s.smooth.cur + 1#4 } } [3])) ∧
    (s.seq.ustep = [3] → ∃ t, exec (.tempSmooth x) s = .next t ∧
      t = State.goesTo { s with tmp := { s.tmp with sum := t.tmp.sum, k := t.tmp.k } } [4] ∧
      t.tmp.sum.toNat = ((List.range 16).map fun k => (s.smooth.buf.read .smoothBuf k).toNat).sum) ∧
    (s.seq.ustep = [4] → exec (.tempSmooth x) s = .next (State.finished { s with lat := { s.lat with
      sm := BitVec.ofNat 8 (s.tmp.sum.toNat / 16), res := BitVec.ofNat 8 (s.tmp.sum.toNat / 16) } }))

/-- R193: after a whole `TEMP.SMOOTH x` the mean is the floor of the window's sum by 16, the new sample included; a window of one
value V keeps V; sixteen slots of V before the insert give `V + floor((X - V) / 16)`; sixteen inserts replace the window. -/
def Obligations.MovingAverageIsFloorOfMean : Prop :=
  (∀ (x : Byte) (s : State), s.seq.ustep = [1] → ∃ t, execTimes 4 (.tempSmooth x) s = .next t ∧
    t = State.finished { s with smooth := t.smooth, lat := { s.lat with sm := t.lat.sm, res := t.lat.sm }, tmp := t.tmp } ∧
    t.lat.sm.toNat = meanAfter s x ∧ t.smooth.cur = s.smooth.cur + 1#4 ∧
    (∀ k, t.smooth.buf.read .smoothBuf k = windowAfter s x k) ∧
    (∀ V : Byte, (∀ k, k < 16 → windowAfter s x k = V) → t.lat.sm = V) ∧
    (∀ V : Byte, (∀ k, k < 16 → s.smooth.buf.read .smoothBuf k = V) →
      t.lat.sm.toNat = (15 * V.toNat + x.toNat) / 16 ∧
      (t.lat.sm.toNat : Int) = (V.toNat : Int) + ((x.toNat : Int) - (V.toNat : Int)) / 16)) ∧
  (∀ (xs : List Byte) (s : State), xs.length = 16 → ∃ t,
    (xs.foldl (fun (r : Result) x => match r with
        | .next u => execTimes 4 (.tempSmooth x) (u.goesTo [1])
        | r => r) (.next s)) = .next t ∧
    t.smooth.cur = s.smooth.cur ∧
    ∀ k, k < 16 → t.smooth.buf.read .smoothBuf ((s.smooth.cur.toNat + k) % 16) = xs.getD k 0#8)

/-- `TEMP.PRELOAD t` fills the sixteen slots and nothing else but the temporary `k` (R192); the latch forms run `TEMP.SMOOTH RAW` and `TEMP.PRELOAD RAW`
(R196, R197), a call costing no micro-step of its own (the model's reading, log 17). -/
def Obligations.PreloadAndLatchForms : Prop :=
  (decode 0x3300#16 = .ok .tempSmoothr ∧ decode 0x3400#16 = .ok .tempPreloadr ∧
    ∀ x : Byte, decode (0x3200#16 ||| x.setWidth 16) = .ok (.tempPreload x)) ∧
  (∀ (x : Byte) (s : State), s.seq.ustep = [1] → ∃ t, exec (.tempPreload x) s = .next t ∧
    t = State.finished { s with smooth := { s.smooth with buf := t.smooth.buf }, tmp := { s.tmp with k := t.tmp.k } } ∧
    (∀ k, k < 16 → t.smooth.buf.read .smoothBuf k = x) ∧
    (∀ k, 16 ≤ k → t.smooth.buf.read .smoothBuf k = s.smooth.buf.read .smoothBuf k)) ∧
  (∀ s : State, s.seq.ustep = [1] → exec .tempPreloadr s = exec (.tempPreload s.lat.raw) s) ∧
  (∀ s : State, s.seq.ustep = [1] → execTimes 4 .tempSmoothr s = execTimes 4 (.tempSmooth s.lat.raw) s)

/-- No feedback into the filter (R195): the temperature family neither reads nor writes the coil, the setpoint, the override or
either ring. -/
def Obligations.FilterHasNoFeedback : Prop :=
  ∀ (i : Instr) (s : State) (coil ov : Bool) (sp : BitVec 6) (rx tx : Ring),
    (i = .tempRead ∨ i = .tempSmoothr ∨ i = .tempPreloadr ∨ (∃ x, i = .tempSmooth x) ∨ ∃ x, i = .tempPreload x) →
    exec i { s with coil := coil, rx := rx, tx := tx, lat := { s.lat with sp := sp, ov := ov } } =
      mapNext (fun t => { t with coil := coil, rx := rx, tx := tx, lat := { t.lat with sp := sp, ov := ov } }) (exec i s)

/-! ## Control -/

/-- R211, R212 and R217: the setpoint and the override decoded from their pins, active low; the sleep changes no state. -/
def Obligations.InputsAreDecodedAndSleepIsIdle : Prop :=
  (decode 0x4000#16 = .ok .ctlSetpt ∧ decode 0x4100#16 = .ok .ctlOvr ∧ decode 0x4400#16 = .ok .ctlSleep) ∧
  (∀ s : State, s.seq.ustep = [1] → ∃ t, exec .ctlSetpt s = .next t ∧
    t = State.finished { s with lat := { s.lat with sp := t.lat.sp } } ∧
    (∀ i, i < 6 → t.lat.sp.getLsbD i = !s.env.spN.getLsbD i) ∧
    t.lat.sp.toNat = ((List.range 6).map fun i => if s.env.spN.getLsbD i then 0 else 2 ^ i).sum) ∧
  (∀ s : State, s.seq.ustep = [1] → exec .ctlOvr s =
    .next (State.finished { s with lat := { s.lat with ov := !s.env.ovrN } })) ∧
  (∀ s : State, s.seq.ustep = [1] → exec .ctlSleep s = .next s.finished)

/-- R213 and R214: the hysteresis state machine with its strict and its inclusive comparison over exact integers; the coil is
written and traced on a transition only. -/
def Obligations.HysteresisTransitions : Prop :=
  decode 0x4200#16 = .ok .ctlHyst ∧
  ∀ s : State, s.seq.ustep = [1] →
    (s.coil = false → s.lat.sm.toNat > s.lat.sp.toNat ∨ s.lat.ov = true → exec .ctlHyst s =
      .next (State.finished { s with coil := true, trace := { s.trace with coil := s.trace.coil ++ [true] } })) ∧
    (s.coil = false → ¬ (s.lat.sm.toNat > s.lat.sp.toNat ∨ s.lat.ov = true) → exec .ctlHyst s = .next s.finished) ∧
    (s.coil = true → s.lat.ov = false ∧ (s.lat.sm.toNat : Int) ≤ (s.lat.sp.toNat : Int) - (s.cfg.hyst.val : Int) →
      exec .ctlHyst s =
      .next (State.finished { s with coil := false, trace := { s.trace with coil := s.trace.coil ++ [false] } })) ∧
    (s.coil = true → ¬ (s.lat.ov = false ∧ (s.lat.sm.toNat : Int) ≤ (s.lat.sp.toNat : Int) - (s.cfg.hyst.val : Int)) →
      exec .ctlHyst s = .next s.finished) ∧
    (s.coil = true → s.lat.sp.toNat < s.cfg.hyst.val → exec .ctlHyst s = .next s.finished)

/-- R215: with the override off, the coil goes on only at `SM >= SP + 1`, off only at `SM <= SP - HYST`, and keeps its state
between; with `HYST = 0` there is no dead band; the walk of the source at setpoint 25 and hysteresis 2. -/
def Obligations.DeadBand : Prop :=
  ∀ s t : State, s.lat.ov = false → exec .ctlHyst s = .next t →
    (s.coil = false → (t.coil = true ↔ s.lat.sp.toNat + 1 ≤ s.lat.sm.toNat)) ∧
    (s.coil = true → (t.coil = false ↔ (s.lat.sm.toNat : Int) ≤ (s.lat.sp.toNat : Int) - (s.cfg.hyst.val : Int))) ∧
    ((s.lat.sp.toNat : Int) - (s.cfg.hyst.val : Int) < (s.lat.sm.toNat : Int) → s.lat.sm.toNat ≤ s.lat.sp.toNat →
      t.coil = s.coil) ∧
    (s.cfg.hyst.val = 0 → (t.coil = true ↔ s.lat.sp.toNat < s.lat.sm.toNat)) ∧
    (s.lat.sp.toNat = 25 → s.cfg.hyst.val = 2 →
      (s.lat.sm.toNat = 26 → t.coil = true) ∧ (s.lat.sm.toNat = 25 → t.coil = s.coil) ∧
      (s.lat.sm.toNat = 24 → t.coil = s.coil) ∧ (s.lat.sm.toNat ≤ 23 → t.coil = false))

/-- The micro-steps of `CTL.STATUS` (R216): u1 forms the line, u2 runs the `UART.SEND` of its first byte in place. That the call
costs no micro-step (log 17) and that the line, a temporary (log 6), loses its first byte in the last micro-step of that byte's send
(log 18) are the model's own. -/
def Obligations.StatusMicroSteps : Prop :=
  ∀ s : State,
    (s.seq.ustep = [1] → exec .ctlStatus s = .next (State.goesTo { s with
      tmp := { s.tmp with line := Config.formatStatus s.lat.sp s.lat.raw s.lat.sm s.lat.ov } } [2])) ∧
    (∀ (c : Byte) (rest : List Byte) (p : List Nat), s.tmp.line = c :: rest →
      exec .ctlStatus (s.goesTo (2 :: p)) =
        match exec (.uartSend c) (s.goesTo (if p = [] then [1] else p)) with
        | .next t =>
          if t.seq.pc = s.seq.pc then .next { t with seq := { t.seq with ustep := 2 :: t.seq.ustep } }
          else if rest = [] then .next { t with tmp := { t.tmp with line := [] } }
          else .next { t with tmp := { t.tmp with line := rest }, seq := { pc := s.seq.pc, ustep := [2, 1] } }
        | r => r)

/-- A status line that fits in the transmit ring is queued whole, in order, by a `CTL.STATUS` that never holds (R216), from the
micro-step after the one that forms the line. The one micro-step of an empty line is the model's (log 18). -/
def Obligations.StatusLineIsQueued : Prop :=
  ∀ (s : State) (L : List Byte), DataInv s → s.seq.ustep = [2] → s.ctl.txen = true → s.tmp.line = L →
    s.txQueue.length + L.length ≤ s.cfg.txCap - 1 →
    ∃ t, execTimes (statusSteps L) .ctlStatus s = .next t ∧ t.txQueue = s.txQueue ++ L ∧ t.tx.tail = s.tx.tail ∧
      t = State.finished { s with
        tx := t.tx, ctl := { s.ctl with txie := if L = [] then s.ctl.txie else true }, tmp := t.tmp }

/-- The composite operations run their calls in place, in order, with the same interleaving points (R97, R159, R160, R190, R196, R197,
R218, R219; `CTL.STATUS` is StatusMicroSteps): a micro-step of the caller is the callee's micro-step seen from the caller. That a call
and the bookkeeping of a loop cost no micro-step is the model's reading (log 17); the 3 bits of the counter `i` and the 0 it keeps
after its loop are the model's choice (log 6). -/
def Obligations.CompositeOperationsRunTheirCalls : Prop :=
  ∀ (s : State) (n : Nat) (c : Instr) (p : List Nat),
    ([Instr.ctlSetpt, .tempRead, .tempSmoothr, .ctlOvr, .ctlHyst, .ctlStatus, .ctlSleep][n]? = some c →
      exec .ctlIter (s.goesTo ((n + 1) :: p)) = asCall (n + 1) 7 s (exec c (s.goesTo (if p = [] then [1] else p)))) ∧
    ([Instr.uartInit, .busInit, .tempRead, .tempPreloadr][n]? = some c →
      exec .ctlBoot (s.goesTo ((n + 1) :: p)) = asCall (n + 1) 4 s (exec c (s.goesTo (if p = [] then [1] else p)))) ∧
    ([Instr.busStart, .busWbyte s.cfg.slaveReadAddr, .busRbyte 1#8, .busStop][n]? = some c →
      exec .tempRead (s.goesTo ((n + 1) :: p)) = asCall (n + 1) 5 s (exec c (s.goesTo (if p = [] then [1] else p)))) ∧
    (exec .tempRead (s.goesTo [5]) = .next (State.finished { s with lat := { s.lat with raw := s.lat.res } })) ∧
    (exec .tempSmoothr (s.goesTo (1 :: p)) =
      asCall 1 1 s (exec (.tempSmooth s.lat.raw) (s.goesTo (if p = [] then [1] else p)))) ∧
    (exec .tempPreloadr (s.goesTo (1 :: p)) =
      asCall 1 1 s (exec (.tempPreload s.lat.raw) (s.goesTo (if p = [] then [1] else p)))) ∧
    (∀ v : Byte,
      exec (.busWbyte v) (s.goesTo [1]) = exec (.busWbyte v) (State.goesTo { s with tmp := { s.tmp with i := 7#3 } } [1, 1]) ∧
      (p ≠ [] → exec (.busWbyte v) (s.goesTo (1 :: p)) = asLoopCall 1 id s
        (exec (.busWbit (if v.getLsbD s.tmp.i.toNat then 1#8 else 0#8)) (s.goesTo p))) ∧
      exec (.busWbyte v) (s.goesTo (2 :: p)) = asCall 2 2 s (exec .busRbit (s.goesTo (if p = [] then [1] else p)))) ∧
    (∀ a : Byte,
      exec (.busRbyte a) (s.goesTo [1]) = .next (State.goesTo { s with tmp := { s.tmp with r := 0#8 } } [2]) ∧
      exec (.busRbyte a) (s.goesTo [2]) = exec (.busRbyte a) (State.goesTo { s with tmp := { s.tmp with i := 7#3 } } [2, 1]) ∧
      (p ≠ [] → exec (.busRbyte a) (s.goesTo (2 :: p)) = asLoopCall 2
        (fun t => { t with tmp := { t.tmp with
          r := t.tmp.r &&& ~~~(1#8 <<< t.tmp.i.toNat) ||| (t.lat.res &&& 1#8) <<< t.tmp.i.toNat } }) s
        (exec .busRbit (s.goesTo p))) ∧
      exec (.busRbyte a) (s.goesTo (3 :: p)) = asCall 3 4 s
        (exec (.busWbit (if a = 0#8 then 0#8 else 1#8)) (s.goesTo (if p = [] then [1] else p))) ∧
      exec (.busRbyte a) (s.goesTo [4]) = .next (State.finished { s with lat := { s.lat with res := s.tmp.r } }))

/-- The 127 micro-steps of `CTL.BOOT` (R219) against a slave that holds its level: both rings empty, the transport on, the bus
idle, the window filled with the first reading, and nothing else but temporaries. -/
def Obligations.BootLeavesInitialisedMachine : Prop :=
  ∀ s : State, s.seq.ustep = [1] → ∃ t, execTimes 127 .ctlBoot s = .next t ∧
    t = State.finished { s with
      rx := { s.rx with head := 0#8, tail := 0#8 }
      tx := { s.tx with head := 0#8, tail := 0#8 }
      ctl := { rxen := true, txen := true, rxcie := true, txie := false, baudDiv := s.cfg.baudDiv,
               frame := { dataBits := 8, stopBits := 1, parity := false } }
      ser := { s.ser with rxHw := none }
      bus := { scl := true, sda := true }
      smooth := { s.smooth with buf := t.smooth.buf }
      lat := { s.lat with res := constantByte s.env.sdaSlv, raw := constantByte s.env.sdaSlv }
      trace := { s.trace with
        bus := s.trace.bus ++ [.sdaLow, .sclLow, .delay, .sclRel, .sdaRel, .delay] ++
          readTrace s.cfg.slaveReadAddr s.env.sdaSlv (constantByte s.env.sdaSlv) }
      tmp := t.tmp } ∧
    ∀ k, k < 16 → t.smooth.buf.read .smoothBuf k = constantByte s.env.sdaSlv

/-- One whole `CTL.ITER` (R218) against a slave that holds its level. Its first 127 micro-steps latch the inputs, the reading and
the mean, drive the coil and form the status line, all of the same iteration. The rest, for a line that fits in the transmit ring,
queues the line and is done. The one micro-step of an empty line is the model's (log 18). -/
def Obligations.IterationControlsTheCoil : Prop :=
  (∀ (s : State) (raw sm : Byte) (sp : BitVec 6) (ov : Bool), s.seq.ustep = [1] → raw = constantByte s.env.sdaSlv →
    sm.toNat = meanAfter s raw → sp = ~~~ s.env.spN → ov = !s.env.ovrN →
    ∃ t, execTimes (1 + 119 + 4 + 1 + 1 + 1) .ctlIter s = .next t ∧
      t.lat = { res := sm, sp := sp, raw := raw, sm := sm, ov := ov } ∧
      (t.coil = true ↔ s.coil = false ∧ (sm.toNat > sp.toNat ∨ ov = true) ∨
        s.coil = true ∧ ¬ (ov = false ∧ (sm.toNat : Int) ≤ (sp.toNat : Int) - (s.cfg.hyst.val : Int))) ∧
      t.trace.coil = s.trace.coil ++ (if t.coil = s.coil then [] else [t.coil]) ∧
      t.trace.bus = s.trace.bus ++ readTrace s.cfg.slaveReadAddr s.env.sdaSlv raw ∧ t.bus = { scl := true, sda := true } ∧
      t.smooth.cur = s.smooth.cur + 1#4 ∧ (∀ k, t.smooth.buf.read .smoothBuf k = windowAfter s raw k) ∧
      t.tmp.line = Config.formatStatus sp raw sm ov ∧
      t = State.goesTo { s with
        lat := t.lat, coil := t.coil, trace := t.trace, bus := t.bus, smooth := t.smooth, tmp := t.tmp } [6, 2]) ∧
  (∀ (s : State) (L : List Byte), DataInv s → s.seq.ustep = [6, 2] → s.ctl.txen = true → s.tmp.line = L →
    s.txQueue.length + L.length ≤ s.cfg.txCap - 1 →
    ∃ t, execTimes (statusSteps L + 1) .ctlIter s = .next t ∧ t.txQueue = s.txQueue ++ L ∧ t.tx.tail = s.tx.tail ∧
      t = State.finished { s with
        tx := t.tx, ctl := { s.ctl with txie := if L = [] then s.ctl.txie else true }, tmp := t.tmp })

/-! ## The whole machine -/

/-- Frames over memory (R61; the slots are those of R114, R117, R191, R192): each micro-step that stores leaves every byte outside the slot it computes, and `TEMP.PRELOAD` every slot
from 16 on; no other micro-step of a simple operation touches a memory. -/
def Obligations.StoresTouchOneSlot : Prop :=
  ∀ s t : State,
    (∀ b, exec (.uartSend b) s = .next t →
      (s.seq.ustep = [3] → ∀ a, a ≠ s.tmp.h1.toNat → t.tx.buf.read .txBuf a = s.tx.buf.read .txBuf a) ∧
      (s.seq.ustep ≠ [3] → t.tx.buf = s.tx.buf) ∧ t.rx = s.rx ∧ t.smooth = s.smooth) ∧
    (∀ d, exec (.evtRxc d) s = .next t →
      (∀ a, a ≠ (maskedNext s.cfg.rxCap s.rx.head).toNat → t.rx.buf.read .rxBuf a = s.rx.buf.read .rxBuf a) ∧
      t.tx = s.tx ∧ t.smooth = s.smooth) ∧
    (∀ x, exec (.tempSmooth x) s = .next t →
      (s.seq.ustep = [1] → ∀ a, a ≠ s.smooth.cur.toNat → t.smooth.buf.read .smoothBuf a = s.smooth.buf.read .smoothBuf a) ∧
      (s.seq.ustep ≠ [1] → t.smooth.buf = s.smooth.buf) ∧ t.rx = s.rx ∧ t.tx = s.tx) ∧
    (∀ x, exec (.tempPreload x) s = .next t →
      (∀ a, 16 ≤ a → t.smooth.buf.read .smoothBuf a = s.smooth.buf.read .smoothBuf a) ∧ t.rx = s.rx ∧ t.tx = s.tx) ∧
    (∀ i : Instr, (∀ b, i ≠ .uartSend b) → (∀ d, i ≠ .evtRxc d) → (∀ x, i ≠ .tempSmooth x) → (∀ x, i ≠ .tempPreload x) →
      i ≠ .tempSmoothr → i ≠ .tempPreloadr → i ≠ .ctlStatus → i ≠ .ctlIter → i ≠ .ctlBoot → exec i s = .next t →
      t.rx.buf = s.rx.buf ∧ t.tx.buf = s.tx.buf ∧ t.smooth.buf = s.smooth.buf)

/-- Every foreground operation but the transport's completes a micro-step from every position of it, in every state, and
stands then at a position of it or is done (R161, R240: none explicitly fails). `SEQ.END` is among them: it has no further step
(R224), and that choosing it answers the same state is the model's choice (log 13). -/
def Obligations.OperationsNeverFail : Prop :=
  ∀ (i : Instr) (s : State), i.isEvent = false → (∀ b, i ≠ .uartSend b) → i ≠ .uartAvail → i ≠ .uartRecv → i ≠ .ctlStatus →
    i ≠ .ctlIter → legalPos i s.seq.ustep = true →
    ∃ t, exec i s = .next t ∧ (t.seq.pc = s.seq.pc ∧ legalPos i t.seq.ustep = true ∨ t.seq.ustep = [1])

/-- The transport's operations, `CTL.STATUS` and `CTL.ITER` complete a micro-step, which may be a hold, from every position of
them once `UART.INIT` has enabled the transmitter and the receiver (R127, R240). -/
def Obligations.TransportOperationsNeverFailAfterInit : Prop :=
  ∀ (i : Instr) (s : State), (∃ b, i = .uartSend b) ∨ i = .uartAvail ∨ i = .uartRecv ∨ i = .ctlStatus ∨ i = .ctlIter →
    s.ctl.txen = true → s.ctl.rxen = true → legalPos i s.seq.ustep = true →
    ∃ t, exec i s = .next t ∧ (t.seq.pc = s.seq.pc ∧ legalPos i t.seq.ustep = true ∨ t.seq.ustep = [1])

/-- `ustep` is a position of the running command after every step, of depth at most 4 (R32), so that the model's fault
strayMicroStep is never answered (log 16). -/
def Obligations.PositionStaysLegal : Prop :=
  ∀ s : State, PosLegal s → s.seq.ustep.length ≤ 4 ∧ step s ≠ .fault .strayMicroStep ∧
    ∀ t, step s = .next t → PosLegal t

/-- The reset values R40 gives, for every choice of parameters and command list; each index is below its capacity. -/
def Obligations.ResetValues : Prop :=
  ∀ (cfg : Config) (prog : List CmdWord) (s : State), s = State.resetWith cfg prog →
    (s.rx.head.toNat < cfg.rxCap ∧ s.rx.tail.toNat < cfg.rxCap ∧ s.tx.head.toNat < cfg.txCap ∧ s.tx.tail.toNat < cfg.txCap) ∧
    (s.ctl.rxen = false ∧ s.ctl.txen = false ∧ s.ctl.rxcie = false ∧ s.ctl.txie = false) ∧
    s.ser = { rxHw := none, txHwReady := true } ∧ s.bus = { scl := true, sda := true } ∧ s.smooth.cur = 0#4 ∧
    s.coil = false ∧ s.coilPin = false ∧ s.tick = { ms := 0#16, sec := 0#32 } ∧ s.seq = { pc := 0#8, ustep := [1] } ∧
    s.trace = { txWire := [], bus := [], coil := [] } ∧
    (∀ i, i.isEvent = true → eventEnabled i s = true → i = .evtTick)

/-- The state after reset meets every invariant, for every choice of parameters and command list. The indices are 0 there by the
model's choice (log 4; R40 leaves them unspecified), on which the three statements about queued bytes rest, and so are the
temporaries (log 6), on which the bounds of `h1` and `t1` rest. -/
def Obligations.ResetMeetsTheInvariants : Prop :=
  ∀ (cfg : Config) (prog : List CmdWord) (s : State), s = State.resetWith cfg prog →
    DataInv s ∧ SendInv s ∧ NoStrandedByte s ∧ TxQueuedWritten s ∧ RxQueuedWritten s ∧ TraceInv s ∧ PosLegal s

/-- Under the three fairness assumptions of R287 every `UART.SEND` and every `CTL.ITER` completes. From any instant of a fair run at
which the foreground is in a send, alone or inside `CTL.STATUS` or `CTL.ITER`, that same send later takes its last micro-step; and
from any instant at which it is in `UART.SEND`, `CTL.STATUS` or `CTL.ITER`, `pc` later moves to the next command. The runs and the
form of the assumptions are the model's (log 9, log 26). -/
def Obligations.SendCompletesUnderFairness : Prop :=
  ∀ (who : Nat → SchedItem) (r : Nat → State) (n : Nat), IsRun who r → EvtFair who r → TxFair who r → FgFair who r →
    DataInv (r n) → SendInv (r n) → NoStrandedByte (r n) → PosLegal (r n) → (r n).ctl.txen = true →
    (∀ b k, sendAt (r n) = some (b, k) → ∃ m, n ≤ m ∧ who m = .fg ∧ sendAt (r m) = some (b, 5) ∧
      (∀ j, n ≤ j → j ≤ m → (∃ k', sendAt (r j) = some (b, k')) ∧ (r j).seq.pc = (r n).seq.pc ∧
        (r j).tmp.line = (r n).tmp.line) ∧
      (r (m + 1)).ctl.txie = true) ∧
    (∀ i, (∃ b, i = .uartSend b) ∨ i = .ctlStatus ∨ i = .ctlIter → fgCommand (r n) = some i →
      ∃ m, n < m ∧ (r m).seq = { pc := (r n).seq.pc + 1#8, ustep := [1] })

/-- At the end of a run under `TxFair` the transmit ring is empty and `TXIE` is 0 (R225). -/
def Obligations.EndOfRunIsDrained : Prop :=
  ∀ s : State, NoStrandedByte s → runOver true s → s.tx.head = s.tx.tail ∧ s.ctl.txie = false
end

