-- ==== Sys2Proof/Laws/State.lean ====
section
/-! SUPPORT. One lemma per field of State for each operation that writes one part of it, true by rfl. -/

namespace Sys2Proof.Machine

variable (s : State)

@[simp] theorem State.setRx_cfg (x : Ring) : (s.setRx x).cfg = s.cfg := rfl
@[simp] theorem State.setRx_prog (x : Ring) : (s.setRx x).prog = s.prog := rfl
@[simp] theorem State.setRx_rx (x : Ring) : (s.setRx x).rx = x := rfl
@[simp] theorem State.setRx_tx (x : Ring) : (s.setRx x).tx = s.tx := rfl
@[simp] theorem State.setRx_ctl (x : Ring) : (s.setRx x).ctl = s.ctl := rfl
@[simp] theorem State.setRx_ser (x : Ring) : (s.setRx x).ser = s.ser := rfl
@[simp] theorem State.setRx_bus (x : Ring) : (s.setRx x).bus = s.bus := rfl
@[simp] theorem State.setRx_smooth (x : Ring) : (s.setRx x).smooth = s.smooth := rfl
@[simp] theorem State.setRx_lat (x : Ring) : (s.setRx x).lat = s.lat := rfl
@[simp] theorem State.setRx_coil (x : Ring) : (s.setRx x).coil = s.coil := rfl
@[simp] theorem State.setRx_tick (x : Ring) : (s.setRx x).tick = s.tick := rfl
@[simp] theorem State.setRx_seq (x : Ring) : (s.setRx x).seq = s.seq := rfl
@[simp] theorem State.setRx_tmp (x : Ring) : (s.setRx x).tmp = s.tmp := rfl
@[simp] theorem State.setRx_env (x : Ring) : (s.setRx x).env = s.env := rfl
@[simp] theorem State.setRx_trace (x : Ring) : (s.setRx x).trace = s.trace := rfl
@[simp] theorem State.setRx_sched (x : Ring) : (s.setRx x).sched = s.sched := rfl

@[simp] theorem State.setTx_cfg (x : Ring) : (s.setTx x).cfg = s.cfg := rfl
@[simp] theorem State.setTx_prog (x : Ring) : (s.setTx x).prog = s.prog := rfl
@[simp] theorem State.setTx_rx (x : Ring) : (s.setTx x).rx = s.rx := rfl
@[simp] theorem State.setTx_tx (x : Ring) : (s.setTx x).tx = x := rfl
@[simp] theorem State.setTx_ctl (x : Ring) : (s.setTx x).ctl = s.ctl := rfl
@[simp] theorem State.setTx_ser (x : Ring) : (s.setTx x).ser = s.ser := rfl
@[simp] theorem State.setTx_bus (x : Ring) : (s.setTx x).bus = s.bus := rfl
@[simp] theorem State.setTx_smooth (x : Ring) : (s.setTx x).smooth = s.smooth := rfl
@[simp] theorem State.setTx_lat (x : Ring) : (s.setTx x).lat = s.lat := rfl
@[simp] theorem State.setTx_coil (x : Ring) : (s.setTx x).coil = s.coil := rfl
@[simp] theorem State.setTx_tick (x : Ring) : (s.setTx x).tick = s.tick := rfl
@[simp] theorem State.setTx_seq (x : Ring) : (s.setTx x).seq = s.seq := rfl
@[simp] theorem State.setTx_tmp (x : Ring) : (s.setTx x).tmp = s.tmp := rfl
@[simp] theorem State.setTx_env (x : Ring) : (s.setTx x).env = s.env := rfl
@[simp] theorem State.setTx_trace (x : Ring) : (s.setTx x).trace = s.trace := rfl
@[simp] theorem State.setTx_sched (x : Ring) : (s.setTx x).sched = s.sched := rfl

@[simp] theorem State.setCtl_cfg (x : SerialCtl) : (s.setCtl x).cfg = s.cfg := rfl
@[simp] theorem State.setCtl_prog (x : SerialCtl) : (s.setCtl x).prog = s.prog := rfl
@[simp] theorem State.setCtl_rx (x : SerialCtl) : (s.setCtl x).rx = s.rx := rfl
@[simp] theorem State.setCtl_tx (x : SerialCtl) : (s.setCtl x).tx = s.tx := rfl
@[simp] theorem State.setCtl_ctl (x : SerialCtl) : (s.setCtl x).ctl = x := rfl
@[simp] theorem State.setCtl_ser (x : SerialCtl) : (s.setCtl x).ser = s.ser := rfl
@[simp] theorem State.setCtl_bus (x : SerialCtl) : (s.setCtl x).bus = s.bus := rfl
@[simp] theorem State.setCtl_smooth (x : SerialCtl) : (s.setCtl x).smooth = s.smooth := rfl
@[simp] theorem State.setCtl_lat (x : SerialCtl) : (s.setCtl x).lat = s.lat := rfl
@[simp] theorem State.setCtl_coil (x : SerialCtl) : (s.setCtl x).coil = s.coil := rfl
@[simp] theorem State.setCtl_tick (x : SerialCtl) : (s.setCtl x).tick = s.tick := rfl
@[simp] theorem State.setCtl_seq (x : SerialCtl) : (s.setCtl x).seq = s.seq := rfl
@[simp] theorem State.setCtl_tmp (x : SerialCtl) : (s.setCtl x).tmp = s.tmp := rfl
@[simp] theorem State.setCtl_env (x : SerialCtl) : (s.setCtl x).env = s.env := rfl
@[simp] theorem State.setCtl_trace (x : SerialCtl) : (s.setCtl x).trace = s.trace := rfl
@[simp] theorem State.setCtl_sched (x : SerialCtl) : (s.setCtl x).sched = s.sched := rfl

@[simp] theorem State.setSer_cfg (x : SerialHw) : (s.setSer x).cfg = s.cfg := rfl
@[simp] theorem State.setSer_prog (x : SerialHw) : (s.setSer x).prog = s.prog := rfl
@[simp] theorem State.setSer_rx (x : SerialHw) : (s.setSer x).rx = s.rx := rfl
@[simp] theorem State.setSer_tx (x : SerialHw) : (s.setSer x).tx = s.tx := rfl
@[simp] theorem State.setSer_ctl (x : SerialHw) : (s.setSer x).ctl = s.ctl := rfl
@[simp] theorem State.setSer_ser (x : SerialHw) : (s.setSer x).ser = x := rfl
@[simp] theorem State.setSer_bus (x : SerialHw) : (s.setSer x).bus = s.bus := rfl
@[simp] theorem State.setSer_smooth (x : SerialHw) : (s.setSer x).smooth = s.smooth := rfl
@[simp] theorem State.setSer_lat (x : SerialHw) : (s.setSer x).lat = s.lat := rfl
@[simp] theorem State.setSer_coil (x : SerialHw) : (s.setSer x).coil = s.coil := rfl
@[simp] theorem State.setSer_tick (x : SerialHw) : (s.setSer x).tick = s.tick := rfl
@[simp] theorem State.setSer_seq (x : SerialHw) : (s.setSer x).seq = s.seq := rfl
@[simp] theorem State.setSer_tmp (x : SerialHw) : (s.setSer x).tmp = s.tmp := rfl
@[simp] theorem State.setSer_env (x : SerialHw) : (s.setSer x).env = s.env := rfl
@[simp] theorem State.setSer_trace (x : SerialHw) : (s.setSer x).trace = s.trace := rfl
@[simp] theorem State.setSer_sched (x : SerialHw) : (s.setSer x).sched = s.sched := rfl

@[simp] theorem State.setBus_cfg (x : BusDrive) : (s.setBus x).cfg = s.cfg := rfl
@[simp] theorem State.setBus_prog (x : BusDrive) : (s.setBus x).prog = s.prog := rfl
@[simp] theorem State.setBus_rx (x : BusDrive) : (s.setBus x).rx = s.rx := rfl
@[simp] theorem State.setBus_tx (x : BusDrive) : (s.setBus x).tx = s.tx := rfl
@[simp] theorem State.setBus_ctl (x : BusDrive) : (s.setBus x).ctl = s.ctl := rfl
@[simp] theorem State.setBus_ser (x : BusDrive) : (s.setBus x).ser = s.ser := rfl
@[simp] theorem State.setBus_bus (x : BusDrive) : (s.setBus x).bus = x := rfl
@[simp] theorem State.setBus_smooth (x : BusDrive) : (s.setBus x).smooth = s.smooth := rfl
@[simp] theorem State.setBus_lat (x : BusDrive) : (s.setBus x).lat = s.lat := rfl
@[simp] theorem State.setBus_coil (x : BusDrive) : (s.setBus x).coil = s.coil := rfl
@[simp] theorem State.setBus_tick (x : BusDrive) : (s.setBus x).tick = s.tick := rfl
@[simp] theorem State.setBus_seq (x : BusDrive) : (s.setBus x).seq = s.seq := rfl
@[simp] theorem State.setBus_tmp (x : BusDrive) : (s.setBus x).tmp = s.tmp := rfl
@[simp] theorem State.setBus_env (x : BusDrive) : (s.setBus x).env = s.env := rfl
@[simp] theorem State.setBus_trace (x : BusDrive) : (s.setBus x).trace = s.trace := rfl
@[simp] theorem State.setBus_sched (x : BusDrive) : (s.setBus x).sched = s.sched := rfl

@[simp] theorem State.setSmooth_cfg (x : Smoothing) : (s.setSmooth x).cfg = s.cfg := rfl
@[simp] theorem State.setSmooth_prog (x : Smoothing) : (s.setSmooth x).prog = s.prog := rfl
@[simp] theorem State.setSmooth_rx (x : Smoothing) : (s.setSmooth x).rx = s.rx := rfl
@[simp] theorem State.setSmooth_tx (x : Smoothing) : (s.setSmooth x).tx = s.tx := rfl
@[simp] theorem State.setSmooth_ctl (x : Smoothing) : (s.setSmooth x).ctl = s.ctl := rfl
@[simp] theorem State.setSmooth_ser (x : Smoothing) : (s.setSmooth x).ser = s.ser := rfl
@[simp] theorem State.setSmooth_bus (x : Smoothing) : (s.setSmooth x).bus = s.bus := rfl
@[simp] theorem State.setSmooth_smooth (x : Smoothing) : (s.setSmooth x).smooth = x := rfl
@[simp] theorem State.setSmooth_lat (x : Smoothing) : (s.setSmooth x).lat = s.lat := rfl
@[simp] theorem State.setSmooth_coil (x : Smoothing) : (s.setSmooth x).coil = s.coil := rfl
@[simp] theorem State.setSmooth_tick (x : Smoothing) : (s.setSmooth x).tick = s.tick := rfl
@[simp] theorem State.setSmooth_seq (x : Smoothing) : (s.setSmooth x).seq = s.seq := rfl
@[simp] theorem State.setSmooth_tmp (x : Smoothing) : (s.setSmooth x).tmp = s.tmp := rfl
@[simp] theorem State.setSmooth_env (x : Smoothing) : (s.setSmooth x).env = s.env := rfl
@[simp] theorem State.setSmooth_trace (x : Smoothing) : (s.setSmooth x).trace = s.trace := rfl
@[simp] theorem State.setSmooth_sched (x : Smoothing) : (s.setSmooth x).sched = s.sched := rfl

@[simp] theorem State.setLat_cfg (x : Latches) : (s.setLat x).cfg = s.cfg := rfl
@[simp] theorem State.setLat_prog (x : Latches) : (s.setLat x).prog = s.prog := rfl
@[simp] theorem State.setLat_rx (x : Latches) : (s.setLat x).rx = s.rx := rfl
@[simp] theorem State.setLat_tx (x : Latches) : (s.setLat x).tx = s.tx := rfl
@[simp] theorem State.setLat_ctl (x : Latches) : (s.setLat x).ctl = s.ctl := rfl
@[simp] theorem State.setLat_ser (x : Latches) : (s.setLat x).ser = s.ser := rfl
@[simp] theorem State.setLat_bus (x : Latches) : (s.setLat x).bus = s.bus := rfl
@[simp] theorem State.setLat_smooth (x : Latches) : (s.setLat x).smooth = s.smooth := rfl
@[simp] theorem State.setLat_lat (x : Latches) : (s.setLat x).lat = x := rfl
@[simp] theorem State.setLat_coil (x : Latches) : (s.setLat x).coil = s.coil := rfl
@[simp] theorem State.setLat_tick (x : Latches) : (s.setLat x).tick = s.tick := rfl
@[simp] theorem State.setLat_seq (x : Latches) : (s.setLat x).seq = s.seq := rfl
@[simp] theorem State.setLat_tmp (x : Latches) : (s.setLat x).tmp = s.tmp := rfl
@[simp] theorem State.setLat_env (x : Latches) : (s.setLat x).env = s.env := rfl
@[simp] theorem State.setLat_trace (x : Latches) : (s.setLat x).trace = s.trace := rfl
@[simp] theorem State.setLat_sched (x : Latches) : (s.setLat x).sched = s.sched := rfl

@[simp] theorem State.setCoil_cfg (x : Bool) : (s.setCoil x).cfg = s.cfg := rfl
@[simp] theorem State.setCoil_prog (x : Bool) : (s.setCoil x).prog = s.prog := rfl
@[simp] theorem State.setCoil_rx (x : Bool) : (s.setCoil x).rx = s.rx := rfl
@[simp] theorem State.setCoil_tx (x : Bool) : (s.setCoil x).tx = s.tx := rfl
@[simp] theorem State.setCoil_ctl (x : Bool) : (s.setCoil x).ctl = s.ctl := rfl
@[simp] theorem State.setCoil_ser (x : Bool) : (s.setCoil x).ser = s.ser := rfl
@[simp] theorem State.setCoil_bus (x : Bool) : (s.setCoil x).bus = s.bus := rfl
@[simp] theorem State.setCoil_smooth (x : Bool) : (s.setCoil x).smooth = s.smooth := rfl
@[simp] theorem State.setCoil_lat (x : Bool) : (s.setCoil x).lat = s.lat := rfl
@[simp] theorem State.setCoil_coil (x : Bool) : (s.setCoil x).coil = x := rfl
@[simp] theorem State.setCoil_tick (x : Bool) : (s.setCoil x).tick = s.tick := rfl
@[simp] theorem State.setCoil_seq (x : Bool) : (s.setCoil x).seq = s.seq := rfl
@[simp] theorem State.setCoil_tmp (x : Bool) : (s.setCoil x).tmp = s.tmp := rfl
@[simp] theorem State.setCoil_env (x : Bool) : (s.setCoil x).env = s.env := rfl
@[simp] theorem State.setCoil_trace (x : Bool) : (s.setCoil x).trace = s.trace := rfl
@[simp] theorem State.setCoil_sched (x : Bool) : (s.setCoil x).sched = s.sched := rfl

@[simp] theorem State.setTick_cfg (x : Tick) : (s.setTick x).cfg = s.cfg := rfl
@[simp] theorem State.setTick_prog (x : Tick) : (s.setTick x).prog = s.prog := rfl
@[simp] theorem State.setTick_rx (x : Tick) : (s.setTick x).rx = s.rx := rfl
@[simp] theorem State.setTick_tx (x : Tick) : (s.setTick x).tx = s.tx := rfl
@[simp] theorem State.setTick_ctl (x : Tick) : (s.setTick x).ctl = s.ctl := rfl
@[simp] theorem State.setTick_ser (x : Tick) : (s.setTick x).ser = s.ser := rfl
@[simp] theorem State.setTick_bus (x : Tick) : (s.setTick x).bus = s.bus := rfl
@[simp] theorem State.setTick_smooth (x : Tick) : (s.setTick x).smooth = s.smooth := rfl
@[simp] theorem State.setTick_lat (x : Tick) : (s.setTick x).lat = s.lat := rfl
@[simp] theorem State.setTick_coil (x : Tick) : (s.setTick x).coil = s.coil := rfl
@[simp] theorem State.setTick_tick (x : Tick) : (s.setTick x).tick = x := rfl
@[simp] theorem State.setTick_seq (x : Tick) : (s.setTick x).seq = s.seq := rfl
@[simp] theorem State.setTick_tmp (x : Tick) : (s.setTick x).tmp = s.tmp := rfl
@[simp] theorem State.setTick_env (x : Tick) : (s.setTick x).env = s.env := rfl
@[simp] theorem State.setTick_trace (x : Tick) : (s.setTick x).trace = s.trace := rfl
@[simp] theorem State.setTick_sched (x : Tick) : (s.setTick x).sched = s.sched := rfl

@[simp] theorem State.setSeq_cfg (x : Sequencer) : (s.setSeq x).cfg = s.cfg := rfl
@[simp] theorem State.setSeq_prog (x : Sequencer) : (s.setSeq x).prog = s.prog := rfl
@[simp] theorem State.setSeq_rx (x : Sequencer) : (s.setSeq x).rx = s.rx := rfl
@[simp] theorem State.setSeq_tx (x : Sequencer) : (s.setSeq x).tx = s.tx := rfl
@[simp] theorem State.setSeq_ctl (x : Sequencer) : (s.setSeq x).ctl = s.ctl := rfl
@[simp] theorem State.setSeq_ser (x : Sequencer) : (s.setSeq x).ser = s.ser := rfl
@[simp] theorem State.setSeq_bus (x : Sequencer) : (s.setSeq x).bus = s.bus := rfl
@[simp] theorem State.setSeq_smooth (x : Sequencer) : (s.setSeq x).smooth = s.smooth := rfl
@[simp] theorem State.setSeq_lat (x : Sequencer) : (s.setSeq x).lat = s.lat := rfl
@[simp] theorem State.setSeq_coil (x : Sequencer) : (s.setSeq x).coil = s.coil := rfl
@[simp] theorem State.setSeq_tick (x : Sequencer) : (s.setSeq x).tick = s.tick := rfl
@[simp] theorem State.setSeq_seq (x : Sequencer) : (s.setSeq x).seq = x := rfl
@[simp] theorem State.setSeq_tmp (x : Sequencer) : (s.setSeq x).tmp = s.tmp := rfl
@[simp] theorem State.setSeq_env (x : Sequencer) : (s.setSeq x).env = s.env := rfl
@[simp] theorem State.setSeq_trace (x : Sequencer) : (s.setSeq x).trace = s.trace := rfl
@[simp] theorem State.setSeq_sched (x : Sequencer) : (s.setSeq x).sched = s.sched := rfl

@[simp] theorem State.setTmp_cfg (x : Temps) : (s.setTmp x).cfg = s.cfg := rfl
@[simp] theorem State.setTmp_prog (x : Temps) : (s.setTmp x).prog = s.prog := rfl
@[simp] theorem State.setTmp_rx (x : Temps) : (s.setTmp x).rx = s.rx := rfl
@[simp] theorem State.setTmp_tx (x : Temps) : (s.setTmp x).tx = s.tx := rfl
@[simp] theorem State.setTmp_ctl (x : Temps) : (s.setTmp x).ctl = s.ctl := rfl
@[simp] theorem State.setTmp_ser (x : Temps) : (s.setTmp x).ser = s.ser := rfl
@[simp] theorem State.setTmp_bus (x : Temps) : (s.setTmp x).bus = s.bus := rfl
@[simp] theorem State.setTmp_smooth (x : Temps) : (s.setTmp x).smooth = s.smooth := rfl
@[simp] theorem State.setTmp_lat (x : Temps) : (s.setTmp x).lat = s.lat := rfl
@[simp] theorem State.setTmp_coil (x : Temps) : (s.setTmp x).coil = s.coil := rfl
@[simp] theorem State.setTmp_tick (x : Temps) : (s.setTmp x).tick = s.tick := rfl
@[simp] theorem State.setTmp_seq (x : Temps) : (s.setTmp x).seq = s.seq := rfl
@[simp] theorem State.setTmp_tmp (x : Temps) : (s.setTmp x).tmp = x := rfl
@[simp] theorem State.setTmp_env (x : Temps) : (s.setTmp x).env = s.env := rfl
@[simp] theorem State.setTmp_trace (x : Temps) : (s.setTmp x).trace = s.trace := rfl
@[simp] theorem State.setTmp_sched (x : Temps) : (s.setTmp x).sched = s.sched := rfl

@[simp] theorem State.setEnv_cfg (x : Env) : (s.setEnv x).cfg = s.cfg := rfl
@[simp] theorem State.setEnv_prog (x : Env) : (s.setEnv x).prog = s.prog := rfl
@[simp] theorem State.setEnv_rx (x : Env) : (s.setEnv x).rx = s.rx := rfl
@[simp] theorem State.setEnv_tx (x : Env) : (s.setEnv x).tx = s.tx := rfl
@[simp] theorem State.setEnv_ctl (x : Env) : (s.setEnv x).ctl = s.ctl := rfl
@[simp] theorem State.setEnv_ser (x : Env) : (s.setEnv x).ser = s.ser := rfl
@[simp] theorem State.setEnv_bus (x : Env) : (s.setEnv x).bus = s.bus := rfl
@[simp] theorem State.setEnv_smooth (x : Env) : (s.setEnv x).smooth = s.smooth := rfl
@[simp] theorem State.setEnv_lat (x : Env) : (s.setEnv x).lat = s.lat := rfl
@[simp] theorem State.setEnv_coil (x : Env) : (s.setEnv x).coil = s.coil := rfl
@[simp] theorem State.setEnv_tick (x : Env) : (s.setEnv x).tick = s.tick := rfl
@[simp] theorem State.setEnv_seq (x : Env) : (s.setEnv x).seq = s.seq := rfl
@[simp] theorem State.setEnv_tmp (x : Env) : (s.setEnv x).tmp = s.tmp := rfl
@[simp] theorem State.setEnv_env (x : Env) : (s.setEnv x).env = x := rfl
@[simp] theorem State.setEnv_trace (x : Env) : (s.setEnv x).trace = s.trace := rfl
@[simp] theorem State.setEnv_sched (x : Env) : (s.setEnv x).sched = s.sched := rfl

@[simp] theorem State.setTrace_cfg (x : Traces) : (s.setTrace x).cfg = s.cfg := rfl
@[simp] theorem State.setTrace_prog (x : Traces) : (s.setTrace x).prog = s.prog := rfl
@[simp] theorem State.setTrace_rx (x : Traces) : (s.setTrace x).rx = s.rx := rfl
@[simp] theorem State.setTrace_tx (x : Traces) : (s.setTrace x).tx = s.tx := rfl
@[simp] theorem State.setTrace_ctl (x : Traces) : (s.setTrace x).ctl = s.ctl := rfl
@[simp] theorem State.setTrace_ser (x : Traces) : (s.setTrace x).ser = s.ser := rfl
@[simp] theorem State.setTrace_bus (x : Traces) : (s.setTrace x).bus = s.bus := rfl
@[simp] theorem State.setTrace_smooth (x : Traces) : (s.setTrace x).smooth = s.smooth := rfl
@[simp] theorem State.setTrace_lat (x : Traces) : (s.setTrace x).lat = s.lat := rfl
@[simp] theorem State.setTrace_coil (x : Traces) : (s.setTrace x).coil = s.coil := rfl
@[simp] theorem State.setTrace_tick (x : Traces) : (s.setTrace x).tick = s.tick := rfl
@[simp] theorem State.setTrace_seq (x : Traces) : (s.setTrace x).seq = s.seq := rfl
@[simp] theorem State.setTrace_tmp (x : Traces) : (s.setTrace x).tmp = s.tmp := rfl
@[simp] theorem State.setTrace_env (x : Traces) : (s.setTrace x).env = s.env := rfl
@[simp] theorem State.setTrace_trace (x : Traces) : (s.setTrace x).trace = x := rfl
@[simp] theorem State.setTrace_sched (x : Traces) : (s.setTrace x).sched = s.sched := rfl

@[simp] theorem State.setSched_cfg (x : List SchedItem) : (s.setSched x).cfg = s.cfg := rfl
@[simp] theorem State.setSched_prog (x : List SchedItem) : (s.setSched x).prog = s.prog := rfl
@[simp] theorem State.setSched_rx (x : List SchedItem) : (s.setSched x).rx = s.rx := rfl
@[simp] theorem State.setSched_tx (x : List SchedItem) : (s.setSched x).tx = s.tx := rfl
@[simp] theorem State.setSched_ctl (x : List SchedItem) : (s.setSched x).ctl = s.ctl := rfl
@[simp] theorem State.setSched_ser (x : List SchedItem) : (s.setSched x).ser = s.ser := rfl
@[simp] theorem State.setSched_bus (x : List SchedItem) : (s.setSched x).bus = s.bus := rfl
@[simp] theorem State.setSched_smooth (x : List SchedItem) : (s.setSched x).smooth = s.smooth := rfl
@[simp] theorem State.setSched_lat (x : List SchedItem) : (s.setSched x).lat = s.lat := rfl
@[simp] theorem State.setSched_coil (x : List SchedItem) : (s.setSched x).coil = s.coil := rfl
@[simp] theorem State.setSched_tick (x : List SchedItem) : (s.setSched x).tick = s.tick := rfl
@[simp] theorem State.setSched_seq (x : List SchedItem) : (s.setSched x).seq = s.seq := rfl
@[simp] theorem State.setSched_tmp (x : List SchedItem) : (s.setSched x).tmp = s.tmp := rfl
@[simp] theorem State.setSched_env (x : List SchedItem) : (s.setSched x).env = s.env := rfl
@[simp] theorem State.setSched_trace (x : List SchedItem) : (s.setSched x).trace = s.trace := rfl
@[simp] theorem State.setSched_sched (x : List SchedItem) : (s.setSched x).sched = x := rfl

@[simp] theorem State.setProg_cfg (x : List CmdWord) : (s.setProg x).cfg = s.cfg := rfl
@[simp] theorem State.setProg_prog (x : List CmdWord) : (s.setProg x).prog = x := rfl
@[simp] theorem State.setProg_rx (x : List CmdWord) : (s.setProg x).rx = s.rx := rfl
@[simp] theorem State.setProg_tx (x : List CmdWord) : (s.setProg x).tx = s.tx := rfl
@[simp] theorem State.setProg_ctl (x : List CmdWord) : (s.setProg x).ctl = s.ctl := rfl
@[simp] theorem State.setProg_ser (x : List CmdWord) : (s.setProg x).ser = s.ser := rfl
@[simp] theorem State.setProg_bus (x : List CmdWord) : (s.setProg x).bus = s.bus := rfl
@[simp] theorem State.setProg_smooth (x : List CmdWord) : (s.setProg x).smooth = s.smooth := rfl
@[simp] theorem State.setProg_lat (x : List CmdWord) : (s.setProg x).lat = s.lat := rfl
@[simp] theorem State.setProg_coil (x : List CmdWord) : (s.setProg x).coil = s.coil := rfl
@[simp] theorem State.setProg_tick (x : List CmdWord) : (s.setProg x).tick = s.tick := rfl
@[simp] theorem State.setProg_seq (x : List CmdWord) : (s.setProg x).seq = s.seq := rfl
@[simp] theorem State.setProg_tmp (x : List CmdWord) : (s.setProg x).tmp = s.tmp := rfl
@[simp] theorem State.setProg_env (x : List CmdWord) : (s.setProg x).env = s.env := rfl
@[simp] theorem State.setProg_trace (x : List CmdWord) : (s.setProg x).trace = s.trace := rfl
@[simp] theorem State.setProg_sched (x : List CmdWord) : (s.setProg x).sched = s.sched := rfl

@[simp] theorem State.goesTo_cfg (p : List Nat) : (s.goesTo p).cfg = s.cfg := rfl
@[simp] theorem State.finished_cfg : s.finished.cfg = s.cfg := rfl
@[simp] theorem State.goesTo_prog (p : List Nat) : (s.goesTo p).prog = s.prog := rfl
@[simp] theorem State.finished_prog : s.finished.prog = s.prog := rfl
@[simp] theorem State.goesTo_rx (p : List Nat) : (s.goesTo p).rx = s.rx := rfl
@[simp] theorem State.finished_rx : s.finished.rx = s.rx := rfl
@[simp] theorem State.goesTo_tx (p : List Nat) : (s.goesTo p).tx = s.tx := rfl
@[simp] theorem State.finished_tx : s.finished.tx = s.tx := rfl
@[simp] theorem State.goesTo_ctl (p : List Nat) : (s.goesTo p).ctl = s.ctl := rfl
@[simp] theorem State.finished_ctl : s.finished.ctl = s.ctl := rfl
@[simp] theorem State.goesTo_ser (p : List Nat) : (s.goesTo p).ser = s.ser := rfl
@[simp] theorem State.finished_ser : s.finished.ser = s.ser := rfl
@[simp] theorem State.goesTo_bus (p : List Nat) : (s.goesTo p).bus = s.bus := rfl
@[simp] theorem State.finished_bus : s.finished.bus = s.bus := rfl
@[simp] theorem State.goesTo_smooth (p : List Nat) : (s.goesTo p).smooth = s.smooth := rfl
@[simp] theorem State.finished_smooth : s.finished.smooth = s.smooth := rfl
@[simp] theorem State.goesTo_lat (p : List Nat) : (s.goesTo p).lat = s.lat := rfl
@[simp] theorem State.finished_lat : s.finished.lat = s.lat := rfl
@[simp] theorem State.goesTo_coil (p : List Nat) : (s.goesTo p).coil = s.coil := rfl
@[simp] theorem State.finished_coil : s.finished.coil = s.coil := rfl
@[simp] theorem State.goesTo_tick (p : List Nat) : (s.goesTo p).tick = s.tick := rfl
@[simp] theorem State.finished_tick : s.finished.tick = s.tick := rfl
@[simp] theorem State.goesTo_tmp (p : List Nat) : (s.goesTo p).tmp = s.tmp := rfl
@[simp] theorem State.finished_tmp : s.finished.tmp = s.tmp := rfl
@[simp] theorem State.goesTo_env (p : List Nat) : (s.goesTo p).env = s.env := rfl
@[simp] theorem State.finished_env : s.finished.env = s.env := rfl
@[simp] theorem State.goesTo_trace (p : List Nat) : (s.goesTo p).trace = s.trace := rfl
@[simp] theorem State.finished_trace : s.finished.trace = s.trace := rfl
@[simp] theorem State.goesTo_sched (p : List Nat) : (s.goesTo p).sched = s.sched := rfl
@[simp] theorem State.finished_sched : s.finished.sched = s.sched := rfl
@[simp] theorem State.goesTo_seq (p : List Nat) : (s.goesTo p).seq = { s.seq with ustep := p } := rfl
@[simp] theorem State.finished_seq : s.finished.seq = { pc := s.seq.pc + 1#8, ustep := [1] } := rfl

/-- A position set to itself changes nothing. -/
theorem State.goesTo_self {p : List Nat} (h : s.seq.ustep = p) : s.goesTo p = s := by
  subst h; rfl

end Sys2Proof.Machine
end

