-- ==== Sys2Proof/Laws/Micro.lean ====
section
/-! SUPPORT. The engine of micro-steps: what a step of the foreground can do, and one lemma for each combinator that carries a relation
between the states before and after a micro-step through the operations built from it. -/

namespace Sys2Proof.Machine

/-- The state a micro-step leaves, if it leaves one, satisfies P. -/
def MicroResult.Sat (P : State → Prop) : MicroResult → Prop
  | .more _ t => P t
  | .done t => P t
  | .refuse _ => True
  | .stray => True

@[simp] theorem MicroResult.sat_more (P : State → Prop) (p : List Nat) (t : State) : (MicroResult.more p t).Sat P = P t := rfl
@[simp] theorem MicroResult.sat_done (P : State → Prop) (t : State) : (MicroResult.done t).Sat P = P t := rfl
@[simp] theorem MicroResult.sat_refuse (P : State → Prop) (r : Refusal) : (MicroResult.refuse r).Sat P = True := rfl
@[simp] theorem MicroResult.sat_stray (P : State → Prop) : MicroResult.stray.Sat P = True := rfl

theorem MicroResult.Sat.imp {P Q : State → Prop} {r : MicroResult} (h : r.Sat P) (hPQ : ∀ t, P t → Q t) : r.Sat Q := by
  cases r
  · exact hPQ _ h
  · exact hPQ _ h
  · trivial
  · trivial

/-- Every micro-step of m relates the state before it to the state after it. -/
def Micro.Keeps (P : State → State → Prop) (m : Micro) : Prop := ∀ pos s, (m pos s).Sat (P s)

/-- What a step of the foreground can do. -/
theorem runFg_next {m : Micro} {s t : State} (h : runFg m s = .next t) :
    (∃ p t', m s.seq.ustep s = .more p t' ∧ t = t'.goesTo p) ∨ (∃ t', m s.seq.ustep s = .done t' ∧ t = t'.finished) := by
  unfold runFg at h
  split at h
  · rename_i p t' e
    cases h
    exact .inl ⟨p, t', e, rfl⟩
  · rename_i t' e
    cases h
    exact .inr ⟨t', e, rfl⟩
  · cases h
  · cases h

theorem runFg_of_more {m : Micro} {s t : State} {p : List Nat} (h : m s.seq.ustep s = .more p t) :
    runFg m s = .next (t.goesTo p) := by
  unfold runFg; rw [h]; rfl

theorem runFg_of_done {m : Micro} {s t : State} (h : m s.seq.ustep s = .done t) : runFg m s = .next t.finished := by
  unfold runFg; rw [h]; rfl

theorem runFg_of_refuse {m : Micro} {s : State} {r : Refusal} (h : m s.seq.ustep s = .refuse r) :
    runFg m s = .refused r := by
  unfold runFg; rw [h]

theorem runFg_of_stray {m : Micro} {s : State} (h : m s.seq.ustep s = .stray) :
    runFg m s = .fault .strayMicroStep := by
  unfold runFg; rw [h]

@[simp] theorem once_start (f : State → MicroResult) (s : State) : once f [1] s = f s := rfl

theorem once_keeps {P : State → State → Prop} {f : State → MicroResult} (h : ∀ s, (f s).Sat (P s)) :
    Micro.Keeps P (once f) := by
  intro pos s
  unfold once
  split
  · exact h s
  · trivial

theorem straight_keeps {P : State → State → Prop} {us : List (State → State)} (h : ∀ u ∈ us, ∀ s, P s (u s)) :
    Micro.Keeps P (straight us) := by
  intro pos s
  unfold straight
  split
  · split
    · trivial
    · rename_i u hu
      have hm : u ∈ us := List.mem_of_getElem? hu
      split <;> exact h u hm s
  · trivial

/-- A call keeps what the callee and what follows it keep together. -/
theorem callAt_sat {P : State → State → Prop} {Q : State → Prop} {m : Micro} {n : Nat} {sub : List Nat} {s : State}
    {k : State → MicroResult} (hm : Micro.Keeps P m) (hQ : ∀ t, P s t → Q t) (hk : ∀ t, P s t → (k t).Sat Q) :
    (callAt n sub m s k).Sat Q := by
  have h := hm (if sub = [] then [1] else sub) s
  unfold callAt
  split <;> simp_all

theorem calls_keeps {P : State → State → Prop} {ms : List Micro} (h : ∀ m ∈ ms, Micro.Keeps P m) :
    Micro.Keeps P (calls ms) := by
  intro pos s
  unfold calls
  split
  · split
    · trivial
    · rename_i m hm
      refine callAt_sat (h m (List.mem_of_getElem? hm)) (fun _ hp => hp) fun t ht => ?_
      split <;> exact ht
  · trivial

/-- The loop over the bits keeps what its callee, its wrap-up and its counter keep together. -/
theorem bitLoop_sat {P : State → State → Prop} {Q : State → Prop} {m : Micro} {n : Nat} {sub : List Nat} {s : State}
    {w : State → State} {k : State → MicroResult} (hm : Micro.Keeps P m) (hQ : ∀ t, P s t → Q t)
    (hc : ∀ t, P s t → Q ((w t).setTmp { (w t).tmp with i := (w t).tmp.i - 1#3 }))
    (hk : ∀ t, P s t → (k (w t)).Sat Q) : (bitLoop n sub m w s k).Sat Q := by
  unfold bitLoop
  refine callAt_sat hm hQ fun t ht => ?_
  dsimp only
  split
  · exact hk t ht
  · exact hc t ht

/-- A relation every micro-step of m keeps holds across a step of the foreground, up to the sequencer's registers. -/
theorem Micro.Keeps.runFg {P : State → State → Prop} {m : Micro} (hm : Micro.Keeps P m) {s t : State}
    (h : runFg m s = .next t) : ∃ t', P s t' ∧ ((∃ p, t = t'.goesTo p) ∨ t = t'.finished) := by
  have hs := hm s.seq.ustep s
  rcases runFg_next h with ⟨p, t', e, rfl⟩ | ⟨t', e, rfl⟩ <;> rw [e] at hs
  · exact ⟨t', hs, .inl ⟨p, rfl⟩⟩
  · exact ⟨t', hs, .inr rfl⟩

end Sys2Proof.Machine
end

