-- ==== Sys2Proof/Laws/Ring.lean ====
section
/-! SUPPORT. The masked increment and the count as arithmetic modulo the capacity (00_scope.md R8, 40_ring_fifo_transport.md R112). -/

namespace Sys2Proof.Machine

/-- A capacity of R5. -/
def IsCapacity (C : Nat) : Prop := ∃ k : Nat, k < 8 ∧ C = 2 ^ (k + 1)

theorem rxCap_isCapacity (c : Config) : IsCapacity c.rxCap := ⟨c.rxCapLog.val, c.rxCapLog.isLt, rfl⟩

theorem txCap_isCapacity (c : Config) : IsCapacity c.txCap := ⟨c.txCapLog.val, c.txCapLog.isLt, rfl⟩

theorem IsCapacity.bounds {C : Nat} (h : IsCapacity C) : 2 ≤ C ∧ C ≤ 256 := by
  obtain ⟨k, hk, rfl⟩ := h
  have h1 : 2 ^ 1 ≤ 2 ^ (k + 1) := Nat.pow_le_pow_right (by decide) (by omega)
  have h2 : 2 ^ (k + 1) ≤ 2 ^ 8 := Nat.pow_le_pow_right (by decide) (by omega)
  exact ⟨by simpa using h1, by simpa using h2⟩

theorem IsCapacity.dvd {C : Nat} (h : IsCapacity C) : C ∣ 256 := by
  obtain ⟨k, hk, rfl⟩ := h
  exact Nat.pow_dvd_pow 2 (show k + 1 ≤ 8 by omega)

/-- The mask keeps the value modulo the capacity. -/
theorem toNat_and_mask {C : Nat} (h : IsCapacity C) (x : Byte) :
    (x &&& BitVec.ofNat 8 (C - 1)).toNat = x.toNat % C := by
  have hb := h.bounds
  have hC : (BitVec.ofNat 8 (C - 1)).toNat = C - 1 := by
    rw [BitVec.toNat_ofNat]
    exact Nat.mod_eq_of_lt (by omega)
  rw [BitVec.toNat_and, hC]
  obtain ⟨k, hk, rfl⟩ := h
  exact Nat.and_two_pow_sub_one_eq_mod _ _

/-- `next(i, C)` is `(i + 1) mod C`. -/
theorem maskedNext_toNat {C : Nat} (h : IsCapacity C) (i : Byte) : (maskedNext C i).toNat = (i.toNat + 1) % C := by
  unfold maskedNext
  rw [toNat_and_mask h, BitVec.toNat_add]
  simp only [BitVec.toNat_ofNat]
  exact Nat.mod_mod_of_dvd _ h.dvd

theorem maskedNext_lt {C : Nat} (h : IsCapacity C) (i : Byte) : (maskedNext C i).toNat < C := by
  rw [maskedNext_toNat h]
  exact Nat.mod_lt _ (by have := h.bounds; omega)

/-- `count(h, t, C)` is `(h - t) mod C`. -/
theorem ringCount_eq {C : Nat} (hC : IsCapacity C) (h t : Byte) :
    ringCount C h t = (h.toNat + (256 - t.toNat)) % C := by
  unfold ringCount
  rw [toNat_and_mask hC, BitVec.toNat_sub]
  have e : 2 ^ 8 - t.toNat + h.toNat = h.toNat + (256 - t.toNat) := by omega
  rw [e]
  exact Nat.mod_mod_of_dvd _ hC.dvd

theorem ringCount_lt {C : Nat} (hC : IsCapacity C) (h t : Byte) : ringCount C h t < C := by
  rw [ringCount_eq hC]
  exact Nat.mod_lt _ (by have := hC.bounds; omega)

/-- For indices below the capacity the count is the distance from tail up to head. -/
theorem ringCount_of_lt {C : Nat} (hC : IsCapacity C) {h t : Byte} (hh : h.toNat < C) (ht : t.toNat < C) :
    ringCount C h t = if t.toNat ≤ h.toNat then h.toNat - t.toNat else h.toNat + C - t.toNat := by
  rw [ringCount_eq hC]
  obtain ⟨q, hq⟩ := hC.dvd
  have hb := hC.bounds
  have hq0 : 0 < q := by
    rcases Nat.eq_zero_or_pos q with h0 | h0
    · subst h0; simp at hq
    · exact h0
  obtain ⟨q', rfl⟩ : ∃ q', q = q' + 1 := ⟨q - 1, by omega⟩
  rw [Nat.mul_succ] at hq
  split
  · have e : h.toNat + (256 - t.toNat) = (h.toNat - t.toNat) + C * (q' + 1) := by rw [Nat.mul_succ]; omega
    rw [e, Nat.add_mul_mod_self_left]
    exact Nat.mod_eq_of_lt (by omega)
  · have e : h.toNat + (256 - t.toNat) = (h.toNat + C - t.toNat) + C * q' := by omega
    rw [e, Nat.add_mul_mod_self_left]
    exact Nat.mod_eq_of_lt (by omega)

/-- For an index below the capacity the increment wraps from C - 1 to 0 and otherwise adds one. -/
theorem maskedNext_of_lt {C : Nat} (hC : IsCapacity C) {i : Byte} (h : i.toNat < C) :
    (maskedNext C i).toNat = if i.toNat + 1 = C then 0 else i.toNat + 1 := by
  rw [maskedNext_toNat hC]
  split
  · rename_i e; rw [e]; exact Nat.mod_self C
  · exact Nat.mod_eq_of_lt (by omega)

/-- The k-th slot after the tail is `(tail + k) mod C`. -/
theorem slotAfter_toNat {C : Nat} (hC : IsCapacity C) {t : Byte} (ht : t.toNat < C) (k : Nat) :
    (slotAfter C t k).toNat = (t.toNat + k) % C := by
  induction k with
  | zero => simpa [slotAfter] using (Nat.mod_eq_of_lt ht).symm
  | succ k ih =>
    rw [slotAfter, maskedNext_toNat hC, ih, Nat.mod_add_mod, Nat.add_assoc]

theorem Ring.isEmpty_iff (r : Ring) : r.isEmpty = true ↔ r.head = r.tail := by simp [Ring.isEmpty]

theorem Ring.queue_length (id : MemId) (C : Nat) (r : Ring) : (r.queue id C).length = ringCount C r.head r.tail := by
  simp [Ring.queue]

end Sys2Proof.Machine
end

