-- ==== Sys2Proof/Laws/Foreground.lean ====
section
/-! SUPPORT. What no foreground operation changes: parameters, program, position registers (written by the sequencer alone), the
environment, the tick counters, the schedule, the receive slots, `TxHwReady` and `TxWire` (20_memory.md R70). -/

namespace Sys2Proof.Machine

/-- The parts no micro-step of the foreground writes. -/
structure FgKeeps (s t : State) : Prop where
  cfg : t.cfg = s.cfg
  prog : t.prog = s.prog
  seq : t.seq = s.seq
  env : t.env = s.env
  tick : t.tick = s.tick
  sched : t.sched = s.sched
  rxBuf : t.rx.buf = s.rx.buf
  txHwReady : t.ser.txHwReady = s.ser.txHwReady
  txWire : t.trace.txWire = s.trace.txWire

theorem FgKeeps.refl (s : State) : FgKeeps s s := ⟨rfl, rfl, rfl, rfl, rfl, rfl, rfl, rfl, rfl⟩

theorem FgKeeps.trans {s t u : State} (h : FgKeeps s t) (k : FgKeeps t u) : FgKeeps s u where
  cfg := k.cfg.trans h.cfg
  prog := k.prog.trans h.prog
  seq := k.seq.trans h.seq
  env := k.env.trans h.env
  tick := k.tick.trans h.tick
  sched := k.sched.trans h.sched
  rxBuf := k.rxBuf.trans h.rxBuf
  txHwReady := k.txHwReady.trans h.txHwReady
  txWire := k.txWire.trans h.txWire

theorem setTmp_keeps (s : State) (x : Temps) : FgKeeps s (s.setTmp x) := ⟨rfl, rfl, rfl, rfl, rfl, rfl, rfl, rfl, rfl⟩
theorem setLat_keeps (s : State) (x : Latches) : FgKeeps s (s.setLat x) := ⟨rfl, rfl, rfl, rfl, rfl, rfl, rfl, rfl, rfl⟩
theorem setCtl_keeps (s : State) (x : SerialCtl) : FgKeeps s (s.setCtl x) := ⟨rfl, rfl, rfl, rfl, rfl, rfl, rfl, rfl, rfl⟩
theorem setTx_keeps (s : State) (x : Ring) : FgKeeps s (s.setTx x) := ⟨rfl, rfl, rfl, rfl, rfl, rfl, rfl, rfl, rfl⟩
theorem setSmooth_keeps (s : State) (x : Smoothing) : FgKeeps s (s.setSmooth x) :=
  ⟨rfl, rfl, rfl, rfl, rfl, rfl, rfl, rfl, rfl⟩
theorem rxTail_keeps (s : State) (t : Byte) : FgKeeps s (s.setRx { s.rx with tail := t }) :=
  ⟨rfl, rfl, rfl, rfl, rfl, rfl, rfl, rfl, rfl⟩

theorem initTransport_keeps (s : State) : FgKeeps s (initTransport s) := ⟨rfl, rfl, rfl, rfl, rfl, rfl, rfl, rfl, rfl⟩

theorem uUartInit_keeps : Micro.Keeps FgKeeps uUartInit := once_keeps initTransport_keeps

theorem uUartSend_keeps (b : Byte) : Micro.Keeps FgKeeps (uUartSend b) := by
  intro pos s
  unfold uUartSend
  split
  · split
    · exact setTmp_keeps _ _
    · trivial
  · split <;> exact FgKeeps.refl s
  · exact setTx_keeps _ _
  · exact setTx_keeps _ _
  · exact setCtl_keeps _ _
  · trivial

theorem uUartAvail_keeps : Micro.Keeps FgKeeps uUartAvail := by
  refine once_keeps fun s => ?_
  split
  · exact setLat_keeps _ _
  · trivial

theorem uUartRecv_keeps : Micro.Keeps FgKeeps uUartRecv := by
  intro pos s
  unfold uUartRecv
  split
  · split
    · split <;> exact FgKeeps.refl s
    · trivial
  · exact setTmp_keeps _ _
  · exact rxTail_keeps _ _
  · exact setLat_keeps _ _
  · trivial

theorem sdaLow_keeps (s : State) : FgKeeps s (sdaLow s) := ⟨rfl, rfl, rfl, rfl, rfl, rfl, rfl, rfl, rfl⟩
theorem sdaRel_keeps (s : State) : FgKeeps s (sdaRel s) := ⟨rfl, rfl, rfl, rfl, rfl, rfl, rfl, rfl, rfl⟩
theorem sclLow_keeps (s : State) : FgKeeps s (sclLow s) := ⟨rfl, rfl, rfl, rfl, rfl, rfl, rfl, rfl, rfl⟩
theorem sclRel_keeps (s : State) : FgKeeps s (sclRel s) := ⟨rfl, rfl, rfl, rfl, rfl, rfl, rfl, rfl, rfl⟩
theorem busDelay_keeps (s : State) : FgKeeps s (busDelay s) := ⟨rfl, rfl, rfl, rfl, rfl, rfl, rfl, rfl, rfl⟩
theorem sampleSda_keeps (s : State) : FgKeeps s (sampleSda s) := ⟨rfl, rfl, rfl, rfl, rfl, rfl, rfl, rfl, rfl⟩
theorem driveData_keeps (b : Bool) (s : State) : FgKeeps s (driveData b s) := by
  cases b
  · exact sdaLow_keeps s
  · exact sdaRel_keeps s
theorem resFromSample_keeps (s : State) : FgKeeps s (resFromSample s) := setLat_keeps _ _

theorem uBusInit_keeps : Micro.Keeps FgKeeps uBusInit :=
  straight_keeps (by simp [sdaLow_keeps, sdaRel_keeps, sclLow_keeps, sclRel_keeps, busDelay_keeps])

theorem uBusStart_keeps : Micro.Keeps FgKeeps uBusStart :=
  straight_keeps (by simp [sdaLow_keeps, sclLow_keeps, busDelay_keeps])

theorem uBusStop_keeps : Micro.Keeps FgKeeps uBusStop :=
  straight_keeps (by simp [sdaRel_keeps, sclRel_keeps, busDelay_keeps])

theorem uBusWbit_keeps (b : Byte) : Micro.Keeps FgKeeps (uBusWbit b) :=
  straight_keeps (by simp [driveData_keeps, sclLow_keeps, sclRel_keeps, busDelay_keeps])

theorem uBusRbit_keeps : Micro.Keeps FgKeeps uBusRbit :=
  straight_keeps (by
    simp [sdaRel_keeps, sclLow_keeps, sclRel_keeps, busDelay_keeps, sampleSda_keeps, resFromSample_keeps])

theorem wbyteBit_keeps (v : Byte) : Micro.Keeps FgKeeps (wbyteBit v) :=
  fun pos s => uBusWbit_keeps (byteOfBool (bitAt v s.tmp.i)) pos s

theorem uBusWbyte_keeps (v : Byte) : Micro.Keeps FgKeeps (uBusWbyte v) := by
  intro pos s
  have loop : ∀ sub s', FgKeeps s s' → (bitLoop 1 sub (wbyteBit v) id s' (.more [2])).Sat (FgKeeps s) :=
    fun sub s' hs => bitLoop_sat (wbyteBit_keeps v) (fun _ h => hs.trans h)
      (fun t h => (hs.trans h).trans (setTmp_keeps _ _)) (fun t h => hs.trans h)
  unfold uBusWbyte
  split
  · exact loop _ _ (setTmp_keeps _ _)
  · exact loop _ _ (FgKeeps.refl s)
  · exact callAt_sat uBusRbit_keeps (fun _ h => h) fun _ h => h
  · trivial

theorem uBusRbyte_keeps (a : Byte) : Micro.Keeps FgKeeps (uBusRbyte a) := by
  intro pos s
  have loop : ∀ sub s', FgKeeps s s' → (bitLoop 2 sub uBusRbit storeBit s' (.more [3])).Sat (FgKeeps s) :=
    fun sub s' hs => bitLoop_sat uBusRbit_keeps (fun _ h => hs.trans h)
      (fun t h => ((hs.trans h).trans (setTmp_keeps _ _)).trans (setTmp_keeps _ _))
      (fun t h => (hs.trans h).trans (setTmp_keeps _ _))
  unfold uBusRbyte
  split
  · exact setTmp_keeps _ _
  · exact loop _ _ (setTmp_keeps _ _)
  · exact loop _ _ (FgKeeps.refl s)
  · exact callAt_sat (uBusWbit_keeps _) (fun _ h => h) fun _ h => h
  · exact setLat_keeps _ _
  · trivial

theorem uTempRead_keeps : Micro.Keeps FgKeeps uTempRead := by
  intro pos s
  refine calls_keeps (fun m hm => ?_) pos s
  simp only [List.mem_cons, List.not_mem_nil, or_false] at hm
  rcases hm with rfl | rfl | rfl | rfl | rfl
  · exact uBusStart_keeps
  · exact uBusWbyte_keeps _
  · exact uBusRbyte_keeps _
  · exact uBusStop_keeps
  · exact once_keeps fun _ => setLat_keeps _ _

theorem uTempSmooth_keeps (x : Byte) : Micro.Keeps FgKeeps (uTempSmooth x) := by
  refine straight_keeps fun u hu s => ?_
  simp only [List.mem_cons, List.not_mem_nil, or_false] at hu
  rcases hu with rfl | rfl | rfl | rfl
  · exact setSmooth_keeps _ _
  · exact setSmooth_keeps _ _
  · exact setTmp_keeps _ _
  · exact setLat_keeps _ _

theorem uTempPreload_keeps (t : Byte) : Micro.Keeps FgKeeps (uTempPreload t) :=
  once_keeps fun _ => (setSmooth_keeps _ _).trans (setTmp_keeps _ _)

theorem uTempSmoothr_keeps : Micro.Keeps FgKeeps uTempSmoothr :=
  fun pos s => calls_keeps (by simpa using uTempSmooth_keeps s.lat.raw) pos s

theorem uTempPreloadr_keeps : Micro.Keeps FgKeeps uTempPreloadr :=
  fun pos s => calls_keeps (by simpa using uTempPreload_keeps s.lat.raw) pos s

theorem uCtlSetpt_keeps : Micro.Keeps FgKeeps uCtlSetpt := once_keeps fun _ => setLat_keeps _ _

theorem uCtlOvr_keeps : Micro.Keeps FgKeeps uCtlOvr := once_keeps fun _ => setLat_keeps _ _

theorem hysteresis_keeps (s : State) : FgKeeps s (hysteresis s) := by
  unfold hysteresis
  split <;> split <;> exact ⟨rfl, rfl, rfl, rfl, rfl, rfl, rfl, rfl, rfl⟩

theorem uCtlHyst_keeps : Micro.Keeps FgKeeps uCtlHyst := once_keeps hysteresis_keeps

theorem uCtlStatus_keeps : Micro.Keeps FgKeeps uCtlStatus := by
  intro pos s
  unfold uCtlStatus
  split
  · exact setTmp_keeps _ _
  · split
    · exact FgKeeps.refl s
    · refine callAt_sat (uUartSend_keeps _) (fun _ h => h) fun t h => ?_
      dsimp only
      split <;> exact h.trans (setTmp_keeps _ _)
  · trivial

theorem uCtlSleep_keeps : Micro.Keeps FgKeeps uCtlSleep := once_keeps FgKeeps.refl

theorem uCtlIter_keeps : Micro.Keeps FgKeeps uCtlIter := by
  refine calls_keeps fun m hm => ?_
  simp only [List.mem_cons, List.not_mem_nil, or_false] at hm
  rcases hm with rfl | rfl | rfl | rfl | rfl | rfl | rfl
  · exact uCtlSetpt_keeps
  · exact uTempRead_keeps
  · exact uTempSmoothr_keeps
  · exact uCtlOvr_keeps
  · exact uCtlHyst_keeps
  · exact uCtlStatus_keeps
  · exact uCtlSleep_keeps

theorem uCtlBoot_keeps : Micro.Keeps FgKeeps uCtlBoot := by
  refine calls_keeps fun m hm => ?_
  simp only [List.mem_cons, List.not_mem_nil, or_false] at hm
  rcases hm with rfl | rfl | rfl | rfl
  · exact uUartInit_keeps
  · exact uBusInit_keeps
  · exact uTempRead_keeps
  · exact uTempPreloadr_keeps

end Sys2Proof.Machine
end

