-- ==== Sys2Proof/Laws/Step.lean ====
section
/-! SUPPORT. What a step of the machine can do, said once: the foreground's command, a scheduled event, or the environment. -/

namespace Sys2Proof.Machine

/-- The micro-steps of a foreground command; an event has none. -/
def microOf : Instr → Option Micro
  | .seqNop => some (once .done)
  | .seqJmp _ => none
  | .seqEnd => some (once fun s => .more [1] s)
  | .uartInit => some uUartInit
  | .uartSend b => some (uUartSend b)
  | .uartAvail => some uUartAvail
  | .uartRecv => some uUartRecv
  | .busInit => some uBusInit
  | .busStart => some uBusStart
  | .busStop => some uBusStop
  | .busWbit b => some (uBusWbit b)
  | .busRbit => some uBusRbit
  | .busWbyte v => some (uBusWbyte v)
  | .busRbyte a => some (uBusRbyte a)
  | .tempRead => some uTempRead
  | .tempSmooth x => some (uTempSmooth x)
  | .tempPreload t => some (uTempPreload t)
  | .tempSmoothr => some uTempSmoothr
  | .tempPreloadr => some uTempPreloadr
  | .ctlSetpt => some uCtlSetpt
  | .ctlOvr => some uCtlOvr
  | .ctlHyst => some uCtlHyst
  | .ctlStatus => some uCtlStatus
  | .ctlSleep => some uCtlSleep
  | .ctlIter => some uCtlIter
  | .ctlBoot => some uCtlBoot
  | .evtRxc _ => none
  | .evtTxr => none
  | .evtTick => none

/-- Every command but `SEQ.JMP` and the events is its micro-steps run by the sequencer. -/
theorem exec_eq_runFg {i : Instr} {m : Micro} (h : microOf i = some m) (s : State) : exec i s = runFg m s := by
  cases i <;> simp only [microOf, Option.some.injEq, reduceCtorEq] at h <;> subst h <;> rfl

theorem microOf_keeps {i : Instr} {m : Micro} (h : microOf i = some m) : Micro.Keeps FgKeeps m := by
  cases i <;> simp only [microOf, Option.some.injEq, reduceCtorEq] at h <;> subst h
  · exact once_keeps FgKeeps.refl
  · exact once_keeps FgKeeps.refl
  · exact uUartInit_keeps
  · exact uUartSend_keeps _
  · exact uUartAvail_keeps
  · exact uUartRecv_keeps
  · exact uBusInit_keeps
  · exact uBusStart_keeps
  · exact uBusStop_keeps
  · exact uBusWbit_keeps _
  · exact uBusRbit_keeps
  · exact uBusWbyte_keeps _
  · exact uBusRbyte_keeps _
  · exact uTempRead_keeps
  · exact uTempSmooth_keeps _
  · exact uTempPreload_keeps _
  · exact uTempSmoothr_keeps
  · exact uTempPreloadr_keeps
  · exact uCtlSetpt_keeps
  · exact uCtlOvr_keeps
  · exact uCtlHyst_keeps
  · exact uCtlStatus_keeps
  · exact uCtlSleep_keeps
  · exact uCtlIter_keeps
  · exact uCtlBoot_keeps

theorem decodeAt_program {w : CmdWord} {i : Instr} (h : decodeAt .program w = some i) :
    decode w = .ok i ∧ i.isEvent = false := by
  unfold decodeAt at h
  split at h
  · rename_i j e
    split at h
    · rename_i hw
      cases h
      exact ⟨e, by simpa [Instr.wellFormed] using hw⟩
    · cases h
  · cases h

theorem decodeAt_schedule {w : CmdWord} {i : Instr} (h : decodeAt .schedule w = some i) :
    decode w = .ok i ∧ i.isEvent = true := by
  unfold decodeAt at h
  split at h
  · rename_i j e
    split at h
    · rename_i hw
      cases h
      exact ⟨e, by simpa [Instr.wellFormed] using hw⟩
    · cases h
  · cases h

theorem decodeAt_program_of_ok {w : CmdWord} {i : Instr} (h : decode w = .ok i) (he : i.isEvent = false) :
    decodeAt .program w = some i := by
  simp [decodeAt, h, Instr.wellFormed, he]

theorem decodeAt_schedule_of_ok {w : CmdWord} {i : Instr} (h : decode w = .ok i) (he : i.isEvent = true) :
    decodeAt .schedule w = some i := by
  simp [decodeAt, h, Instr.wellFormed, he]

theorem fgMove_of_command {s : State} {i : Instr} (h : fgCommand s = some i) : fgMove s = .run i s := by
  unfold fgCommand at h
  unfold fgMove
  cases e : s.prog[s.seq.pc.toNat]? with
  | none => rw [e] at h; simp at h
  | some w => rw [e] at h; simp at h; simp [h]

theorem fgMove_run {s t : State} {i : Instr} (h : fgMove s = .run i t) : fgCommand s = some i ∧ t = s := by
  unfold fgMove at h
  unfold fgCommand
  split at h
  · cases h
  · rename_i w e
    split at h
    · rename_i j e'
      cases h
      simp [e, e']
    · cases h

theorem fgMove_cases (s : State) :
    (∃ i, fgCommand s = some i ∧ i.isEvent = false ∧ fgMove s = .run i s) ∨
    (fgCommand s = none ∧ (fgMove s = .stop .fgStuck ∨ ∃ w, fgMove s = .refuse (.reservedWord w))) := by
  unfold fgCommand fgMove
  cases s.prog[s.seq.pc.toNat]? with
  | none => simp
  | some w =>
    cases e : decodeAt .program w with
    | none => simp [e]
    | some i => simp [e, (decodeAt_program e).2]

theorem eventMove_cases (w : CmdWord) (s : State) :
    (∃ i, decode w = .ok i ∧ i.isEvent = true ∧ eventMove w s = .run i s) ∨ eventMove w s = .refuse (.notAnEvent w) := by
  unfold eventMove
  cases e : decodeAt .schedule w with
  | none => simp
  | some i => simp [decodeAt_schedule e]

@[simp] theorem fgCommand_setSched (s : State) (l : List SchedItem) : fgCommand (s.setSched l) = fgCommand s := rfl

/-- The three ways the machine goes on: the foreground runs its command, a scheduled event is taken, the environment moves. -/
theorem step_next {s t : State} (h : step s = .next t) :
    (∃ i, (s.sched = [] ∨ s.sched.head? = some .fg) ∧ fgCommand s = some i ∧ i.isEvent = false ∧
      exec i (s.setSched s.sched.tail) = .next t) ∨
    (∃ w i, s.sched.head? = some (.event w) ∧ decode w = .ok i ∧ i.isEvent = true ∧
      exec i (s.setSched s.sched.tail) = .next t) ∨
    (∃ e, s.sched.head? = some (.env e) ∧ t = envStep e (s.setSched s.sched.tail)) := by
  unfold step nextMove at h
  cases hs : s.sched with
  | nil =>
    have e : s.setSched [] = s := by rw [← hs]; rfl
    rcases fgMove_cases s with ⟨i, hc, hi, hm⟩ | ⟨-, hm | ⟨w, hm⟩⟩ <;> simp only [hs, hm] at h
    · exact .inl ⟨i, .inl rfl, hc, hi, by simpa [e] using h⟩
    · cases h
    · cases h
  | cons a rest =>
    cases a with
    | fg =>
      rcases fgMove_cases (s.setSched rest) with ⟨i, hc, hi, hm⟩ | ⟨-, hm | ⟨w, hm⟩⟩ <;> simp only [hs, hm] at h
      · exact .inl ⟨i, .inr rfl, hc, hi, by simpa using h⟩
      · cases h
      · cases h
    | event w =>
      rcases eventMove_cases w (s.setSched rest) with ⟨i, hd, hi, hm⟩ | hm <;> simp only [hs, hm] at h
      · exact .inr (.inl ⟨w, i, rfl, hd, hi, by simpa using h⟩)
      · cases h
    | env e =>
      simp only [hs] at h
      cases h
      exact .inr (.inr ⟨e, rfl, rfl⟩)

/-- What a command of the foreground, other than `SEQ.JMP`, leaves alone (20_memory.md R70): the parts of FgKeeps but for the
position, which only the sequencer moves. -/
theorem exec_fgKeeps {i : Instr} {s t : State} (he : i.isEvent = false) (h : exec i s = .next t) :
    ∃ t', FgKeeps s t' ∧ t = { t' with seq := t.seq } := by
  cases hm : microOf i with
  | some m =>
    rw [exec_eq_runFg hm] at h
    obtain ⟨t', hk, ⟨p, rfl⟩ | rfl⟩ := (microOf_keeps hm).runFg h
    · exact ⟨t', hk, rfl⟩
    · exact ⟨t', hk, rfl⟩
  | none =>
    cases i <;> simp only [microOf, reduceCtorEq] at hm <;> simp only [Instr.isEvent, Bool.true_eq_false] at he
    simp only [exec, execSeqJmp] at h
    split at h
    · cases h
      exact ⟨s, FgKeeps.refl s, rfl⟩
    · cases h

/-- An event always answers a next state, and its handler runs just when it is enabled (R243, R246). -/
theorem takeEvent_eq (e : Bool) (f : State → State) (s : State) : takeEvent e f s = .next (if e then f s else s) := by
  unfold takeEvent returnFromEvent
  cases e <;> rfl

end Sys2Proof.Machine
end

