-- ==== Sys2Proof/Laws/Commute.lean ====
section
/-! SUPPORT. Operations that neither read nor write some part of the state: changing that part first or last is the same. One lemma for
each combinator of micro-steps, so that an operation commutes with a change as soon as its own micro-steps do. -/

namespace Sys2Proof.Machine

/-- A change of the state a micro-step leaves, if it leaves one. -/
def MicroResult.map (f : State → State) : MicroResult → MicroResult
  | .more p s => .more p (f s)
  | .done s => .done (f s)
  | .refuse r => .refuse r
  | .stray => .stray

@[simp] theorem MicroResult.map_more (f : State → State) (p : List Nat) (s : State) :
    (MicroResult.more p s).map f = .more p (f s) := rfl
@[simp] theorem MicroResult.map_done (f : State → State) (s : State) : (MicroResult.done s).map f = .done (f s) := rfl
@[simp] theorem MicroResult.map_refuse (f : State → State) (r : Refusal) : (MicroResult.refuse r).map f = .refuse r := rfl
@[simp] theorem MicroResult.map_stray (f : State → State) : MicroResult.stray.map f = .stray := rfl

/-- The change f before every micro-step of m is the change f after it. -/
def Micro.Commutes (f : State → State) (m : Micro) : Prop := ∀ pos s, m pos (f s) = (m pos s).map f

variable {f : State → State}

theorem once_commutes {k : State → MicroResult} (h : ∀ s, k (f s) = (k s).map f) : Micro.Commutes f (once k) := by
  intro pos s
  unfold once
  split
  · exact h s
  · rfl

theorem straight_commutes {us : List (State → State)} (h : ∀ u ∈ us, ∀ s, u (f s) = f (u s)) :
    Micro.Commutes f (straight us) := by
  intro pos s
  unfold straight
  split
  · split
    · rfl
    · rename_i u hu
      rw [h u (List.mem_of_getElem? hu) s]
      split <;> rfl
  · rfl

theorem callAt_commutes {m : Micro} (hm : Micro.Commutes f m) {n : Nat} {sub : List Nat} {s : State}
    {k k' : State → MicroResult} (hk : ∀ t, k (f t) = (k' t).map f) :
    callAt n sub m (f s) k = (callAt n sub m s k').map f := by
  unfold callAt
  rw [hm]
  cases m (if sub = [] then [1] else sub) s <;> simp [hk]

theorem calls_commutes {ms : List Micro} (h : ∀ m ∈ ms, Micro.Commutes f m) : Micro.Commutes f (calls ms) := by
  intro pos s
  unfold calls
  split
  · split
    · rfl
    · rename_i m hm
      refine callAt_commutes (h m (List.mem_of_getElem? hm)) fun t => ?_
      split <;> rfl
  · rfl

theorem bitLoop_commutes {m : Micro} (hm : Micro.Commutes f m) {n : Nat} {sub : List Nat} {s : State} {w : State → State}
    (hw : ∀ t, w (f t) = f (w t)) (hi : ∀ t, (f t).tmp = t.tmp) (hs : ∀ t x, (f t).setTmp x = f (t.setTmp x))
    {k : State → MicroResult} (hk : ∀ t, k (f t) = (k t).map f) :
    bitLoop n sub m w (f s) k = (bitLoop n sub m w s k).map f := by
  unfold bitLoop
  refine callAt_commutes hm fun t => ?_
  simp only [hw, hi, hs, hk]
  split <;> rfl

/-- What a change must leave alone for the operations of the bus to commute with it: the lines, the temporaries and `BusTrace`. -/
structure BusSafe (f : State → State) : Prop where
  tmp : ∀ t, (f t).tmp = t.tmp
  setTmp : ∀ t x, (f t).setTmp x = f (t.setTmp x)
  res : ∀ t v, (f t).setRes v = f (t.setRes v)
  getRes : ∀ t, (f t).lat.res = t.lat.res
  setRaw : ∀ t, latchRaw (f t) = f (latchRaw t)
  emit : ∀ t a, (f t).emitBus a = f (t.emitBus a)
  bus : ∀ t, (f t).bus = t.bus
  setBus : ∀ t b, (f t).setBus b = f (t.setBus b)
  env : ∀ t, (f t).env = t.env
  cfg : ∀ t, (f t).cfg = t.cfg

variable (h : BusSafe f)
include h

theorem sdaLow_commutes (s : State) : sdaLow (f s) = f (sdaLow s) := by simp only [sdaLow, h.bus, h.setBus, h.emit]
theorem sdaRel_commutes (s : State) : sdaRel (f s) = f (sdaRel s) := by simp only [sdaRel, h.bus, h.setBus, h.emit]
theorem sclLow_commutes (s : State) : sclLow (f s) = f (sclLow s) := by simp only [sclLow, h.bus, h.setBus, h.emit]
theorem sclRel_commutes (s : State) : sclRel (f s) = f (sclRel s) := by simp only [sclRel, h.bus, h.setBus, h.emit]
theorem busDelay_commutes (s : State) : busDelay (f s) = f (busDelay s) := by simp only [busDelay, h.emit]
theorem sampleSda_commutes (s : State) : sampleSda (f s) = f (sampleSda s) := by
  simp only [sampleSda, State.sdaLevel, h.bus, h.env, h.tmp, h.setTmp, h.emit]
theorem driveData_commutes (b : Bool) (s : State) : driveData b (f s) = f (driveData b s) := by
  cases b
  · exact sdaLow_commutes h s
  · exact sdaRel_commutes h s
theorem resFromSample_commutes (s : State) : resFromSample (f s) = f (resFromSample s) := by
  simp only [resFromSample, h.tmp, h.res]
theorem storeBit_commutes (s : State) : storeBit (f s) = f (storeBit s) := by
  simp only [storeBit, h.tmp, h.getRes, h.setTmp]

theorem uBusInit_commutes : Micro.Commutes f uBusInit :=
  straight_commutes (by
    simp [sdaLow_commutes h, sdaRel_commutes h, sclLow_commutes h, sclRel_commutes h, busDelay_commutes h])

theorem uBusStart_commutes : Micro.Commutes f uBusStart :=
  straight_commutes (by simp [sdaLow_commutes h, sclLow_commutes h, busDelay_commutes h])

theorem uBusStop_commutes : Micro.Commutes f uBusStop :=
  straight_commutes (by simp [sdaRel_commutes h, sclRel_commutes h, busDelay_commutes h])

theorem uBusWbit_commutes (b : Byte) : Micro.Commutes f (uBusWbit b) :=
  straight_commutes (by simp [driveData_commutes h, sclLow_commutes h, sclRel_commutes h, busDelay_commutes h])

theorem uBusRbit_commutes : Micro.Commutes f uBusRbit :=
  straight_commutes (by
    simp [sdaRel_commutes h, sclLow_commutes h, sclRel_commutes h, busDelay_commutes h, sampleSda_commutes h,
      resFromSample_commutes h])

theorem wbyteBit_commutes (v : Byte) : Micro.Commutes f (wbyteBit v) := by
  intro pos s
  simp only [wbyteBit, h.tmp]
  exact uBusWbit_commutes h _ pos s

theorem startBits_commutes (s : State) : startBits (f s) = f (startBits s) := by simp only [startBits, h.tmp, h.setTmp]

theorem uBusWbyte_commutes (v : Byte) : Micro.Commutes f (uBusWbyte v) := by
  intro pos s
  unfold uBusWbyte
  split
  · rw [startBits_commutes h]
    exact bitLoop_commutes (w := id) (k := .more [2]) (wbyteBit_commutes h v) (fun _ => rfl) h.tmp h.setTmp fun _ => rfl
  · exact bitLoop_commutes (w := id) (k := .more [2]) (wbyteBit_commutes h v) (fun _ => rfl) h.tmp h.setTmp fun _ => rfl
  · exact callAt_commutes (uBusRbit_commutes h) fun _ => rfl
  · rfl

theorem uBusRbyte_commutes (a : Byte) : Micro.Commutes f (uBusRbyte a) := by
  intro pos s
  unfold uBusRbyte
  split
  · simp only [h.tmp, h.setTmp, MicroResult.map_more]
  · rw [startBits_commutes h]
    exact bitLoop_commutes (k := .more [3]) (uBusRbit_commutes h) (storeBit_commutes h) h.tmp h.setTmp fun _ => rfl
  · exact bitLoop_commutes (k := .more [3]) (uBusRbit_commutes h) (storeBit_commutes h) h.tmp h.setTmp fun _ => rfl
  · exact callAt_commutes (uBusWbit_commutes h _) fun _ => rfl
  · simp only [h.tmp, h.res, MicroResult.map_done]
  · rfl

theorem uTempRead_commutes : Micro.Commutes f uTempRead := by
  intro pos s
  unfold uTempRead
  rw [h.cfg]
  refine calls_commutes (fun m hm => ?_) pos s
  simp only [List.mem_cons, List.not_mem_nil, or_false] at hm
  rcases hm with rfl | rfl | rfl | rfl | rfl
  · exact uBusStart_commutes h
  · exact uBusWbyte_commutes h _
  · exact uBusRbyte_commutes h _
  · exact uBusStop_commutes h
  · exact once_commutes fun t => by simp only [h.setRaw, MicroResult.map_done]

/-- A change that also leaves the smoothing filter alone. -/
structure FilterSafe (f : State → State) : Prop extends BusSafe f where
  smooth : ∀ t, (f t).smooth = t.smooth
  setSmooth : ∀ t x, (f t).setSmooth x = f (t.setSmooth x)
  raw : ∀ t, (f t).lat.raw = t.lat.raw
  mean : ∀ t, latchMean (f t) = f (latchMean t)

omit h in
theorem uTempSmooth_commutes (h : FilterSafe f) (x : Byte) : Micro.Commutes f (uTempSmooth x) := by
  refine straight_commutes fun u hu s => ?_
  simp only [List.mem_cons, List.not_mem_nil, or_false] at hu
  rcases hu with rfl | rfl | rfl | rfl
  · simp only [insertSample, h.smooth, h.setSmooth]
  · simp only [advanceCursor, h.smooth, h.setSmooth]
  · simp only [sumWindow, h.smooth, h.tmp, h.setTmp]
  · exact h.mean s

omit h in
theorem uTempPreload_commutes (h : FilterSafe f) (t : Byte) : Micro.Commutes f (uTempPreload t) :=
  once_commutes fun s => by simp only [fillWindow, h.smooth, h.setSmooth, h.tmp, h.setTmp, MicroResult.map_done]

omit h in
theorem uTempSmoothr_commutes (h : FilterSafe f) : Micro.Commutes f uTempSmoothr := by
  intro pos s
  simp only [uTempSmoothr, h.raw]
  exact calls_commutes (by simpa using uTempSmooth_commutes h s.lat.raw) pos s

omit h in
theorem uTempPreloadr_commutes (h : FilterSafe f) : Micro.Commutes f uTempPreloadr := by
  intro pos s
  simp only [uTempPreloadr, h.raw]
  exact calls_commutes (by simpa using uTempPreload_commutes h s.lat.raw) pos s

end Sys2Proof.Machine
end

