-- ==== Sys2Proof/Laws/Decode.lean ====
section
/-! SUPPORT. The fields of a packed word are the fields it was packed from (30_encoding.md R90). -/

namespace Sys2Proof

@[simp] theorem unitField_packWord (u f : BitVec 4) (o : Byte) : unitField (packWord u f o) = u := by
  apply BitVec.eq_of_toNat_eq
  simp only [unitField, packWord, BitVec.extractLsb'_toNat, BitVec.toNat_append, Nat.shiftLeft_eq, Nat.shiftRight_eq_div_pow]
  rw [← Nat.shiftLeft_eq, ← Nat.shiftLeft_eq, ← Nat.shiftLeft_add_eq_or_of_lt o.isLt, ← Nat.shiftLeft_add_eq_or_of_lt f.isLt]
  have := u.isLt; have := f.isLt; have := o.isLt
  simp only [Nat.shiftLeft_eq]
  omega

@[simp] theorem funcField_packWord (u f : BitVec 4) (o : Byte) : funcField (packWord u f o) = f := by
  apply BitVec.eq_of_toNat_eq
  simp only [funcField, packWord, BitVec.extractLsb'_toNat, BitVec.toNat_append, Nat.shiftLeft_eq, Nat.shiftRight_eq_div_pow]
  rw [← Nat.shiftLeft_eq, ← Nat.shiftLeft_eq, ← Nat.shiftLeft_add_eq_or_of_lt o.isLt, ← Nat.shiftLeft_add_eq_or_of_lt f.isLt]
  have := u.isLt; have := f.isLt; have := o.isLt
  simp only [Nat.shiftLeft_eq]
  omega

@[simp] theorem opdField_packWord (u f : BitVec 4) (o : Byte) : opdField (packWord u f o) = o := by
  apply BitVec.eq_of_toNat_eq
  simp only [opdField, packWord, BitVec.extractLsb'_toNat, BitVec.toNat_append, Nat.shiftLeft_eq, Nat.shiftRight_eq_div_pow]
  rw [← Nat.shiftLeft_eq, ← Nat.shiftLeft_eq, ← Nat.shiftLeft_add_eq_or_of_lt o.isLt, ← Nat.shiftLeft_add_eq_or_of_lt f.isLt]
  have := u.isLt; have := f.isLt; have := o.isLt
  simp only [Nat.shiftLeft_eq]
  omega

/-- A word is its three fields put together. -/
theorem packWord_fields (w : CmdWord) : packWord (unitField w) (funcField w) (opdField w) = w := by
  apply BitVec.eq_of_toNat_eq
  simp only [unitField, funcField, opdField, packWord, BitVec.extractLsb'_toNat, BitVec.toNat_append,
    Nat.shiftRight_eq_div_pow]
  rw [← Nat.shiftLeft_add_eq_or_of_lt (by omega), ← Nat.shiftLeft_add_eq_or_of_lt (by omega)]
  have := w.isLt
  simp only [Nat.shiftLeft_eq]
  omega

end Sys2Proof
end

