-- ==== Sys2Proof/Laws/Memory.lean ====
section
/-! SUPPORT. What memory operations do: read after write, every other slot unchanged, the canonical form kept. -/

namespace Sys2Proof.Machine

theorem Memory.lookup_write (m : Memory) (a : Nat) (v : Byte) (b : Nat) :
    (m.write a v).lookup b = if b = a then some v else m.lookup b := by
  induction m with
  | nil => simp [Memory.write, Memory.lookup]
  | cons c m ih =>
    obtain ⟨k, w⟩ := c
    simp only [Memory.write]
    split
    · simp [Memory.lookup]
    · split
      · subst_vars
        by_cases h : b = k <;> simp [Memory.lookup, h]
      · rename_i h1 h2
        by_cases h : b = k
        · subst h
          simp [Memory.lookup, Ne.symm h2]
        · simp [Memory.lookup, h, ih]

@[simp] theorem Memory.lookup_write_self (m : Memory) (a : Nat) (v : Byte) : (m.write a v).lookup a = some v := by
  simp [Memory.lookup_write]

theorem Memory.lookup_write_other (m : Memory) {a b : Nat} (v : Byte) (h : b ≠ a) :
    (m.write a v).lookup b = m.lookup b := by
  simp [Memory.lookup_write, h]

theorem Memory.read_write (id : MemId) (m : Memory) (a : Nat) (v : Byte) (b : Nat) :
    (m.write a v).read id b = if b = a then v else m.read id b := by
  unfold Memory.read
  rw [Memory.lookup_write]
  split <;> simp

@[simp] theorem Memory.read_write_self (id : MemId) (m : Memory) (a : Nat) (v : Byte) :
    (m.write a v).read id a = v := by
  simp [Memory.read_write]

theorem Memory.read_write_other (id : MemId) (m : Memory) {a b : Nat} (v : Byte) (h : b ≠ a) :
    (m.write a v).read id b = m.read id b := by
  simp [Memory.read_write, h]

/-- A written slot stays written. -/
theorem Memory.lookup_write_ne_none (m : Memory) (a : Nat) (v : Byte) {b : Nat} (h : m.lookup b ≠ none) :
    (m.write a v).lookup b ≠ none := by
  rw [Memory.lookup_write]
  split <;> simp [h]

theorem Memory.risingFrom_write (m : Memory) (lo a : Nat) (v : Byte) (h : m.risingFrom lo = true) (ha : lo ≤ a) :
    (m.write a v).risingFrom lo = true := by
  induction m generalizing lo with
  | nil => simp [Memory.write, Memory.risingFrom, ha]
  | cons c m ih =>
    obtain ⟨k, w⟩ := c
    simp only [Memory.risingFrom, Bool.and_eq_true, decide_eq_true_eq] at h
    simp only [Memory.write]
    split
    · rename_i hlt
      simp only [Memory.risingFrom, Bool.and_eq_true, decide_eq_true_eq]
      exact ⟨ha, by omega, h.2⟩
    · split
      · subst_vars
        simp only [Memory.risingFrom, Bool.and_eq_true, decide_eq_true_eq]
        exact ⟨ha, h.2⟩
      · simp only [Memory.risingFrom, Bool.and_eq_true, decide_eq_true_eq]
        exact ⟨h.1, ih (k + 1) h.2 (by omega)⟩

theorem Memory.all_write (p : Host.Cell → Bool) (m : Memory) (a : Nat) (v : Byte) (h : m.all p = true)
    (hp : p (a, v) = true) : (m.write a v).all p = true := by
  induction m with
  | nil => simp [Memory.write, hp]
  | cons c m ih =>
    obtain ⟨k, w⟩ := c
    simp only [List.all_cons, Bool.and_eq_true] at h
    simp only [Memory.write]
    split
    · simp [hp, h.1, h.2]
    · split <;> simp [hp, h.1, h.2, ih h.2]

/-- A write inside the memory keeps the canonical form. -/
theorem Memory.wf_write (m : Memory) (size a : Nat) (v : Byte) (h : m.wf size = true) (ha : a < size) :
    (m.write a v).wf size = true := by
  simp only [Memory.wf, Bool.and_eq_true] at h ⊢
  exact ⟨Memory.risingFrom_write m 0 a v h.1 (Nat.zero_le a), Memory.all_write _ m a v h.2 (by simpa using ha)⟩

theorem Memory.wf_nil (size : Nat) : Memory.wf size [] = true := rfl

theorem Memory.fill_succ (m : Memory) (n : Nat) (v : Byte) : m.fill (n + 1) v = (m.fill n v).write n v := by
  simp [Memory.fill, List.range_succ]

theorem Memory.wf_fill (m : Memory) (size n : Nat) (v : Byte) (h : m.wf size = true) (hn : n ≤ size) :
    (m.fill n v).wf size = true := by
  induction n with
  | zero => exact h
  | succ n ih =>
    rw [Memory.fill_succ]
    exact Memory.wf_write _ _ _ _ (ih (by omega)) (by omega)

/-- A fill writes the slots below n and no other. -/
theorem Memory.lookup_fill (m : Memory) (n : Nat) (v : Byte) (a : Nat) :
    (m.fill n v).lookup a = if a < n then some v else m.lookup a := by
  induction n with
  | zero => simp [Memory.fill]
  | succ n ih =>
    rw [Memory.fill_succ, Memory.lookup_write, ih]
    by_cases h1 : a = n
    · simp [h1]
    · by_cases h2 : a < n
      · simp [h1, h2, Nat.lt_succ_of_lt h2]
      · have h3 : ¬ a < n + 1 := by omega
        simp [h1, h2, h3]

theorem Memory.read_fill (id : MemId) (m : Memory) (n : Nat) (v : Byte) (a : Nat) :
    (m.fill n v).read id a = if a < n then v else m.read id a := by
  unfold Memory.read
  rw [Memory.lookup_fill]
  split <;> simp

/-- n bytes sum to at most n times 255. -/
theorem Memory.sumTo_le (id : MemId) (m : Memory) (n : Nat) : m.sumTo id n ≤ n * 255 := by
  unfold Memory.sumTo
  induction n with
  | zero => simp
  | succ n ih =>
    have h := (m.read id n).isLt
    simp only [List.range_succ, List.map_append, List.sum_append, List.map_cons, List.map_nil, List.sum_cons, List.sum_nil]
    omega

end Sys2Proof.Machine
end

