-- ==== Sys2Proof/Laws/PerInstr.lean ====
section
/-! SUPPORT. The family EncodingRow: the word of every operation is covered by a row of the opcode map (30_encoding.md R92). -/

namespace Sys2Proof.Laws.EncodingRow

/-- The word of i is covered by a row of the map. -/
def Statement (i : Instr) : Prop := ∃ r ∈ opcodeRows, r.covers (encode i) = true

theorem ofPattern {i : Instr} (h : opcodeRows.any (fun r => r.covers (encode i)) = true) : Statement i := by
  simpa [Statement, List.any_eq_true] using h

theorem mask_packWord (u f : BitVec 4) (o : Byte) : packWord u f o &&& 0xFF00#16 = packWord u f 0#8 := by
  simp only [packWord]
  rw [show (0xFF00#16 : BitVec 16) = (0xF#4 ++ 0xF#4 ++ 0x00#8 : BitVec 16) by decide]
  rw [BitVec.and_append, BitVec.and_append]
  have all (x : BitVec 4) : x &&& 0xF#4 = x := BitVec.and_allOnes
  rw [all, all]
  simp

theorem seqNop : Statement .seqNop := ofPattern (by decide)

theorem seqJmp (x : Byte) : Statement (.seqJmp x) := by
  refine ⟨⟨0x0100#16, 0xFF00#16⟩, by decide, ?_⟩
  simp only [OpcodeRow.covers, encode, mask_packWord]
  decide

theorem seqEnd : Statement .seqEnd := ofPattern (by decide)

theorem uartInit : Statement .uartInit := ofPattern (by decide)

theorem uartSend (x : Byte) : Statement (.uartSend x) := by
  refine ⟨⟨0x1100#16, 0xFF00#16⟩, by decide, ?_⟩
  simp only [OpcodeRow.covers, encode, mask_packWord]
  decide

theorem uartAvail : Statement .uartAvail := ofPattern (by decide)

theorem uartRecv : Statement .uartRecv := ofPattern (by decide)

theorem busInit : Statement .busInit := ofPattern (by decide)

theorem busStart : Statement .busStart := ofPattern (by decide)

theorem busStop : Statement .busStop := ofPattern (by decide)

theorem busWbit (x : Byte) : Statement (.busWbit x) := by
  refine ⟨⟨0x2300#16, 0xFF00#16⟩, by decide, ?_⟩
  simp only [OpcodeRow.covers, encode, mask_packWord]
  decide

theorem busRbit : Statement .busRbit := ofPattern (by decide)

theorem busWbyte (x : Byte) : Statement (.busWbyte x) := by
  refine ⟨⟨0x2500#16, 0xFF00#16⟩, by decide, ?_⟩
  simp only [OpcodeRow.covers, encode, mask_packWord]
  decide

theorem busRbyte (x : Byte) : Statement (.busRbyte x) := by
  refine ⟨⟨0x2600#16, 0xFF00#16⟩, by decide, ?_⟩
  simp only [OpcodeRow.covers, encode, mask_packWord]
  decide

theorem tempRead : Statement .tempRead := ofPattern (by decide)

theorem tempSmooth (x : Byte) : Statement (.tempSmooth x) := by
  refine ⟨⟨0x3100#16, 0xFF00#16⟩, by decide, ?_⟩
  simp only [OpcodeRow.covers, encode, mask_packWord]
  decide

theorem tempPreload (x : Byte) : Statement (.tempPreload x) := by
  refine ⟨⟨0x3200#16, 0xFF00#16⟩, by decide, ?_⟩
  simp only [OpcodeRow.covers, encode, mask_packWord]
  decide

theorem tempSmoothr : Statement .tempSmoothr := ofPattern (by decide)

theorem tempPreloadr : Statement .tempPreloadr := ofPattern (by decide)

theorem ctlSetpt : Statement .ctlSetpt := ofPattern (by decide)

theorem ctlOvr : Statement .ctlOvr := ofPattern (by decide)

theorem ctlHyst : Statement .ctlHyst := ofPattern (by decide)

theorem ctlStatus : Statement .ctlStatus := ofPattern (by decide)

theorem ctlSleep : Statement .ctlSleep := ofPattern (by decide)

theorem ctlIter : Statement .ctlIter := ofPattern (by decide)

theorem ctlBoot : Statement .ctlBoot := ofPattern (by decide)

theorem evtRxc (x : Byte) : Statement (.evtRxc x) := by
  refine ⟨⟨0xE000#16, 0xFF00#16⟩, by decide, ?_⟩
  simp only [OpcodeRow.covers, encode, mask_packWord]
  decide

theorem evtTxr : Statement .evtTxr := ofPattern (by decide)

theorem evtTick : Statement .evtTick := ofPattern (by decide)

end Sys2Proof.Laws.EncodingRow
end

