-- ==== Sys2Proof/Laws/Runs.lean ====
section
/-! SUPPORT. Whole runs of an operation: the run of a straight list, of a call seen from its caller, and of the machine's exec. -/

namespace Sys2Proof.Machine

/-- m, from position p in state s, is done after n micro-steps, in state t. -/
inductive Micro.Runs (m : Micro) : List Nat → State → Nat → State → Prop where
  | last {p : List Nat} {s t : State} : m p s = .done t → Micro.Runs m p s 1 t
  | more {p p' : List Nat} {s s' t : State} {n : Nat} :
      m p s = .more p' s' → Micro.Runs m p' s' n t → Micro.Runs m p s (n + 1) t

/-- An operation of one micro-step. -/
theorem once_runs {f : State → MicroResult} {s t : State} (h : f s = .done t) : Micro.Runs (once f) [1] s 1 t :=
  .last h

theorem straight_runs_from (us : List (State → State)) (k : Nat) (s : State) (hk : k < us.length) :
    Micro.Runs (straight us) [k + 1] s (us.length - k) ((us.drop k).foldl (fun s u => u s) s) := by
  have hg : us[k]? = some us[k] := List.getElem?_eq_getElem hk
  rw [List.drop_eq_getElem_cons hk, List.foldl_cons]
  by_cases e : k + 1 = us.length
  · have h1 : us.length - k = 1 := by omega
    rw [h1, List.drop_eq_nil_of_le (by omega), List.foldl_nil]
    exact .last (by simp [straight, hg, e])
  · have h1 : us.length - k = us.length - (k + 1) + 1 := by omega
    rw [h1]
    exact .more (by simp [straight, hg, e]) (straight_runs_from us (k + 1) (us[k] s) (by omega))
termination_by us.length - k

/-- A straight list of micro-steps runs them in order. -/
theorem straight_runs (us : List (State → State)) (s : State) (h : us ≠ []) :
    Micro.Runs (straight us) [1] s us.length (us.foldl (fun s u => u s) s) := by
  have := straight_runs_from us 0 s (List.length_pos_of_ne_nil h)
  simpa using this

/-- An operation begins at a position, never at no position. -/
def Micro.Begins (m : Micro) : Prop := ∀ s, m [] s = .stray

theorem Micro.Runs.pos_ne {m : Micro} (hm : m.Begins) {p : List Nat} {s t : State} {n : Nat} (h : m.Runs p s n t) :
    p ≠ [] := by
  rintro rfl
  cases h with
  | last e => rw [hm] at e; cases e
  | more e _ => rw [hm] at e; cases e

theorem straight_begins (us : List (State → State)) : (straight us).Begins := fun _ => rfl
theorem once_begins (f : State → MicroResult) : (once f).Begins := fun _ => rfl
theorem calls_begins (ms : List Micro) : (calls ms).Begins := fun _ => rfl

/-- A call that the caller goes on from: the callee's run, then the caller's. `I` is what the call's form may rest on. -/
theorem Micro.Runs.inCall {M m : Micro} {k : Nat} {I : State → Prop} {cont : State → MicroResult}
    (hM : ∀ q s, q ≠ [] → I s → M (k :: q) s = callAt k q m s cont) (hI : m.Keeps fun s t => I s → I t) (hm : m.Begins)
    {p p' : List Nat} {s t t' u : State} {n n' : Nat} (h : m.Runs p s n t) (hs : I s) (hk : cont t = .more p' t')
    (r : M.Runs p' t' n' u) : M.Runs (k :: p) s (n' + n) u := by
  induction h with
  | @last p s t e =>
    have hp : p ≠ [] := (Micro.Runs.last e).pos_ne hm
    exact .more (by rw [hM p s hp hs, callAt, if_neg hp, e]; exact hk) r
  | @more p q s s' t n e h ih =>
    have hp : p ≠ [] := (Micro.Runs.more e h).pos_ne hm
    have hs' : I s' := by
      have := hI p s
      rw [e] at this
      exact this hs
    exact .more (by rw [hM p s hp hs, callAt, if_neg hp, e]) (ih hs' hk)

/-- The caller's last call. -/
theorem Micro.Runs.inLastCall {M m : Micro} {k : Nat} {I : State → Prop} {cont : State → MicroResult}
    (hM : ∀ q s, q ≠ [] → I s → M (k :: q) s = callAt k q m s cont) (hI : m.Keeps fun s t => I s → I t) (hm : m.Begins)
    {p : List Nat} {s t u : State} {n : Nat} (h : m.Runs p s n t) (hs : I s) (hk : cont t = .done u) :
    M.Runs (k :: p) s n u := by
  induction h with
  | @last p s t e =>
    have hp : p ≠ [] := (Micro.Runs.last e).pos_ne hm
    exact .last (by rw [hM p s hp hs, callAt, if_neg hp, e]; exact hk)
  | @more p q s s' t n e h ih =>
    have hp : p ≠ [] := (Micro.Runs.more e h).pos_ne hm
    have hs' : I s' := by
      have := hI p s
      rw [e] at this
      exact this hs
    exact .more (by rw [hM p s hp hs, callAt, if_neg hp, e]) (ih hs' hk)

/-- A run may be begun anywhere that does the same first micro-step. -/
theorem Micro.Runs.ofSame {m : Micro} {p q : List Nat} {s s' t : State} {n : Nat} (e : m p s = m q s')
    (h : m.Runs q s' n t) : m.Runs p s n t := by
  cases h with
  | last h => exact .last (e.trans h)
  | more h r => exact .more (e.trans h) r

/-- Neither reads nor writes the sequencer's registers. -/
def Micro.SeqFree (m : Micro) : Prop := ∀ q : Sequencer, m.Commutes fun s => s.setSeq q

/-- A run of the operation is a run of exec, and the sequencer advances at its end (R221). -/
theorem Micro.Runs.execTimes {i : Instr} {m : Micro} (hi : microOf i = some m) (hq : m.SeqFree) {p : List Nat}
    {s t : State} {n : Nat} (h : m.Runs p s n t) (pc : BitVec 8) :
    execTimes n i (s.setSeq { pc := pc, ustep := p }) = .next (t.setSeq { pc := pc + 1#8, ustep := [1] }) := by
  induction h with
  | @last p s t e =>
    have := hq { pc := pc, ustep := p } p s
    simp only [e, MicroResult.map_done] at this
    simp only [Machine.execTimes, exec_eq_runFg hi, runFg_of_done (m := m) (s := s.setSeq { pc := pc, ustep := p }) this]
    rfl
  | @more p p' s s' t n e _ ih =>
    have := hq { pc := pc, ustep := p } p s
    simp only [e, MicroResult.map_more] at this
    simp only [Machine.execTimes, exec_eq_runFg hi, runFg_of_more (m := m) (s := s.setSeq { pc := pc, ustep := p }) this]
    exact ih

theorem busSafe_setSeq (q : Sequencer) : BusSafe fun s => s.setSeq q :=
  ⟨fun _ => rfl, fun _ _ => rfl, fun _ _ => rfl, fun _ => rfl, fun _ => rfl, fun _ _ => rfl, fun _ => rfl, fun _ _ => rfl,
    fun _ => rfl, fun _ => rfl⟩

theorem filterSafe_setSeq (q : Sequencer) : FilterSafe fun s => s.setSeq q :=
  ⟨busSafe_setSeq q, fun _ => rfl, fun _ _ => rfl, fun _ => rfl, fun _ => rfl⟩

theorem uUartInit_seqFree : uUartInit.SeqFree := fun _ => once_commutes fun _ => rfl

theorem uUartSend_seqFree (b : Byte) : (uUartSend b).SeqFree := by
  intro q pos s
  unfold uUartSend
  split
  · cases h : s.ctl.txen <;> simp [h]
    rfl
  · by_cases h : s.tmp.h1 = s.tx.tail <;> simp [h]
  all_goals rfl

theorem uUartAvail_seqFree : uUartAvail.SeqFree := fun q => once_commutes fun s => by
  cases h : s.ctl.rxen <;> simp [h]
  rfl

theorem uUartRecv_seqFree : uUartRecv.SeqFree := by
  intro q pos s
  unfold uUartRecv
  split
  · cases h : s.ctl.rxen <;> cases h' : s.rx.isEmpty <;> simp [h, h']
  all_goals rfl

theorem uCtlSetpt_seqFree : uCtlSetpt.SeqFree := fun _ => once_commutes fun _ => rfl
theorem uCtlOvr_seqFree : uCtlOvr.SeqFree := fun _ => once_commutes fun _ => rfl
theorem uCtlSleep_seqFree : uCtlSleep.SeqFree := fun _ => once_commutes fun _ => rfl

theorem uCtlHyst_seqFree : uCtlHyst.SeqFree := fun q => once_commutes fun s => by
  cases hc : s.coil <;> cases h1 : turnsOff s.cfg.hyst.val s.lat <;> cases h2 : turnsOn s.lat <;>
    simp [hysteresis, hc, h1, h2] <;> rfl

theorem uCtlStatus_seqFree : uCtlStatus.SeqFree := by
  intro q pos s
  unfold uCtlStatus
  split
  · rfl
  · simp only [State.setSeq_tmp]
    split
    · rfl
    · refine callAt_commutes (uUartSend_seqFree _ q) fun t => ?_
      split <;> rfl
  · rfl

theorem uCtlIter_seqFree : uCtlIter.SeqFree := by
  intro q
  refine calls_commutes fun m hm => ?_
  simp only [List.mem_cons, List.not_mem_nil, or_false] at hm
  rcases hm with rfl | rfl | rfl | rfl | rfl | rfl | rfl
  · exact uCtlSetpt_seqFree q
  · exact uTempRead_commutes (busSafe_setSeq q)
  · exact uTempSmoothr_commutes (filterSafe_setSeq q)
  · exact uCtlOvr_seqFree q
  · exact uCtlHyst_seqFree q
  · exact uCtlStatus_seqFree q
  · exact uCtlSleep_seqFree q

theorem uCtlBoot_seqFree : uCtlBoot.SeqFree := by
  intro q
  refine calls_commutes fun m hm => ?_
  simp only [List.mem_cons, List.not_mem_nil, or_false] at hm
  rcases hm with rfl | rfl | rfl | rfl
  · exact uUartInit_seqFree q
  · exact uBusInit_commutes (busSafe_setSeq q)
  · exact uTempRead_commutes (busSafe_setSeq q)
  · exact uTempPreloadr_commutes (filterSafe_setSeq q)

/-- No operation of the foreground reads or writes the sequencer's registers. -/
theorem microOf_seqFree {i : Instr} {m : Micro} (h : microOf i = some m) : m.SeqFree := by
  intro q
  cases i <;> simp only [microOf, Option.some.injEq, reduceCtorEq] at h <;> subst h
  · exact once_commutes fun _ => rfl
  · exact once_commutes fun _ => rfl
  · exact uUartInit_seqFree q
  · exact uUartSend_seqFree _ q
  · exact uUartAvail_seqFree q
  · exact uUartRecv_seqFree q
  · exact uBusInit_commutes (busSafe_setSeq q)
  · exact uBusStart_commutes (busSafe_setSeq q)
  · exact uBusStop_commutes (busSafe_setSeq q)
  · exact uBusWbit_commutes (busSafe_setSeq q) _
  · exact uBusRbit_commutes (busSafe_setSeq q)
  · exact uBusWbyte_commutes (busSafe_setSeq q) _
  · exact uBusRbyte_commutes (busSafe_setSeq q) _
  · exact uTempRead_commutes (busSafe_setSeq q)
  · exact uTempSmooth_commutes (filterSafe_setSeq q) _
  · exact uTempPreload_commutes (filterSafe_setSeq q) _
  · exact uTempSmoothr_commutes (filterSafe_setSeq q)
  · exact uTempPreloadr_commutes (filterSafe_setSeq q)
  · exact uCtlSetpt_seqFree q
  · exact uCtlOvr_seqFree q
  · exact uCtlHyst_seqFree q
  · exact uCtlStatus_seqFree q
  · exact uCtlSleep_seqFree q
  · exact uCtlIter_seqFree q
  · exact uCtlBoot_seqFree q

end Sys2Proof.Machine
end

