-- ==== Sys2Proof/Tests/Slice0.lean ====
section
/-! SUPPORT. Tests. Expected results come from 95_test_vectors.md (V1 to V67), from the examples of the rules named, or from hand
calculation. The second half shows, for every obligation with hypotheses, a concrete state and operands that meet them all. -/

namespace Sys2Proof.Tests

open Sys2Proof Sys2Proof.Machine

/-! ### Well-formedness: each check refuses an ill-formed term -/

theorem test_event_in_program_is_ill_formed :
    (Instr.evtRxc 0x69#8).wellFormed .program = false ∧ Instr.evtTxr.wellFormed .program = false ∧
      Instr.evtTick.wellFormed .program = false := by decide
theorem test_command_in_schedule_is_ill_formed :
    Instr.ctlBoot.wellFormed .schedule = false ∧ (Instr.uartSend 0#8).wellFormed .schedule = false := by decide
theorem test_well_formed_sites : Instr.ctlBoot.wellFormed .program = true ∧ Instr.evtTick.wellFormed .schedule = true := by
  decide
set_option maxRecDepth 4096 in
theorem test_program_of_257_words_is_refused :
    progSizeOk (List.replicate 257 0#16) = false ∧ progSizeOk (List.replicate 256 0#16) = true := by decide
theorem test_zero_delay_is_refused :
    ({ Config.vectors with tBit := 0 }).wellFormed = false ∧ ({ Config.vectors with tLoop := 0 }).wellFormed = false ∧
      Config.vectors.wellFormed = true := by decide
theorem test_memory_out_of_order_is_refused : Memory.wf 4 [(1, 0#8), (0, 0#8)] = false := by decide
theorem test_memory_repeat_is_refused : Memory.wf 4 [(1, 0#8), (1, 0#8)] = false := by decide
theorem test_memory_out_of_range_is_refused : Memory.wf 4 [(4, 0#8)] = false ∧ Memory.wf 4 [(3, 0#8)] = true := by decide

/-! ### Decoding: words written out bit by bit, unit func opd, from R90 and R92 -/

theorem test_decode_seq :
    decode 0b0000_0000_00000000#16 = .ok .seqNop ∧ decode 0b0000_0001_11111110#16 = .ok (.seqJmp 254#8) ∧
      decode 0b0000_0010_00000000#16 = .ok .seqEnd := by decide
theorem test_decode_uart :
    decode 0b0001_0000_00000000#16 = .ok .uartInit ∧ decode 0b0001_0001_01000001#16 = .ok (.uartSend 0x41#8) ∧
      decode 0b0001_0010_00000000#16 = .ok .uartAvail ∧ decode 0b0001_0011_00000000#16 = .ok .uartRecv := by decide
theorem test_decode_bus :
    decode 0b0010_0000_00000000#16 = .ok .busInit ∧ decode 0b0010_0001_00000000#16 = .ok .busStart ∧
      decode 0b0010_0010_00000000#16 = .ok .busStop ∧ decode 0b0010_0011_00000111#16 = .ok (.busWbit 7#8) ∧
      decode 0b0010_0100_00000000#16 = .ok .busRbit ∧ decode 0b0010_0101_10010001#16 = .ok (.busWbyte 0x91#8) ∧
      decode 0b0010_0110_00000001#16 = .ok (.busRbyte 1#8) := by decide
theorem test_decode_temp :
    decode 0b0011_0000_00000000#16 = .ok .tempRead ∧ decode 0b0011_0001_00100100#16 = .ok (.tempSmooth 36#8) ∧
      decode 0b0011_0010_00010100#16 = .ok (.tempPreload 20#8) ∧ decode 0b0011_0011_00000000#16 = .ok .tempSmoothr ∧
      decode 0b0011_0100_00000000#16 = .ok .tempPreloadr := by decide
theorem test_decode_ctl :
    decode 0b0100_0000_00000000#16 = .ok .ctlSetpt ∧ decode 0b0100_0001_00000000#16 = .ok .ctlOvr ∧
      decode 0b0100_0010_00000000#16 = .ok .ctlHyst ∧ decode 0b0100_0011_00000000#16 = .ok .ctlStatus ∧
      decode 0b0100_0100_00000000#16 = .ok .ctlSleep ∧ decode 0b0100_0101_00000000#16 = .ok .ctlIter ∧
      decode 0b0100_0110_00000000#16 = .ok .ctlBoot := by decide
theorem test_decode_evt :
    decode 0b1110_0000_01101001#16 = .ok (.evtRxc 0x69#8) ∧ decode 0b1110_0001_00000000#16 = .ok .evtTxr ∧
      decode 0b1110_0010_00000000#16 = .ok .evtTick := by decide
/-- V65 and V66. -/
theorem test_decode_reserved :
    decode 0x1001#16 = .error .nonzeroOperand ∧ decode 0x5000#16 = .error .reservedUnit ∧
      decode 0x1400#16 = .error .reservedFunc ∧ decode 0x2700#16 = .error .reservedFunc ∧
      decode 0x4700#16 = .error .reservedFunc ∧ decode 0xF000#16 = .error .reservedUnit := by decide
theorem test_decodeTableWord :
    decodeTableWord 16 0x1141 = some (.uartSend 0x41#8) ∧ decodeTableWord 16 0xE100 = some .evtTxr ∧
      decodeTableWord 16 0x1001 = none ∧ decodeTableWord 24 0x1000 = none := by decide

/-! ### One step each -/

/-- The state of the vectors after `UART.INIT`, which is what "after Init" means there (R113). -/
def inited : State :=
  { State.reset with ctl := { rxen := true, txen := true, rxcie := true, txie := false, baudDiv := 1,
                              frame := { dataBits := 8, stopBits := 1, parity := false } } }

/-- The command of word w at index 0, at position p, with nothing scheduled. -/
def at' (w : CmdWord) (p : List Nat) (s : State) : State := { s with prog := [w], seq := { pc := 0#8, ustep := p } }

/-- The step answers a next state of which f is true. -/
def after (r : Result) (f : State → Bool) : Bool :=
  match r with
  | .next t => f t
  | .fault _ | .refused _ => false

/-- The transmit ring's indices. -/
def txAt (h t : Byte) (s : State) : State := { s with tx := { s.tx with head := h, tail := t } }

/-- The receive ring's indices. -/
def rxAt (h t : Byte) (s : State) : State := { s with rx := { s.rx with head := h, tail := t } }

/-- A byte waits in the serial hardware. -/
def arrived (d : Byte) (s : State) : State := { s with ser := { s.ser with rxHw := some d } }

/-- V1. -/
theorem test_uart_init :
    after (step (at' 0x1000#16 [1] State.reset)) (fun t => t.ctl.rxen && t.ctl.txen && t.ctl.rxcie && !t.ctl.txie &&
      t.rx.head == 0#8 && t.seq == { pc := 1#8, ustep := [1] }) = true := by decide
/-- V2. -/
theorem test_send_before_init_is_refused : step (at' 0x1141#16 [1] State.reset) = .refused .beforeInit := by rfl
theorem test_avail_and_recv_before_init_are_refused :
    step (at' 0x1200#16 [1] State.reset) = .refused .beforeInit ∧
      step (at' 0x1300#16 [1] State.reset) = .refused .beforeInit := ⟨rfl, rfl⟩
/-- R114's example: head 3, tail 1, `UART.SEND 0x41` puts 0x41 in slot 0. -/
theorem test_send_example :
    after (execTimes 5 (.uartSend 0x41#8) (at' 0x1141#16 [1] (txAt 3#8 1#8 inited))) (fun t =>
      t.tx.head == 0#8 && t.tx.buf.lookup 0 == some 0x41#8 && t.ctl.txie && ringCount 4 t.tx.head t.tx.tail == 3) = true := by
  decide
/-- The ring full: u2 holds. -/
theorem test_send_holds_when_full :
    after (step (at' 0x1144#16 [2] (txAt 3#8 0#8 { inited with tmp := { inited.tmp with h1 := 0#8 } })))
      (fun t => t.seq.ustep == [2] && t.tx.head == 3#8) = true := by decide
/-- R115's examples. -/
theorem test_avail :
    after (step (at' 0x1200#16 [1] (rxAt 2#8 2#8 inited))) (fun t => t.lat.res == 0#8) = true ∧
      after (step (at' 0x1200#16 [1] (rxAt 0#8 3#8 inited))) (fun t => t.lat.res == 1#8) = true := by decide
/-- R116's example: tail 3, head 1, slot 0 holds 0x68. -/
theorem test_recv_example :
    after (execTimes 4 .uartRecv (at' 0x1300#16 [1]
      { inited with rx := { buf := [(0, 0x68#8), (1, 0x69#8)], head := 1#8, tail := 3#8 } }))
      (fun t => t.rx.tail == 0#8 && t.lat.res == 0x68#8) = true := by decide
theorem test_recv_holds_when_empty :
    after (step (at' 0x1300#16 [1] inited)) (fun t => t.seq.ustep == [1] && t.lat.res == 0#8) = true := by decide
/-- R117's example: head 1, tail 3, `EVT.RXC 0x69`. -/
theorem test_rxc_example :
    after (exec (.evtRxc 0x69#8) (arrived 0x69#8 (rxAt 1#8 3#8 inited))) (fun t =>
      t.rx.head == 2#8 && t.rx.buf.lookup 2 == some 0x69#8 && t.ser.rxHw == none) = true := by decide
/-- V11's fourth byte: the head meets the tail and the ring reads empty. -/
theorem test_rxc_overflow :
    after (exec (.evtRxc 0x64#8) (arrived 0x64#8 (rxAt 3#8 0#8 inited))) (fun t =>
      t.rx.head == 0#8 && t.rx.isEmpty && t.rx.buf.lookup 0 == some 0x64#8) = true := by decide
/-- R118's example: head 0, tail 2, slot 3 holds 0x4F. -/
theorem test_txr_example :
    after (exec .evtTxr { inited with
        tx := { buf := [(0, 0x50#8), (3, 0x4F#8)], head := 0#8, tail := 2#8 }, ctl := { inited.ctl with txie := true } })
      (fun t => t.tx.tail == 3#8 && t.trace.txWire == [0x4F#8] && !t.ser.txHwReady && t.ctl.txie) = true := by decide
/-- V17. -/
theorem test_txr_empty_disarms :
    after (exec .evtTxr { txAt 1#8 1#8 inited with ctl := { inited.ctl with txie := true } })
      (fun t => !t.ctl.txie && t.ser.txHwReady && t.tx.tail == 1#8) = true := by decide

/-- V21. -/
theorem test_bus_init :
    after (execTimes 6 .busInit (at' 0x2000#16 [1] State.reset)) (fun t =>
      t.trace.bus == [.sdaLow, .sclLow, .delay, .sclRel, .sdaRel, .delay] && t.bus == { scl := true, sda := true }) = true := by
  decide
/-- V25. -/
theorem test_bus_start :
    after (execTimes 4 .busStart (at' 0x2100#16 [1] State.reset)) (fun t =>
      t.trace.bus == [.sdaLow, .delay, .sclLow, .delay] && t.bus == { scl := false, sda := false }) = true := by decide
/-- V26. -/
theorem test_bus_stop :
    after (execTimes 4 .busStop (at' 0x2200#16 [1] { State.reset with bus := { scl := false, sda := false } })) (fun t =>
      t.trace.bus == [.sclRel, .delay, .sdaRel, .delay] && t.bus == { scl := true, sda := true }) = true := by decide
/-- V29a. -/
theorem test_bus_wbit :
    after (execTimes 5 (.busWbit 0#8) (at' 0x2300#16 [1] { State.reset with bus := { scl := false, sda := true } }))
        (fun t => t.trace.bus == [.sdaLow, .sclRel, .delay, .sclLow, .delay] && t.bus == { scl := false, sda := false }) = true ∧
      after (step (at' 0x2307#16 [1] { State.reset with bus := { scl := false, sda := false } }))
        (fun t => t.trace.bus == [.sdaRel] && t.bus.sda) = true := by decide
/-- V29b. -/
theorem test_bus_rbit :
    after (execTimes 7 .busRbit (at' 0x2400#16 [1] { State.reset with
        bus := { scl := false, sda := false }, env := { State.reset.env with sdaSlv := false }, lat := { State.reset.lat with res := 9#8 } }))
      (fun t => t.trace.bus == [.sdaRel, .sclRel, .delay, .sample false, .sclLow, .delay] && t.lat.res == 0#8) = true := by
  decide
/-- The first micro-step of `BUS.WBYTE 0x91` drives bit 7, which is 1; after bit 0 the acknowledgment begins (V20). -/
theorem test_bus_wbyte :
    after (step (at' 0x2591#16 [1] { State.reset with bus := { scl := false, sda := false } }))
        (fun t => t.trace.bus == [.sdaRel] && t.seq.ustep == [1, 2] && t.tmp.i == 7#3) = true ∧
      after (step (at' 0x2591#16 [1, 5] State.reset)) (fun t => t.seq.ustep == [2]) = true := by decide
/-- `r[i] <- RES[0]` after the seventh micro-step of a bit, here bit 7 sampled as 1; at the end `RES <- r` (R160). -/
theorem test_bus_rbyte :
    after (step (at' 0x2600#16 [2, 7] { State.reset with tmp := { State.reset.tmp with i := 7#3, v := true } }))
        (fun t => t.tmp.r == 0x80#8 && t.tmp.i == 6#3 && t.seq.ustep == [2, 1]) = true ∧
      after (step (at' 0x2600#16 [4] { State.reset with tmp := { State.reset.tmp with r := 0xA5#8 } }))
        (fun t => t.lat.res == 0xA5#8) = true := by decide

/-- R190 u5. -/
theorem test_temp_read_latches :
    after (step (at' 0x3000#16 [5] { State.reset with lat := { State.reset.lat with res := 0x16#8 } }))
      (fun t => t.lat.raw == 0x16#8 && t.seq.pc == 1#8) = true := by decide

/-- A window of sixteen times v. -/
def window (v : Byte) (s : State) : State := { s with smooth := { s.smooth with buf := Memory.fill [] 16 v } }

/-- V30. -/
theorem test_smooth_example :
    after (execTimes 4 (.tempSmooth 36#8) (at' 0x3124#16 [1] (window 20#8 State.reset))) (fun t =>
      t.tmp.sum == 336#16 && t.lat.sm == 21#8 && t.lat.res == 21#8 && t.smooth.cur == 1#4) = true := by decide
/-- V33: the floor, and V35: the largest sum. -/
theorem test_smooth_corners :
    after (execTimes 4 (.tempSmooth 19#8) (at' 0x3113#16 [1] (window 20#8 State.reset))) (fun t => t.lat.sm == 19#8) = true ∧
      after (execTimes 4 (.tempSmooth 255#8) (at' 0x31FF#16 [1] (window 255#8 State.reset)))
        (fun t => t.tmp.sum == 4080#16 && t.lat.sm == 255#8) = true := by decide
/-- R192's example, cursor and latches left alone. -/
theorem test_preload :
    after (step (at' 0x3214#16 [1] State.reset)) (fun t =>
      t.smooth.buf.lookup 0 == some 20#8 && t.smooth.buf.lookup 15 == some 20#8 && t.smooth.cur == 0#4) = true := by decide
/-- V39b. -/
theorem test_latch_forms :
    after (step (at' 0x3400#16 [1] { State.reset with lat := { State.reset.lat with raw := 0x16#8 } }))
        (fun t => t.smooth.buf.lookup 7 == some 0x16#8) = true ∧
      after (execTimes 4 .tempSmoothr (at' 0x3300#16 [1]
          (window 0x16#8 { State.reset with lat := { State.reset.lat with raw := 0x16#8 } })))
        (fun t => t.lat.sm == 22#8 && t.tmp.sum == 352#16) = true := by decide

/-- V40, V43. -/
theorem test_setpoint :
    after (step (at' 0x4000#16 [1] { State.reset with env := { State.reset.env with spN := 0b101010#6 } }))
        (fun t => t.lat.sp == 21#6) = true ∧
      after (step (at' 0x4000#16 [1] { State.reset with env := { State.reset.env with spN := 0b011111#6 } }))
        (fun t => t.lat.sp == 32#6) = true := by decide
theorem test_override :
    after (step (at' 0x4100#16 [1] { State.reset with env := { State.reset.env with ovrN := false } }))
      (fun t => t.lat.ov) = true := by decide

/-- One `CTL.HYST` with the given coil, latches and hysteresis. -/
def hystCase (coil : Bool) (sm : Byte) (sp : BitVec 6) (ov : Bool) (hyst : Fin 256) (after' : Bool) (traced : List Bool) : Bool :=
  after (step (at' 0x4200#16 [1] { State.reset with
      cfg := { Config.vectors with hyst := hyst }, coil := coil, lat := { State.reset.lat with sm := sm, sp := sp, ov := ov } }))
    fun t => t.coil == after' && t.trace.coil == traced

/-- V44 to V51. -/
theorem test_hyst_table :
    hystCase false 0#8 63#6 true 2 true [true] = true ∧ hystCase true 0#8 63#6 true 2 true [] = true ∧
      hystCase true 0#8 63#6 false 2 false [false] = true ∧ hystCase false 26#8 25#6 false 2 true [true] = true ∧
      hystCase false 25#8 25#6 false 2 false [] = true ∧ hystCase true 24#8 25#6 false 2 true [] = true ∧
      hystCase true 23#8 25#6 false 2 false [false] = true ∧ hystCase false 23#8 25#6 false 2 false [] = true := by decide
/-- V52 to V57. -/
theorem test_hyst_corners :
    hystCase true 0#8 1#6 false 2 true [] = true ∧ hystCase true 0#8 2#6 false 2 false [false] = true ∧
      hystCase false 1#8 0#6 false 2 true [true] = true ∧ hystCase false 0#8 0#6 false 0 false [] = true ∧
      hystCase true 25#8 25#6 false 0 false [false] = true ∧ hystCase false 255#8 63#6 false 255 true [true] = true := by decide
/-- R216's example line 0x41, 0x0A: after the first byte's last micro-step the second is to be sent. -/
theorem test_status_sends_in_order :
    after (step (at' 0x4300#16 [2, 5] { inited with tmp := { inited.tmp with line := [0x41#8, 0x0A#8] } }))
        (fun t => t.tmp.line == [0x0A#8] && t.seq == { pc := 0#8, ustep := [2, 1] } && t.ctl.txie) = true ∧
      after (step (at' 0x4300#16 [2, 5] { inited with tmp := { inited.tmp with line := [0x0A#8] } }))
        (fun t => t.tmp.line == [] && t.seq == { pc := 1#8, ustep := [1] }) = true := by decide
theorem test_sleep_is_idle : step (at' 0x4400#16 [1] State.reset) = .next (at' 0x4400#16 [1] State.reset).finished := by rfl
/-- The first micro-step of `CTL.ITER` is the whole of `CTL.SETPT`, of `CTL.BOOT` the whole of `UART.INIT` (R218, R219). -/
theorem test_composites_begin :
    after (step (at' 0x4500#16 [1] { State.reset with env := { State.reset.env with spN := 0#6 } }))
        (fun t => t.lat.sp == 63#6 && t.seq == { pc := 0#8, ustep := [2] }) = true ∧
      after (step (at' 0x4600#16 [1] State.reset)) (fun t => t.ctl.rxen && t.seq == { pc := 0#8, ustep := [2] }) = true := by
  decide
/-- The tick examples of 95_test_vectors.md section 2.4. -/
theorem test_tick :
    after (exec .evtTick { State.reset with tick := { ms := 999#16, sec := 0xFFFFFFFF#32 } })
        (fun t => t.tick == { ms := 0#16, sec := 0#32 }) = true ∧
      after (exec .evtTick { State.reset with tick := { ms := 998#16, sec := 7#32 } })
        (fun t => t.tick == { ms := 999#16, sec := 7#32 }) = true := by decide
theorem test_nop_and_jump :
    after (step (at' 0x0000#16 [1] State.reset)) (fun t => t.seq == { pc := 1#8, ustep := [1] }) = true ∧
      after (step (at' 0x0101#16 [1] State.reset)) (fun t => t.seq == { pc := 1#8, ustep := [1] }) = true := by decide
theorem test_pc_wraps :
    after (exec .seqNop { State.reset with seq := { pc := 255#8, ustep := [1] } }) (fun t => t.seq.pc == 0#8) = true := by decide
theorem test_end_stays : step (at' 0x0200#16 [1] State.reset) = .next (at' 0x0200#16 [1] State.reset) := by rfl
/-- V67: an event word in `PROG`. -/
theorem test_event_word_in_program_is_refused :
    step (at' 0xE069#16 [1] State.reset) = .refused (.reservedWord 0xE069#16) := by rfl
theorem test_command_word_in_schedule_is_refused :
    step { State.reset with sched := [.event 0x4600#16] } = .refused (.notAnEvent 0x4600#16) := by rfl
/-- The host's placement: a command at `PROG[pc]`, an event in the schedule with its byte in `RxHw`. -/
theorem test_withFetchWord :
    (State.reset.withFetchWord 16 0x4000).prog = [0x4000#16, 0x4500#16, 0x0101#16] ∧
      (State.reset.withFetchWord 16 0xE069).sched = [.event 0xE069#16] ∧
      (State.reset.withFetchWord 16 0xE069).ser.rxHw = some 0x69#8 := by decide
/-- The first step from reset is the first micro-step of `CTL.BOOT` (R271). -/
theorem test_reset_runs_boot : after (step State.reset) (fun t => t.ctl.txen && t.seq.ustep == [2]) = true := by decide

/-! ### Witnesses: concrete states and operands that meet the hypotheses of each obligation -/

/-- `DataInv` as a Bool, so that a witness of it is decided. -/
def dataOk (s : State) : Bool :=
  decide (s.rx.head.toNat < s.cfg.rxCap) && decide (s.rx.tail.toNat < s.cfg.rxCap) && decide (s.tx.head.toNat < s.cfg.txCap) &&
    decide (s.tx.tail.toNat < s.cfg.txCap) && decide (s.tmp.h1.toNat < s.cfg.txCap) && decide (s.tmp.t1.toNat < s.cfg.rxCap) &&
    s.rx.buf.wf s.cfg.rxCap && s.tx.buf.wf s.cfg.txCap && s.smooth.buf.wf 16 && decide (s.tick.ms.toNat ≤ 999)

theorem dataInv_of {s : State} (h : dataOk s = true) : DataInv s := by
  simp only [dataOk, Bool.and_eq_true, decide_eq_true_eq] at h
  obtain ⟨⟨⟨⟨⟨⟨⟨⟨⟨h1, h2⟩, h3⟩, h4⟩, h5⟩, h6⟩, h7⟩, h8⟩, h9⟩, h10⟩ := h
  exact ⟨h1, h2, h3, h4, h5, h6, h7, h8, h9, h10⟩

/-- Clause by clause: units 5, 13 and 15, the first unused `func` of each unit, an operand where none belongs. -/
theorem test_witness_reserved_words :
    (unitField 0x5000#16).toNat = 5 ∧ (unitField 0xDFFF#16).toNat = 13 ∧ (unitField 0xF000#16).toNat = 15 ∧
      ((unitField 0x0300#16).toNat = 0 ∧ (funcField 0x0300#16).toNat = 3) ∧
      ((unitField 0x1400#16).toNat = 1 ∧ (funcField 0x1400#16).toNat = 4) ∧
      ((unitField 0x2700#16).toNat = 2 ∧ (funcField 0x2700#16).toNat = 7) ∧
      ((unitField 0x3500#16).toNat = 3 ∧ (funcField 0x3500#16).toNat = 5) ∧
      ((unitField 0x4700#16).toNat = 4 ∧ (funcField 0x4700#16).toNat = 7) ∧
      ((unitField 0xE300#16).toNat = 14 ∧ (funcField 0xE300#16).toNat = 3) ∧
      ((⟨0x1000#16, 0xFFFF#16⟩ : OpcodeRow) ∈ opcodeRows ∧ 0x1001#16 &&& 0xFF00#16 = 0x1000#16 ∧ opdField 0x1001#16 ≠ 0#8) := by
  decide
/-- The sequencer at a reserved word and at an event word. -/
theorem test_witness_reserved_word_in_program :
    (let s := at' 0x5000#16 [1] State.reset
     s.sched = [] ∧ s.prog[s.seq.pc.toNat]? = some 0x5000#16 ∧ decode 0x5000#16 = .error .reservedUnit) ∧
    (let s := { at' 0xE100#16 [1] State.reset with sched := [.fg] }
     s.sched.head? = some .fg ∧ s.prog[s.seq.pc.toNat]? = some 0xE100#16 ∧ decode 0xE100#16 = .ok .evtTxr ∧
       Instr.evtTxr.isEvent = true) := by decide
theorem test_witness_opcode_rows_and_reserved_word :
    (⟨0x4600#16, 0xFFFF#16⟩ : OpcodeRow) ∈ opcodeRows ∧ (⟨0x4600#16, 0xFFFF#16⟩ : OpcodeRow).covers 0x4600#16 = true ∧
      decode 0x4600#16 = .ok .ctlBoot ∧ ∀ r ∈ opcodeRows, r.covers 0x5000#16 = false := by decide
/-- `StepRunsTheDecodedInstruction`: the schedule empty, a foreground item, an event word. -/
theorem test_witness_step :
    (let s := at' 0x4600#16 [1] State.reset
     decode 0x4600#16 = .ok .ctlBoot ∧ s.prog[s.seq.pc.toNat]? = some 0x4600#16 ∧ Instr.ctlBoot.wellFormed .program = true ∧
       s.sched = [] ∧ { s with sched := [SchedItem.fg] }.sched = .fg :: []) ∧
    (let s := { State.reset with sched := [SchedItem.event 0xE200#16] }
     decode 0xE200#16 = .ok .evtTick ∧ Instr.evtTick.wellFormed .schedule = true ∧ s.sched = .event 0xE200#16 :: []) := by decide
/-- `EnvironmentSteps`: a byte that may arrive, a byte while the receiver is off, a byte while one waits, a pin. -/
theorem test_witness_environment :
    (let s := { inited with sched := [SchedItem.env (.rxByte 7#8)] }
     s.sched = .env (.rxByte 7#8) :: [] ∧ s.ctl.rxen = true ∧ s.ser.rxHw = none) ∧
    (let s := { State.reset with sched := [SchedItem.env (.rxByte 7#8)] }
     s.sched = .env (.rxByte 7#8) :: [] ∧ s.ctl.rxen = false) ∧
    (let s := { arrived 1#8 inited with sched := [SchedItem.env (.rxByte 7#8)] }
     s.sched = .env (.rxByte 7#8) :: [] ∧ s.ser.rxHw ≠ none) ∧
    { State.reset with sched := [SchedItem.env .txReady] }.sched = .env .txReady :: [] ∧
    { State.reset with sched := [SchedItem.env (.sclSlv false)] }.sched = .env (.sclSlv false) :: [] ∧
    { State.reset with sched := [SchedItem.env (.sdaSlv false)] }.sched = .env (.sdaSlv false) :: [] ∧
    { State.reset with sched := [SchedItem.env (.ovrPin false)] }.sched = .env (.ovrPin false) :: [] ∧
    { State.reset with sched := [SchedItem.env (.spPin 5 false)] }.sched = .env (.spPin 5 false) :: [] := by decide
/-- `ForegroundWithoutStep`: `pc` just at the end of `PROG`, idle and with an event to take; `SEQ.END`. -/
theorem test_witness_stuck :
    (let s := { State.reset with seq := { pc := 3#8, ustep := [1] } }
     s.sched = [] ∧ s.prog.length ≤ s.seq.pc.toNat) ∧
    (let s := { State.reset with seq := { pc := 3#8, ustep := [1] }, sched := [SchedItem.event 0xE200#16] }
     s.sched.head? = some (.event 0xE200#16) ∧ decode 0xE200#16 = .ok .evtTick ∧ Instr.evtTick.isEvent = true ∧
       s.prog.length ≤ s.seq.pc.toNat) ∧
    (at' 0x0200#16 [1] State.reset).seq.ustep = [1] := by decide
/-- `NopAndJump`: the first target beyond the end. -/
theorem test_witness_jump_beyond_the_end :
    State.reset.sched = [] ∧ State.reset.prog.length ≤ (3#8 : Byte).toNat ∧ State.reset.seq.ustep = [1] := by decide
theorem test_witness_jump_answers : ∃ t, exec (.seqJmp 3#8) State.reset = .next t := ⟨_, rfl⟩
/-- `MaskedIncrementWraps`: the smallest and the largest capacity, the last index and the one before. -/
theorem test_witness_masked :
    ({ Config.vectors with rxCapLog := 0 } : Config).rxCap = 2 ∧ ({ Config.vectors with txCapLog := 7 } : Config).txCap = 256 ∧
      (1#8 : Byte).toNat = 2 - 1 ∧ (0#8 : Byte).toNat < 2 - 1 ∧ (255#8 : Byte).toNat = 256 - 1 ∧ (254#8 : Byte).toNat < 256 - 1 := by
  decide
/-- Every statement with the one hypothesis `ustep = [1]`. -/
theorem test_witness_start : State.reset.seq.ustep = [1] ∧ inited.seq.ustep = [1] := by decide
/-- `UartSendMicroSteps` and `RingHoldsAtMostCapacityLessOne`: each position; the ring full (head 3, tail 0) and not (head 3, tail 1). -/
theorem test_witness_send :
    (let s := at' 0x1141#16 [1] (txAt 3#8 1#8 inited)
     s.seq.ustep = [1] ∧ s.ctl.txen = true ∧ maskedNext s.cfg.txCap s.tx.head ≠ s.tx.tail) ∧
    (let s := at' 0x1141#16 [2] (txAt 3#8 0#8 inited)
     s.seq.ustep = [2] ∧ s.tmp.h1 = s.tx.tail ∧ s.tmp.h1 = maskedNext s.cfg.txCap s.tx.head ∧ dataOk s = true) ∧
    (let s := at' 0x1141#16 [2] (txAt 3#8 1#8 inited)
     s.seq.ustep = [2] ∧ s.tmp.h1 ≠ s.tx.tail ∧ s.tmp.h1 = maskedNext s.cfg.txCap s.tx.head ∧ dataOk s = true) ∧
    (at' 0x1141#16 [3] inited).seq.ustep = [3] ∧ (at' 0x1141#16 [4] inited).seq.ustep = [4] ∧
    (at' 0x1141#16 [5] inited).seq.ustep = [5] := by decide
theorem test_witness_send_held_and_event :
    ∃ t, exec .evtTick (at' 0x1141#16 [2] (txAt 3#8 0#8 inited)) = .next t ∧ Instr.evtTick.isEvent = true := ⟨_, rfl, rfl⟩

/-- A full receive ring of capacity 4 with a byte waiting: slots 1 to 3 hold 0x61 to 0x63 (V15, V16). -/
def fullRx : State :=
  arrived 0x64#8 { inited with rx := { buf := [(1, 0x61#8), (2, 0x62#8), (3, 0x63#8)], head := 3#8, tail := 0#8 } }

/-- `UartAvailAnswersNonEmpty`, `UartRecvMicroSteps`: empty and not, each position. -/
theorem test_witness_recv :
    (let s := at' 0x1300#16 [1] inited
     s.seq.ustep = [1] ∧ s.ctl.rxen = true ∧ s.rx.head = s.rx.tail) ∧
    (let s := at' 0x1300#16 [1] fullRx
     s.seq.ustep = [1] ∧ s.ctl.rxen = true ∧ s.rx.head ≠ s.rx.tail) ∧
    (at' 0x1300#16 [2] fullRx).seq.ustep = [2] ∧ (at' 0x1300#16 [3] fullRx).seq.ustep = [3] ∧
    (at' 0x1300#16 [4] fullRx).seq.ustep = [4] := by decide
/-- The overflow windows of `UartRecvMicroSteps`, and `ReceiveOverflowEmptiesRing`: a full ring at u2, at u3, and after u3. -/
theorem test_witness_recv_overflow :
    (let s := at' 0x1300#16 [2] fullRx
     dataOk s = true ∧ s.seq.ustep = [2] ∧ s.rx.head ≠ s.rx.tail ∧ maskedNext s.cfg.rxCap s.rx.head = s.rx.tail ∧
       eventEnabled (.evtRxc 0x64#8) s = true) ∧
    (let s := { at' 0x1300#16 [3] fullRx with tmp := { fullRx.tmp with t1 := 1#8 } }
     dataOk s = true ∧ s.seq.ustep = [3] ∧ s.tmp.t1 = maskedNext s.cfg.rxCap s.rx.tail ∧
       maskedNext s.cfg.rxCap s.rx.head = s.rx.tail ∧ eventEnabled (.evtRxc 0x64#8) s = true) ∧
    (let s := { at' 0x1300#16 [4] (rxAt 0#8 1#8 fullRx) with tmp := { fullRx.tmp with t1 := 1#8 } }
     dataOk s = true ∧ s.seq.ustep = [4] ∧ s.tmp.t1 = s.rx.tail ∧ maskedNext s.cfg.rxCap s.rx.head = s.rx.tail ∧
       eventEnabled (.evtRxc 0x64#8) s = true) := by decide
theorem test_witness_rxc_answers : ∃ t, exec (.evtRxc 0x64#8) (at' 0x1300#16 [2] fullRx) = .next t := ⟨_, rfl⟩
theorem test_witness_full_queue :
    fullRx.rxQueue.length = fullRx.cfg.rxCap - 1 ∧ eventEnabled (.evtRxc 0x64#8) fullRx = true ∧ dataOk fullRx = true := by decide
/-- `TransportBeforeInitIsRefused`. -/
theorem test_witness_before_init :
    (State.reset.seq.ustep = [1] ∧ State.reset.ctl.txen = false ∧ State.reset.ctl.rxen = false) ∧
    (let s := { at' 0x4300#16 [2] State.reset with tmp := { State.reset.tmp with line := [0x41#8] } }
     s.seq.ustep = [2] ∧ s.tmp.line ≠ [] ∧ s.ctl.txen = false) ∧
    atInit .seqNop State.reset = false := by decide
theorem test_witness_nop_answers : ∃ t, exec .seqNop State.reset = .next t := ⟨_, rfl⟩
/-- `ReceiveCompleteStoresByte`, `TransmitReadyHandsOver`. -/
theorem test_witness_serial_events :
    (fullRx.ctl.rxen = true ∧ fullRx.ctl.rxcie = true ∧ fullRx.ser.rxHw = some 0x64#8) ∧
    (let s := { txAt 1#8 0#8 inited with ctl := { inited.ctl with txie := true } }
     s.ctl.txen = true ∧ s.ctl.txie = true ∧ s.ser.txHwReady = true ∧ s.tx.head ≠ s.tx.tail ∧ eventEnabled .evtTxr s = true ∧
       dataOk s = true) ∧
    (let s := { txAt 1#8 1#8 inited with ctl := { inited.ctl with txie := true } }
     s.ctl.txen = true ∧ s.ctl.txie = true ∧ s.ser.txHwReady = true ∧ s.tx.head = s.tx.tail) := by decide
/-- `RingsAreQueues`: a send past its hold, a receive past u2, and `UART.AVAIL`. -/
theorem test_witness_queues :
    (let s := { at' 0x1141#16 [3] inited with tmp := { inited.tmp with h1 := 1#8 } }
     dataOk s = true ∧ s.seq.ustep = [3] ∧ s.tmp.h1 = maskedNext s.cfg.txCap s.tx.head ∧ s.tmp.h1 ≠ s.tx.tail) ∧
    (let s := { at' 0x1300#16 [3] fullRx with tmp := { fullRx.tmp with t1 := 1#8 } }
     dataOk s = true ∧ s.seq.ustep = [3] ∧ s.tmp.t1 = maskedNext s.cfg.rxCap s.rx.tail ∧ s.rx.head ≠ s.rx.tail) ∧
    (dataOk fullRx = true ∧ fullRx.seq.ustep = [1] ∧ fullRx.ctl.rxen = true) := by decide
/-- `RingsAreQueues`, every step: a `UART.RECV` at u3 of the full ring; one at u4 with the foreground to move, and with a byte
arriving that still fits. -/
theorem test_witness_receive_order :
    (let s := { at' 0x1300#16 [3] fullRx with tmp := { fullRx.tmp with t1 := 1#8 } }
     dataOk s = true ∧ RecvInv s ∧ rxOverflow s = false ∧ (∃ t, step s = .next t) ∧ fgNext s = some .uartRecv) ∧
    (let s := { at' 0x1300#16 [4] (rxAt 3#8 1#8 fullRx) with tmp := { fullRx.tmp with t1 := 1#8 } }
     dataOk s = true ∧ RecvInv s ∧ rxOverflow s = false ∧ (∃ t, step s = .next t) ∧ fgNext s = some .uartRecv) ∧
    (let s := { at' 0x1300#16 [4] (rxAt 3#8 1#8 fullRx) with
       tmp := { fullRx.tmp with t1 := 1#8 }, sched := [SchedItem.event 0xE064#16] }
     dataOk s = true ∧ RecvInv s ∧ rxOverflow s = false ∧ (∃ t, step s = .next t) ∧ fgNext s = none ∧
       fgCommand s = some .uartRecv ∧ s.seq.ustep = [4] ∧ s.sched.head? = some (.event (encode (.evtRxc 0x64#8))) ∧
       eventEnabled (.evtRxc 0x64#8) s = true) := by
  refine ⟨⟨by decide, ⟨fun _ _ => by decide, fun _ _ => by decide, fun _ h => absurd h (by decide)⟩, by decide, ⟨_, rfl⟩, by decide⟩,
    ⟨by decide, ⟨fun _ _ => by decide, fun _ h => absurd h (by decide), fun _ _ => by decide⟩, by decide, ⟨_, rfl⟩, by decide⟩,
    ⟨by decide, ⟨fun _ _ => by decide, fun _ h => absurd h (by decide), fun _ _ => by decide⟩, by decide, ⟨_, rfl⟩, ?_⟩⟩
  decide

/-- A `UART.SEND 0x41` at its publishing micro-step, its byte in slot 1. -/
def publishing : State :=
  { at' 0x1141#16 [4] inited with
    tx := { buf := [(1, 0x41#8)], head := 0#8, tail := 0#8 }, tmp := { inited.tmp with h1 := 1#8 } }

theorem publishing_sends : sendAt publishing = some (0x41#8, 4) := by decide

/-- The hypotheses of `SendUnderWayKeepsItsSlot`, `TransmitOrderIsKept`, `RingInvariants`, `EveryStepKeepsDataInRange`. -/
theorem test_witness_publishing :
    DataInv publishing ∧ SendInv publishing ∧ (∃ t, step publishing = .next t) ∧ fgNext publishing = some (.uartSend 0x41#8) ∧
      atInit (.uartSend 0x41#8) publishing = false := by
  refine ⟨dataInv_of (by decide), fun b k h => ?_, ⟨_, rfl⟩, by decide, by decide⟩
  rw [publishing_sends] at h
  cases h
  decide
/-- `RingInvariants`, the foreground about to run `UART.INIT`. -/
theorem test_witness_init_is_next :
    (let s := at' 0x1000#16 [1] State.reset
     dataOk s = true ∧ sendAt s = none ∧ fgNext s = some .uartInit ∧ atInit .uartInit s = true) ∧
    (let s := at' 0x1300#16 [3] fullRx
     fgNext s = some .uartRecv ∧ s.seq.ustep = [3]) := by decide
/-- `NoByteIsEverStranded`: a queued byte with the foreground at the arming micro-step. -/
theorem test_witness_not_stranded :
    let s := { at' 0x1141#16 [5] inited with tx := { buf := [(1, 0x41#8)], head := 1#8, tail := 0#8 } }
    s.tx.head ≠ s.tx.tail ∧ NoStrandedByte s ∧ ∃ t, step s = .next t :=
  ⟨by decide, fun _ => .inr ⟨0x41#8, by decide⟩, ⟨_, rfl⟩⟩
/-- `NoUnwrittenRingSlotIsRead`, the transmit half: one byte queued and written. -/
theorem test_witness_tx_written :
    let s := { publishing with tx := { buf := [(1, 0x41#8)], head := 1#8, tail := 0#8 }, seq := { pc := 0#8, ustep := [1] } }
    DataInv s ∧ TxQueuedWritten s ∧ SendInv s ∧ ∃ t, step s = .next t := by
  refine ⟨dataInv_of (by decide), fun k hk => ?_, fun b k h => ?_, ⟨_, rfl⟩⟩
  · have h : k < 1 := hk
    interval_cases k
    decide
  · have e : sendAt { publishing with
        tx := { buf := [(1, 0x41#8)], head := 1#8, tail := 0#8 }, seq := { pc := 0#8, ustep := [1] } } = some (0x41#8, 1) := by
      decide
    rw [e] at h
    cases h
    decide
/-- The receive half: a `UART.RECV` about to read its slot. -/
theorem test_witness_rx_written :
    let s := { at' 0x1300#16 [4] (rxAt 3#8 1#8 fullRx) with tmp := { fullRx.tmp with t1 := 1#8 } }
    DataInv s ∧ RxQueuedWritten s ∧ ∃ t, step s = .next t := by
  refine ⟨dataInv_of (by decide), ⟨fun k hk => ?_, fun _ h => ?_, fun _ h => ?_, fun _ _ => by decide⟩, ⟨_, rfl⟩⟩
  · have h : k < 2 := hk
    interval_cases k <;> decide
  · rcases h with h | h <;> exact absurd h (by decide)
  · exact absurd h (by decide)
/-- `EachSharedElementHasOneWriter`, `EachRegisterHasItsWriters`, `StoresTouchOneSlot`: a next state, for a store and for an event. -/
theorem test_witness_stores :
    (∃ t, exec (.uartSend 0x41#8) { publishing with seq := { pc := 0#8, ustep := [3] } } = .next t) ∧
      (∃ t, exec (.evtRxc 0x64#8) fullRx = .next t) ∧
      (∃ t, exec (.tempSmooth 36#8) (at' 0x3124#16 [1] State.reset) = .next t) ∧
      (∃ t, exec (.tempPreload 20#8) (at' 0x3214#16 [1] State.reset) = .next t) ∧
      (drivesBus .seqNop = false ∧ writesWindow .seqNop = false ∧ writesMean .seqNop = false ∧ writesRaw .seqNop = false ∧
        writesRes .seqNop = false ∧ sendsBytes .seqNop = false ∧ atInit .seqNop State.reset = false) :=
  ⟨⟨_, rfl⟩, ⟨_, rfl⟩, ⟨_, rfl⟩, ⟨_, rfl⟩, by decide⟩
/-- `RingsAreIndependent`, `FilterHasNoFeedback`, `EventLeavesTheForegroundAlone`, `DisabledEventIsNotTaken`. -/
theorem test_witness_kinds :
    (∀ d, Instr.tempRead ≠ .evtRxc d) ∧ Instr.tempRead ≠ .uartInit ∧ Instr.tempRead ≠ .uartAvail ∧ Instr.tempRead ≠ .uartRecv ∧
      Instr.tempRead ≠ .ctlBoot ∧ Instr.tempRead ≠ .evtTxr ∧ (∀ b, Instr.tempRead ≠ .uartSend b) ∧ Instr.tempRead ≠ .ctlStatus ∧
      Instr.tempRead ≠ .ctlIter ∧ Instr.evtTxr.isEvent = true ∧ eventEnabled .evtTxr State.reset = false := by
  refine ⟨nofun, nofun, nofun, nofun, nofun, nofun, nofun, nofun, nofun, by decide, by decide⟩
/-- `TickCounts`: the last millisecond and the one before it. -/
theorem test_witness_tick :
    (999#16).toNat = 999 ∧ (998#16).toNat ≠ 999 ∧ Instr.seqNop ≠ .evtTick := by decide
/-- The micro-step statements of the bus and of `TEMP.SMOOTH`: every position; both kinds of bit. -/
theorem test_witness_positions :
    (∀ k ∈ [1, 2, 3, 4, 5, 6, 7], (at' 0x2400#16 [k] State.reset).seq.ustep = [k]) ∧ (7#8 : Byte) ≠ 0#8 ∧
      { State.reset with bus := { scl := false, sda := true } }.bus = { scl := false, sda := true } := by decide
/-- `ReadByteReconstructsPattern`. -/
theorem test_witness_pattern :
    let s := { at' 0x2601#16 [1] State.reset with sched := patternSchedule 0xA5#8 ++ [] }
    fgCommand s = some (.busRbyte 1#8) ∧ s.seq.ustep = [1] ∧ s.sched = patternSchedule 0xA5#8 ++ [] := by decide
/-- `WriteByteRuns` and `TemperatureReadRuns` against the slave of V24, which acknowledges its address and presents 0x16. -/
theorem test_witness_acknowledging_slave :
    (let s := { at' 0x2591#16 [1] State.reset with sched := ackSchedule false ++ [] }
     fgCommand s = some (.busWbyte 0x91#8) ∧ s.seq.ustep = [1] ∧ s.sched = ackSchedule false ++ []) ∧
    (let s := { at' 0x3000#16 [1] State.reset with sched := readSchedule false 0x16#8 ++ [] }
     fgCommand s = some .tempRead ∧ s.seq.ustep = [1] ∧ s.sched = readSchedule false 0x16#8 ++ []) := by decide
/-- The acknowledgment is sampled by u4 of the `BUS.RBIT` in u2 of `BUS.WBYTE`, at the level the slave then holds (V24). -/
theorem test_acknowledgment_clock :
    after (step (at' 0x2591#16 [2, 4] { State.reset with
        bus := { scl := true, sda := true }, env := { State.reset.env with sdaSlv := false } }))
      (fun t => t.trace.bus == [.sample false] && !t.tmp.v && t.seq.ustep == [2, 5]) = true := by decide
/-- `TracesAgreeWithOutputs`: lines driven low by a traced start, the coil on by a traced 1. -/
theorem test_witness_traces :
    let s := { State.reset with
      coil := true, bus := { scl := false, sda := false }
      trace := { txWire := [], bus := [.sdaLow, .delay, .sclLow, .delay], coil := [true] } }
    TraceInv s ∧ ∃ t, step s = .next t := ⟨⟨by decide, by decide⟩, ⟨_, rfl⟩⟩
/-- `MovingAverageIsFloorOfMean`: a window of 20 before the insert, and after it; sixteen samples. -/
theorem test_witness_window :
    (∀ k, k < 16 → (window 20#8 State.reset).smooth.buf.read .smoothBuf k = 20#8) ∧
      (∀ k, k < 16 → windowAfter (window 20#8 State.reset) 20#8 k = 20#8) ∧ (List.replicate 16 7#8).length = 16 := by decide
/-- `HysteresisTransitions`, clause by clause at the boundaries of setpoint 25 and hysteresis 2. -/
theorem test_witness_hysteresis :
    (26 > 25) ∧ ¬ (25 > 25) ∧ ((23 : Int) ≤ 25 - 2) ∧ ¬ ((24 : Int) ≤ 25 - 2) ∧
      (let s := { State.reset with lat := { State.reset.lat with sm := 26#8, sp := 25#6 } }
       s.seq.ustep = [1] ∧ s.coil = false ∧ s.lat.sm.toNat > s.lat.sp.toNat) ∧
      (let s := { State.reset with lat := { State.reset.lat with sm := 25#8, sp := 25#6 } }
       s.coil = false ∧ ¬ (s.lat.sm.toNat > s.lat.sp.toNat ∨ s.lat.ov = true)) ∧
      (let s := { State.reset with coil := true, lat := { State.reset.lat with sm := 23#8, sp := 25#6 } }
       s.coil = true ∧ s.lat.ov = false ∧ (s.lat.sm.toNat : Int) ≤ (s.lat.sp.toNat : Int) - (s.cfg.hyst.val : Int)) ∧
      (let s := { State.reset with coil := true, lat := { State.reset.lat with sm := 24#8, sp := 25#6 } }
       s.coil = true ∧ ¬ (s.lat.ov = false ∧ (s.lat.sm.toNat : Int) ≤ (s.lat.sp.toNat : Int) - (s.cfg.hyst.val : Int))) ∧
      (let s := { State.reset with coil := true, lat := { State.reset.lat with sp := 1#6 } }
       s.coil = true ∧ s.lat.sp.toNat < s.cfg.hyst.val) := by decide
/-- `DeadBand`: no override, hysteresis 2 and 0, and each temperature of the walk. -/
theorem test_witness_dead_band :
    (∃ t, exec .ctlHyst { State.reset with lat := { State.reset.lat with sm := 24#8, sp := 25#6 }, coil := true } = .next t) ∧
      State.reset.lat.ov = false ∧ (25#6).toNat = 25 ∧ Config.vectors.hyst.val = 2 ∧
      ({ Config.vectors with hyst := 0 } : Config).hyst.val = 0 ∧ (26#8 : Byte).toNat = 26 ∧ (25#8 : Byte).toNat = 25 ∧
      (24#8 : Byte).toNat = 24 ∧ (23#8 : Byte).toNat ≤ 23 ∧ ((25 : Int) - 2 < 24 ∧ 24 ≤ 25) :=
  ⟨⟨_, rfl⟩, by decide⟩
/-- `StatusMicroSteps`, `StatusLineIsQueued`: a line of two bytes, and the empty line, that fit. -/
theorem test_witness_status :
    (let s := { at' 0x4300#16 [2] inited with tmp := { inited.tmp with line := [0x41#8, 0x0A#8] } }
     dataOk s = true ∧ s.seq.ustep = [2] ∧ s.ctl.txen = true ∧ s.tmp.line = [0x41#8, 0x0A#8] ∧
       s.txQueue.length + 2 ≤ s.cfg.txCap - 1) ∧
    (let s := at' 0x4300#16 [2] inited
     dataOk s = true ∧ s.seq.ustep = [2] ∧ s.ctl.txen = true ∧ s.tmp.line = [] ∧ s.txQueue.length + 0 ≤ s.cfg.txCap - 1) := by decide
/-- `CompositeOperationsRunTheirCalls`: the last call of each list. -/
theorem test_witness_calls :
    [Instr.ctlSetpt, .tempRead, .tempSmoothr, .ctlOvr, .ctlHyst, .ctlStatus, .ctlSleep][6]? = some .ctlSleep ∧
      [Instr.uartInit, .busInit, .tempRead, .tempPreloadr][3]? = some .tempPreloadr ∧
      [Instr.busStart, .busWbyte 0x91#8, .busRbyte 1#8, .busStop][3]? = some .busStop ∧ [5] ≠ ([] : List Nat) := by decide
/-- `IterationControlsTheCoil`: P6's pins, a line stuck low, a window of 26 (sum 390, mean 24); and its second half. -/
theorem test_witness_iteration :
    (let s := window 26#8 { at' 0x4500#16 [1] inited with env := { inited.env with spN := 0b100110#6, sdaSlv := false } }
     s.seq.ustep = [1] ∧ 0x00#8 = constantByte s.env.sdaSlv ∧ (24#8 : Byte).toNat = meanAfter s 0x00#8 ∧
       25#6 = ~~~ s.env.spN ∧ false = !s.env.ovrN) ∧
    (let s := { at' 0x4500#16 [6, 2] inited with tmp := { inited.tmp with line := [0x41#8, 0x0A#8] } }
     dataOk s = true ∧ s.seq.ustep = [6, 2] ∧ s.ctl.txen = true ∧ s.tmp.line = [0x41#8, 0x0A#8] ∧
       s.txQueue.length + 2 ≤ s.cfg.txCap - 1) := by decide
/-- `OperationsNeverFail`, `TransportOperationsNeverFailAfterInit`: the deepest positions. -/
theorem test_witness_legal_positions :
    (Instr.ctlBoot.isEvent = false ∧ legalPos .ctlBoot [3, 3, 4] = true ∧ legalPos .ctlBoot [3, 2, 2, 7] = true) ∧
      (legalPos .ctlIter [2, 3, 2, 7] = true ∧ inited.ctl.txen = true ∧ inited.ctl.rxen = true) := by
  refine ⟨⟨rfl, ?_, ?_⟩, ?_, rfl, rfl⟩ <;> decide
theorem test_witness_position_is_legal : PosLegal State.reset ∧ ∃ t, step State.reset = .next t :=
  ⟨show legalPos .ctlBoot [1] = true by decide, ⟨_, rfl⟩⟩
/-- `ResetValues`, `ResetMeetsTheInvariants`. -/
theorem test_witness_reset : State.reset = State.resetWith Config.vectors defaultProgram ∧
    Instr.evtTick.isEvent = true ∧ eventEnabled .evtTick State.reset = true := ⟨rfl, rfl, rfl⟩
/-! Fair runs for `SendCompletesUnderFairness`: the foreground, `EVT.TXR`, the transmitter, and the tick take turns for ever, from
the last micro-step of a send alone, in `CTL.STATUS` and in `CTL.ITER`, each followed by a `SEQ.END`. -/

/-- Whose turn it is. -/
def fairWho (n : Nat) : SchedItem :=
  if n % 4 = 0 then .fg else if n % 4 = 1 then .event 0xE100#16 else if n % 4 = 2 then .env .txReady else .event 0xE200#16

/-- A run's first state: the byte is published and `TXIE` is about to be set by the command w at position p. -/
def fairStart (w : CmdWord) (p : List Nat) : State :=
  { inited with
    prog := [w, 0x0200#16], seq := { pc := 0#8, ustep := p }
    tx := { buf := [(1, 0x41#8)], head := 1#8, tail := 0#8 }, tmp := { inited.tmp with line := [0x41#8] } }

/-- The run from a state. -/
def fairRun (start : State) : Nat → State
  | 0 => start
  | n + 1 =>
    match step ((fairRun start n).setSched [fairWho n]) with
    | .next t => t
    | .fault _ | .refused _ => fairRun start n

/-- What the runs keep. -/
def FairKept (s : State) : Prop :=
  s.ser.rxHw = none ∧
    (s.prog = [0x1141#16, 0x0200#16] ∧ s.seq = { pc := 0#8, ustep := [5] } ∨
      s.prog = [0x4300#16, 0x0200#16] ∧ s.seq = { pc := 0#8, ustep := [2, 5] } ∧ s.tmp.line = [0x41#8] ∨
      s.prog = [0x4500#16, 0x0200#16] ∧ s.seq = { pc := 0#8, ustep := [6, 2, 5] } ∧ s.tmp.line = [0x41#8] ∨
      s.prog = [0x4500#16, 0x0200#16] ∧ s.seq = { pc := 0#8, ustep := [7] } ∨
      (∃ w, s.prog = [w, 0x0200#16]) ∧ s.seq = { pc := 1#8, ustep := [1] })

theorem fair_fg (s : State) (h : FairKept s) : ∃ t, step (s.setSched [.fg]) = .next t ∧ FairKept t := by
  cases s with | mk cfg prog rx tx ctl ser bus smooth lat coil tick seq tmp env trace sched =>
  cases tmp with | mk h1 t1 i r v sum k line =>
  obtain ⟨hr, h⟩ := h
  simp only at h
  rcases h with ⟨rfl, rfl⟩ | ⟨rfl, rfl, rfl⟩ | ⟨rfl, rfl, rfl⟩ | ⟨rfl, rfl⟩ | ⟨⟨w, rfl⟩, rfl⟩
  · exact ⟨_, rfl, hr, .inr (.inr (.inr (.inr ⟨⟨_, rfl⟩, rfl⟩)))⟩
  · exact ⟨_, rfl, hr, .inr (.inr (.inr (.inr ⟨⟨_, rfl⟩, rfl⟩)))⟩
  · exact ⟨_, rfl, hr, .inr (.inr (.inr (.inl ⟨rfl, rfl⟩)))⟩
  · exact ⟨_, rfl, hr, .inr (.inr (.inr (.inr ⟨⟨_, rfl⟩, rfl⟩)))⟩
  · exact ⟨_, rfl, hr, .inr (.inr (.inr (.inr ⟨⟨_, rfl⟩, rfl⟩)))⟩

theorem fair_step (s : State) (n : Nat) (h : FairKept s) :
    ∃ t, step (s.setSched [fairWho n]) = .next t ∧ FairKept t := by
  unfold fairWho
  split
  · exact fair_fg s h
  · split
    · refine ⟨_, (show step (s.setSched [.event 0xE100#16]) = exec .evtTxr (s.setSched []) from rfl).trans
        (takeEvent_eq _ _ _), ?_⟩
      split
      · unfold txrHandler
        split <;> exact h
      · exact h
    · split
      · exact ⟨_, rfl, h⟩
      · refine ⟨_, (show step (s.setSched [.event 0xE200#16]) =
          takeEvent (tickEnabled (s.setSched [])) tickHandler (s.setSched []) from rfl).trans
          (takeEvent_eq _ _ _), ?_⟩
        simp only [tickEnabled, if_true]
        unfold tickHandler
        split <;> exact h

theorem fairRun_kept {start : State} (h : FairKept start) (n : Nat) : FairKept (fairRun start n) := by
  induction n with
  | zero => exact h
  | succ n ih =>
    obtain ⟨t, ht, hk⟩ := fair_step _ n ih
    simp only [fairRun, ht]
    exact hk

/-- Every run above is fair. -/
theorem fair_run_is_fair {start : State} (h : FairKept start) :
    IsRun fairWho (fairRun start) ∧ EvtFair fairWho (fairRun start) ∧ TxFair fairWho (fairRun start) ∧
      FgFair fairWho (fairRun start) := by
  refine ⟨fun n => ?_, fun i hi n hn => ?_, fun n _ => ⟨4 * n + 2, by omega, ?_⟩, fun n _ => ⟨4 * n, by omega, ?_⟩⟩
  · obtain ⟨t, ht, -⟩ := fair_step _ n (fairRun_kept h n)
    simp only [AgentStep, fairRun, ht]
  · cases i with
    | evtRxc d =>
      have hd := hn n (Nat.le_refl n)
      simp [eventEnabled, (fairRun_kept h n).1] at hd
    | evtTxr => exact ⟨4 * n + 1, by omega, by simp [fairWho, Nat.add_mod]; rfl⟩
    | evtTick => exact ⟨4 * n + 3, by omega, by simp [fairWho, Nat.add_mod]; rfl⟩
    | _ => simp [Instr.isEvent] at hi
  · simp [fairWho, Nat.add_mod]
  · simp [fairWho]

/-- `SendCompletesUnderFairness`: every other hypothesis, and those of its clauses, at instant 0 of the three runs. -/
theorem test_witness_fair_run :
    ∀ x ∈ [(0x1141#16, [5], Instr.uartSend 0x41#8), (0x4300#16, [2, 5], .ctlStatus), (0x4500#16, [6, 2, 5], .ctlIter)],
      FairKept (fairStart x.1 x.2.1) ∧ DataInv (fairStart x.1 x.2.1) ∧ SendInv (fairStart x.1 x.2.1) ∧
        NoStrandedByte (fairStart x.1 x.2.1) ∧ PosLegal (fairStart x.1 x.2.1) ∧ (fairStart x.1 x.2.1).ctl.txen = true ∧
        sendAt (fairStart x.1 x.2.1) = some (0x41#8, 5) ∧ fgCommand (fairStart x.1 x.2.1) = some x.2.2 := by
  have send {s : State} (e : sendAt s = some (0x41#8, 5)) : SendInv s ∧ NoStrandedByte s :=
    ⟨fun b k h => by rw [e] at h; cases h; omega, fun _ => .inr ⟨_, e⟩⟩
  intro x hx
  simp only [List.mem_cons, List.not_mem_nil, or_false] at hx
  rcases hx with rfl | rfl | rfl
  · have e : sendAt (fairStart 0x1141#16 [5]) = some (0x41#8, 5) := by decide
    exact ⟨⟨rfl, .inl ⟨rfl, rfl⟩⟩, dataInv_of (by decide), (send e).1, (send e).2,
      show legalPos (.uartSend 0x41#8) [5] = true by decide, rfl, e, by decide⟩
  · have e : sendAt (fairStart 0x4300#16 [2, 5]) = some (0x41#8, 5) := by decide
    exact ⟨⟨rfl, .inr (.inl ⟨rfl, rfl, rfl⟩)⟩, dataInv_of (by decide), (send e).1, (send e).2,
      show legalPos .ctlStatus [2, 5] = true by decide, rfl, e, by decide⟩
  · have e : sendAt (fairStart 0x4500#16 [6, 2, 5]) = some (0x41#8, 5) := by decide
    exact ⟨⟨rfl, .inr (.inr (.inl ⟨rfl, rfl, rfl⟩))⟩, dataInv_of (by decide), (send e).1, (send e).2,
      show legalPos .ctlIter [6, 2, 5] = true by decide, rfl, e, by decide⟩
/-- `EndOfRunIsDrained`. -/
theorem test_witness_run_over : NoStrandedByte (at' 0x0200#16 [1] inited) ∧ runOver true (at' 0x0200#16 [1] inited) := by
  refine ⟨fun h => absurd rfl h, ?_, ?_, ?_, fun _ => ?_⟩ <;> decide

end Sys2Proof.Tests
end

