-- ==== Sys2Proof/Proofs/Encoding.lean ====
section
/-! PROOFS. The family encoding (30_encoding.md R90 to R98): decoding and encoding are inverse, and the rows of the opcode map
cover exactly the words that decode. -/

namespace Sys2Proof

/-! ### Decoding and encoding are inverse -/

theorem bare_eq_ok_iff {o : Byte} {i j : Instr} : bare o i = .ok j ↔ o = 0#8 ∧ i = j := by
  unfold bare
  split <;> simp [*]

/-- The fields are compared as numbers, which is how the decoder matches on them. -/
theorem packWord_eq_iff {u f : BitVec 4} {o : Byte} {w : CmdWord} :
    packWord u f o = w ↔ (unitField w).toNat = u.toNat ∧ (funcField w).toNat = f.toNat ∧ opdField w = o := by
  constructor
  · rintro rfl
    simp
  · rintro ⟨hu, hf, rfl⟩
    rw [← BitVec.eq_of_toNat_eq hu, ← BitVec.eq_of_toNat_eq hf, packWord_fields]

/-- The encoder's unit and function select the operation's own row of the decoder, which copies the operand byte (R98). -/
theorem decode_encode (i : Instr) : decode (encode i) = .ok i := by
  cases i <;> simp [encode, decode, bare]

/-- In each row of the decoder the word's fields are the three that the encoder packs. -/
theorem encode_of_decode {w : CmdWord} {i : Instr} (h : decode w = .ok i) : encode i = w := by
  revert i
  unfold decode
  split <;> simp [bare_eq_ok_iff, encode, packWord_eq_iff, *]

/-! ### The operand byte -/

theorem packWord_or_opd (u f : BitVec 4) (o : Byte) : packWord u f 0#8 ||| o.setWidth 16 = packWord u f o := by
  have h : o.setWidth 16 = 0#4 ++ 0#4 ++ o := by simp [BitVec.setWidth_eq_append]
  rw [h, packWord, BitVec.or_append, BitVec.or_append]
  simp [packWord]

/-- A row with an operand, as R92 prints it: the row's match with the operand byte in its low half. -/
theorem decode_or_opd (u f : BitVec 4) {i : Byte → Instr} (hi : ∀ o, encode (i o) = packWord u f o) (o : Byte) :
    decode (packWord u f 0#8 ||| o.setWidth 16) = .ok (i o) := by
  rw [packWord_or_opd, ← hi, decode_encode]

theorem and_mask_eq_packWord (w : CmdWord) : w &&& 0xFF00#16 = packWord (unitField w) (funcField w) 0#8 := by
  rw [← Laws.EncodingRow.mask_packWord, packWord_fields]

/-- An operation that decodes with a nonzero operand byte has an operand, so its word decodes with every operand byte. -/
theorem decode_ok_of_opd_ne_zero {w w' : CmdWord} {i : Instr} (hw : w' &&& 0xFF00#16 = w &&& 0xFF00#16)
    (ho : opdField w ≠ 0#8) (h : decode w = .ok i) : ∃ j, decode w' = .ok j := by
  rw [and_mask_eq_packWord, and_mask_eq_packWord, packWord_eq_iff] at hw
  simp only [unitField_packWord, funcField_packWord] at hw
  obtain ⟨hu, hf, -⟩ := hw
  unfold decode at h ⊢
  rw [← hu, ← hf]
  split at h <;> simp_all [bare_eq_ok_iff]

/-! ### The rows of the opcode map -/

/-- Every mask compares the whole high byte, and every match is 0 in the low one. -/
theorem opcodeRows_mask_pattern_high_byte :
    ∀ r ∈ opcodeRows, r.mask &&& 0xFF00#16 = 0xFF00#16 ∧ r.pattern &&& 0xFF00#16 = r.pattern := by decide

/-- A row's match tells the row. -/
theorem opcodeRows_pattern_inj : ∀ r ∈ opcodeRows, ∀ r' ∈ opcodeRows, r.pattern = r'.pattern → r = r' := by decide

theorem covers_iff {r : OpcodeRow} {w : CmdWord} : r.covers w = true ↔ w &&& r.mask = r.pattern := by
  simp [OpcodeRow.covers]

/-- A covered word has the unit and the function of its row's match. -/
theorem and_mask_of_covers {r : OpcodeRow} {w : CmdWord} (hr : r ∈ opcodeRows) (h : r.covers w = true) :
    w &&& 0xFF00#16 = r.pattern := by
  obtain ⟨hm, hp⟩ := opcodeRows_mask_pattern_high_byte r hr
  calc w &&& 0xFF00#16 = w &&& r.mask &&& 0xFF00#16 := by rw [BitVec.and_assoc, hm]
    _ = r.pattern := by rw [covers_iff.mp h, hp]

theorem row_unique {r r' : OpcodeRow} {w : CmdWord} (hr : r ∈ opcodeRows) (hr' : r' ∈ opcodeRows)
    (h : r.covers w = true) (h' : r'.covers w = true) : r = r' :=
  opcodeRows_pattern_inj r hr r' hr' ((and_mask_of_covers hr h).symm.trans (and_mask_of_covers hr' h'))

open Laws.EncodingRow in
/-- The family `EncodingRow`, gathered over the operations. -/
theorem exists_row_covers_encode (i : Instr) : ∃ r ∈ opcodeRows, r.covers (encode i) = true :=
  match i with
  | .seqNop => seqNop | .seqJmp a => seqJmp a | .seqEnd => seqEnd
  | .uartInit => uartInit | .uartSend b => uartSend b | .uartAvail => uartAvail | .uartRecv => uartRecv
  | .busInit => busInit | .busStart => busStart | .busStop => busStop | .busWbit b => busWbit b
  | .busRbit => busRbit | .busWbyte v => busWbyte v | .busRbyte a => busRbyte a
  | .tempRead => tempRead | .tempSmooth x => tempSmooth x | .tempPreload t => tempPreload t
  | .tempSmoothr => tempSmoothr | .tempPreloadr => tempPreloadr
  | .ctlSetpt => ctlSetpt | .ctlOvr => ctlOvr | .ctlHyst => ctlHyst | .ctlStatus => ctlStatus
  | .ctlSleep => ctlSleep | .ctlIter => ctlIter | .ctlBoot => ctlBoot
  | .evtRxc d => evtRxc d | .evtTxr => evtTxr | .evtTick => evtTick

theorem exists_row_of_decode {w : CmdWord} {i : Instr} (h : decode w = .ok i) : ∃ r ∈ opcodeRows, r.covers w = true :=
  encode_of_decode h ▸ exists_row_covers_encode i

/-- The last word that a row covers: the bits outside its mask are all 1, so a row with an operand has 0xFF in the operand byte. -/
def OpcodeRow.lastWord (r : OpcodeRow) : CmdWord := r.pattern ||| ~~~r.mask

theorem covers_lastWord : ∀ r ∈ opcodeRows, r.covers r.lastWord = true := by decide

theorem opcodeRows_without_or_with_operand : ∀ r ∈ opcodeRows, r.mask = 0xFFFF#16 ∨ opdField r.lastWord ≠ 0#8 := by decide

theorem decode_lastWord {r : OpcodeRow} (hr : r ∈ opcodeRows) : ∃ i, decode r.lastWord = .ok i := by
  have hok : ∀ r ∈ opcodeRows, (decode r.lastWord).isOk = true := by decide
  specialize hok r hr
  cases h : decode r.lastWord with
  | ok i => exact ⟨i, rfl⟩
  | error e => simp [h, Except.isOk, Except.toBool] at hok

/-- A row without an operand covers one word alone. -/
theorem eq_pattern_of_covers {r : OpcodeRow} {w : CmdWord} (hm : r.mask = 0xFFFF#16) (h : r.covers w = true) :
    w = r.pattern := by
  rw [← covers_iff.mp h, hm]
  exact BitVec.and_allOnes.symm

/-- A row's last word decodes, so the row's one word does, or every word with its unit and function. -/
theorem decode_of_covers {r : OpcodeRow} {w : CmdWord} (hr : r ∈ opcodeRows) (h : r.covers w = true) :
    ∃ i, decode w = .ok i := by
  have hlast := covers_lastWord r hr
  obtain ⟨i, hi⟩ := decode_lastWord hr
  rcases opcodeRows_without_or_with_operand r hr with hm | ho
  · rw [eq_pattern_of_covers hm h, ← eq_pattern_of_covers hm hlast]
    exact ⟨i, hi⟩
  · exact decode_ok_of_opd_ne_zero ((and_mask_of_covers hr h).trans (and_mask_of_covers hr hlast).symm) ho hi

/-! ### The obligations -/

/-- Settles O3: the round trips row by row, disjointness by the high byte that a row's match fixes, and an uncovered word is
reserved because the word of every operation is covered. -/
theorem decodeAndEncodeAgree : Obligations.DecodeAndEncodeAgree := by
  unfold Obligations.DecodeAndEncodeAgree
  refine ⟨decode_encode, fun _ _ => encode_of_decode, fun _ _ hr _ hr' => row_unique hr hr', fun w hnone => ?_⟩
  cases hw : decode w with
  | error e => exact ⟨e, rfl⟩
  | ok i =>
    obtain ⟨r, hr, hcov⟩ := exists_row_of_decode hw
    simp [hnone r hr] at hcov

/-- Settles O2: each row is the encoder's word of its operation, and a row's last word shows that the words it covers decode. -/
theorem opcodeMapIsComplete : Obligations.OpcodeMapIsComplete := by
  unfold Obligations.OpcodeMapIsComplete
  refine ⟨?seq, ?uart, ?bus, ?temp, ?ctl, ?evt, ?rows⟩
  case seq => exact ⟨decode_encode .seqNop, decode_or_opd 0 1 fun _ => rfl, decode_encode .seqEnd⟩
  case uart =>
    exact ⟨decode_encode .uartInit, decode_or_opd 1 1 fun _ => rfl, decode_encode .uartAvail, decode_encode .uartRecv⟩
  case bus =>
    exact ⟨decode_encode .busInit, decode_encode .busStart, decode_encode .busStop, decode_or_opd 2 3 fun _ => rfl,
      decode_encode .busRbit, decode_or_opd 2 5 fun _ => rfl, decode_or_opd 2 6 fun _ => rfl⟩
  case temp =>
    exact ⟨decode_encode .tempRead, decode_or_opd 3 1 fun _ => rfl, decode_or_opd 3 2 fun _ => rfl,
      decode_encode .tempSmoothr, decode_encode .tempPreloadr⟩
  case ctl =>
    exact ⟨decode_encode .ctlSetpt, decode_encode .ctlOvr, decode_encode .ctlHyst, decode_encode .ctlStatus,
      decode_encode .ctlSleep, decode_encode .ctlIter, decode_encode .ctlBoot⟩
  case evt => exact ⟨decode_or_opd 14 0 fun _ => rfl, decode_encode .evtTxr, decode_encode .evtTick⟩
  case rows =>
    exact fun w => ⟨fun ⟨_, h⟩ => exists_row_of_decode h, fun ⟨_, hr, h⟩ => decode_of_covers hr h⟩

end Sys2Proof
end

