-- ==== Sys2Proof/Proofs/Transport.lean ====
section
/-! PROOFS. The family byte transport (40_ring_fifo_transport.md R110 to R120): a ring is a bounded queue, each micro-step of the
transport operations is its line of the rule, and an overflow of the receive ring loses what R116 and R119 say. -/

namespace Sys2Proof.Machine

/-! ### Indices modulo the capacity -/

theorem IsCapacity.maskedNext_inj {C : Nat} (hC : IsCapacity C) {i j : Byte} (hi : i.toNat < C) (hj : j.toNat < C)
    (h : maskedNext C i = maskedNext C j) : i = j := by
  have e := congrArg BitVec.toNat h
  rw [maskedNext_of_lt hC hi, maskedNext_of_lt hC hj] at e
  apply BitVec.eq_of_toNat_eq
  split_ifs at e <;> omega

theorem IsCapacity.maskedNext_ne {C : Nat} (hC : IsCapacity C) {i : Byte} (hi : i.toNat < C) : maskedNext C i ≠ i := by
  intro h
  have e := congrArg BitVec.toNat h
  have := hC.bounds
  rw [maskedNext_of_lt hC hi] at e
  split at e <;> omega

theorem slotAfter_succ (C : Nat) (t : Byte) (k : Nat) : slotAfter C t (k + 1) = slotAfter C (maskedNext C t) k := by
  induction k with
  | zero => rfl
  | succ k ih => exact congrArg (maskedNext C) ih

theorem IsCapacity.slotAfter_inj {C : Nat} (hC : IsCapacity C) {t : Byte} (ht : t.toNat < C) {j k : Nat} (hj : j < C)
    (hk : k < C) (h : slotAfter C t j = slotAfter C t k) : j = k := by
  have e := congrArg BitVec.toNat h
  rw [slotAfter_toNat hC ht, slotAfter_toNat hC ht] at e
  have : j % C = k % C := Nat.ModEq.add_left_cancel' _ e
  rwa [Nat.mod_eq_of_lt hj, Nat.mod_eq_of_lt hk] at this

/-! ### A ring's two moves (R111) -/

/-- Both indices name slots of the ring (R23). -/
structure Ring.InRange (C : Nat) (r : Ring) : Prop where
  head : r.head.toNat < C
  tail : r.tail.toNat < C

theorem DataInv.rx_inRange {s : State} (h : DataInv s) : s.rx.InRange s.cfg.rxCap := ⟨h.rxHead, h.rxTail⟩

theorem DataInv.tx_inRange {s : State} (h : DataInv s) : s.tx.InRange s.cfg.txCap := ⟨h.txHead, h.txTail⟩

/-- The producer's move: the head advances and its slot takes the byte, whether or not the ring is full. -/
def Ring.push (C : Nat) (v : Byte) (r : Ring) : Ring :=
  { r with head := maskedNext C r.head, buf := r.buf.write (maskedNext C r.head).toNat v }

/-- The consumer's move: the tail advances. -/
def Ring.pop (C : Nat) (r : Ring) : Ring := { r with tail := maskedNext C r.tail }

section Rings

variable {C : Nat} {r : Ring}

@[simp] theorem Ring.push_head (v : Byte) : (r.push C v).head = maskedNext C r.head := rfl
@[simp] theorem Ring.push_tail (v : Byte) : (r.push C v).tail = r.tail := rfl
@[simp] theorem Ring.push_buf (v : Byte) : (r.push C v).buf = r.buf.write (maskedNext C r.head).toNat v := rfl
@[simp] theorem Ring.pop_head : (r.pop C).head = r.head := rfl
@[simp] theorem Ring.pop_tail : (r.pop C).tail = maskedNext C r.tail := rfl
@[simp] theorem Ring.pop_buf : (r.pop C).buf = r.buf := rfl

theorem Ring.pop_push (v : Byte) : (r.push C v).pop C = (r.pop C).push C v := rfl

theorem Ring.InRange.push (hC : IsCapacity C) (hr : r.InRange C) (v : Byte) : (r.push C v).InRange C :=
  ⟨maskedNext_lt hC _, hr.tail⟩

theorem Ring.InRange.pop (hC : IsCapacity C) (hr : r.InRange C) : (r.pop C).InRange C :=
  ⟨hr.head, maskedNext_lt hC _⟩

/-! ### The count (R112) -/

theorem ringCount_eq_zero_iff (hC : IsCapacity C) (hr : r.InRange C) :
    ringCount C r.head r.tail = 0 ↔ r.head = r.tail := by
  obtain ⟨hh, ht⟩ := hr
  rw [ringCount_of_lt hC hh ht, ← BitVec.toNat_inj]
  split <;> omega

/-- The ring is full when C - 1 bytes are queued. -/
theorem ringCount_eq_pred_iff (hC : IsCapacity C) (hr : r.InRange C) :
    ringCount C r.head r.tail = C - 1 ↔ maskedNext C r.head = r.tail := by
  obtain ⟨hh, ht⟩ := hr
  have := hC.bounds
  rw [ringCount_of_lt hC hh ht, ← BitVec.toNat_inj, maskedNext_of_lt hC hh]
  split_ifs <;> omega

theorem ringCount_push (hC : IsCapacity C) (hr : r.InRange C) (hroom : maskedNext C r.head ≠ r.tail) (v : Byte) :
    ringCount C (r.push C v).head (r.push C v).tail = ringCount C r.head r.tail + 1 := by
  obtain ⟨hh, ht⟩ := hr
  rw [Ne, ← BitVec.toNat_inj, maskedNext_of_lt hC hh] at hroom
  rw [Ring.push_head, Ring.push_tail, ringCount_of_lt hC hh ht, ringCount_of_lt hC (maskedNext_lt hC _) ht,
    maskedNext_of_lt hC hh]
  split_ifs at hroom ⊢ <;> omega

theorem ringCount_pop (hC : IsCapacity C) (hr : r.InRange C) (hne : r.head ≠ r.tail) :
    ringCount C r.head r.tail = ringCount C (r.pop C).head (r.pop C).tail + 1 := by
  obtain ⟨hh, ht⟩ := hr
  rw [Ne, ← BitVec.toNat_inj] at hne
  rw [Ring.pop_head, Ring.pop_tail, ringCount_of_lt hC hh ht, ringCount_of_lt hC hh (maskedNext_lt hC _),
    maskedNext_of_lt hC ht]
  split_ifs <;> omega

/-- The head is the slot of the byte queued last. -/
theorem slotAfter_ringCount (hC : IsCapacity C) (hr : r.InRange C) :
    slotAfter C r.tail (ringCount C r.head r.tail) = r.head := by
  obtain ⟨hh, ht⟩ := hr
  apply BitVec.eq_of_toNat_eq
  rw [slotAfter_toNat hC ht, ringCount_of_lt hC hh ht]
  split
  · rw [Nat.add_sub_cancel' ‹_›, Nat.mod_eq_of_lt hh]
  · have e : r.tail.toNat + (r.head.toNat + C - r.tail.toNat) = r.head.toNat + C := by omega
    rw [e, Nat.add_mod_right, Nat.mod_eq_of_lt hh]

/-! ### The queue -/

theorem Ring.queue_of_empty (id : MemId) (hC : IsCapacity C) (hr : r.InRange C) (h : r.head = r.tail) :
    r.queue id C = [] := by
  rw [← List.length_eq_zero_iff, Ring.queue_length, ringCount_eq_zero_iff hC hr, h]

/-- A move of the head into a free slot appends, and no queued byte is in that slot. -/
theorem Ring.queue_push (id : MemId) (hC : IsCapacity C) (hr : r.InRange C) (hroom : maskedNext C r.head ≠ r.tail)
    (v : Byte) : (r.push C v).queue id C = r.queue id C ++ [v] := by
  have hcount := ringCount_push hC hr hroom v
  have hlt : ringCount C r.head r.tail + 1 < C := hcount ▸ ringCount_lt hC _ _
  have hnew : slotAfter C r.tail (ringCount C r.head r.tail + 1) = maskedNext C r.head :=
    congrArg (maskedNext C) (slotAfter_ringCount hC hr)
  rw [Ring.queue, hcount, List.range_succ, List.map_append, Ring.queue]
  congr 1
  · refine List.map_congr_left fun k hk => Memory.read_write_other _ _ _ fun e => ?_
    have hk := List.mem_range.mp hk
    have := hC.slotAfter_inj hr.tail (by omega) hlt ((BitVec.eq_of_toNat_eq e).trans hnew.symm)
    omega
  · simp [hnew]

/-- A move of the tail removes the oldest byte, which is in the slot the tail moves to. -/
theorem Ring.queue_eq_cons (id : MemId) (hC : IsCapacity C) (hr : r.InRange C) (hne : r.head ≠ r.tail) :
    r.queue id C = r.buf.read id (maskedNext C r.tail).toNat :: (r.pop C).queue id C := by
  rw [Ring.queue, ringCount_pop hC hr hne, List.range_succ_eq_map, List.map_cons, List.map_map, Ring.queue]
  congr 1
  exact List.map_congr_left fun k _ => by simp [slotAfter_succ C r.tail]

/-! ### An overflow (R116, R119) -/

theorem Ring.head_ne_tail_of_full (hC : IsCapacity C) (hr : r.InRange C) (hfull : maskedNext C r.head = r.tail) :
    r.head ≠ r.tail :=
  hfull ▸ (hC.maskedNext_ne hr.head).symm

/-- Whatever the ring holds, a push leaves the slot that the consumer reads next, unless the ring is empty. -/
theorem Ring.push_read_next_tail (id : MemId) (hC : IsCapacity C) (hr : r.InRange C) (hne : r.head ≠ r.tail) (v : Byte) :
    (r.push C v).buf.read id (maskedNext C r.tail).toNat = r.buf.read id (maskedNext C r.tail).toNat :=
  Memory.read_write_other _ _ _ fun e => hne (hC.maskedNext_inj hr.tail hr.head (BitVec.eq_of_toNat_eq e)).symm

/-- A push on a full ring whose consumer then moves on is the push that the freed slot would have had room for. -/
theorem Ring.queue_pop_push_of_full (id : MemId) (hC : IsCapacity C) (hr : r.InRange C)
    (hfull : maskedNext C r.head = r.tail) (v : Byte) :
    ((r.push C v).pop C).queue id C = (r.pop C).queue id C ++ [v] := by
  rw [Ring.pop_push]
  refine Ring.queue_push id hC (hr.pop hC) ?_ v
  rw [Ring.pop_head, Ring.pop_tail, hfull]
  exact (hC.maskedNext_ne hr.tail).symm

theorem Ring.ringCount_pop_push_of_full (hC : IsCapacity C) (hr : r.InRange C) (hfull : maskedNext C r.head = r.tail)
    (v : Byte) : ringCount C ((r.push C v).pop C).head ((r.push C v).pop C).tail = C - 1 := by
  rw [ringCount_eq_pred_iff hC ((hr.push hC v).pop hC)]
  exact congrArg (maskedNext C) hfull

end Rings

/-! ### Running one micro-step -/

section Moves

variable {i : Instr} {m : Micro} {s t : State} {p q : List Nat}

theorem exec_of_more (hi : microOf i = some m) (hp : s.seq.ustep = p) (h : m p s = .more q t) :
    exec i s = .next (t.goesTo q) := by
  rw [exec_eq_runFg hi]
  exact runFg_of_more (hp ▸ h)

theorem exec_of_done (hi : microOf i = some m) (hp : s.seq.ustep = p) (h : m p s = .done t) :
    exec i s = .next t.finished := by
  rw [exec_eq_runFg hi]
  exact runFg_of_done (hp ▸ h)

/-- A hold: the operation goes on at the position it stands at. -/
theorem exec_of_hold (hi : microOf i = some m) (hp : s.seq.ustep = p) (h : m p s = .more p s) : exec i s = .next s := by
  rw [exec_of_more hi hp h, s.goesTo_self hp]

theorem execTimes_succ (n : Nat) (h : exec i s = .next t) : execTimes (n + 1) i s = execTimes n i t := by
  rw [execTimes, h]

theorem execTimes_one (h : exec i s = .next t) : execTimes 1 i s = .next t := execTimes_succ 0 h

/-! ### `UART.SEND` (R114) -/

theorem exec_uartSend_u1 (b : Byte) (hp : s.seq.ustep = [1]) (htx : s.ctl.txen = true) :
    exec (.uartSend b) s =
      .next (State.goesTo { s with tmp := { s.tmp with h1 := maskedNext s.cfg.txCap s.tx.head } } [2]) :=
  exec_of_more rfl hp (if_pos htx)

theorem exec_uartSend_u2_of_full (b : Byte) (hp : s.seq.ustep = [2]) (h : s.tmp.h1 = s.tx.tail) :
    exec (.uartSend b) s = .next s :=
  exec_of_hold rfl hp (if_pos h)

theorem exec_uartSend_u2_of_room (b : Byte) (hp : s.seq.ustep = [2]) (h : s.tmp.h1 ≠ s.tx.tail) :
    exec (.uartSend b) s = .next (s.goesTo [3]) :=
  exec_of_more rfl hp (if_neg h)

theorem exec_uartSend_u3 (b : Byte) (hp : s.seq.ustep = [3]) :
    exec (.uartSend b) s =
      .next (State.goesTo { s with tx := { s.tx with buf := s.tx.buf.write s.tmp.h1.toNat b } } [4]) :=
  exec_of_more rfl hp rfl

theorem exec_uartSend_u4 (b : Byte) (hp : s.seq.ustep = [4]) :
    exec (.uartSend b) s = .next (State.goesTo { s with tx := { s.tx with head := s.tmp.h1 } } [5]) :=
  exec_of_more rfl hp rfl

theorem exec_uartSend_u5 (b : Byte) (hp : s.seq.ustep = [5]) :
    exec (.uartSend b) s = .next (State.finished { s with ctl := { s.ctl with txie := true } }) :=
  exec_of_done rfl hp rfl

/-- `UART.SEND` on a ring with room: the head's move and the arming, with no hold. -/
theorem execTimes_uartSend_of_room (b : Byte) (hp : s.seq.ustep = [1]) (htx : s.ctl.txen = true)
    (hroom : maskedNext s.cfg.txCap s.tx.head ≠ s.tx.tail) :
    execTimes 5 (.uartSend b) s = .next (State.finished { s with
      tmp := { s.tmp with h1 := maskedNext s.cfg.txCap s.tx.head }
      tx := s.tx.push s.cfg.txCap b
      ctl := { s.ctl with txie := true } }) := by
  rw [execTimes_succ 4 (exec_uartSend_u1 b hp htx), execTimes_succ 3 (exec_uartSend_u2_of_room b rfl hroom),
    execTimes_succ 2 (exec_uartSend_u3 b rfl), execTimes_succ 1 (exec_uartSend_u4 b rfl),
    execTimes_one (exec_uartSend_u5 b rfl)]
  rfl

/-! ### `UART.RECV` (R116) -/

theorem uUartRecv_u1 (hrx : s.ctl.rxen = true) :
    uUartRecv [1] s = if s.rx.isEmpty then .more [1] s else .more [2] s :=
  if_pos hrx

theorem exec_uartRecv_u1_of_empty (hp : s.seq.ustep = [1]) (hrx : s.ctl.rxen = true) (h : s.rx.head = s.rx.tail) :
    exec .uartRecv s = .next s :=
  exec_of_hold rfl hp ((uUartRecv_u1 hrx).trans (if_pos (s.rx.isEmpty_iff.mpr h)))

theorem exec_uartRecv_u1_of_nonempty (hp : s.seq.ustep = [1]) (hrx : s.ctl.rxen = true) (h : s.rx.head ≠ s.rx.tail) :
    exec .uartRecv s = .next (s.goesTo [2]) :=
  exec_of_more rfl hp ((uUartRecv_u1 hrx).trans (if_neg (mt s.rx.isEmpty_iff.mp h)))

theorem exec_uartRecv_u2 (hp : s.seq.ustep = [2]) :
    exec .uartRecv s =
      .next (State.goesTo { s with tmp := { s.tmp with t1 := maskedNext s.cfg.rxCap s.rx.tail } } [3]) :=
  exec_of_more rfl hp rfl

theorem exec_uartRecv_u3 (hp : s.seq.ustep = [3]) :
    exec .uartRecv s = .next (State.goesTo { s with rx := { s.rx with tail := s.tmp.t1 } } [4]) :=
  exec_of_more rfl hp rfl

theorem exec_uartRecv_u4 (hp : s.seq.ustep = [4]) :
    exec .uartRecv s =
      .next (State.finished { s with lat := { s.lat with res := s.rx.buf.read .rxBuf s.tmp.t1.toNat } }) :=
  exec_of_done rfl hp rfl

/-- The end of a `UART.RECV` from u3: the tail advances and the byte of its new slot is answered. -/
theorem execTimes_uartRecv_from_u3 (hp : s.seq.ustep = [3]) (ht1 : s.tmp.t1 = maskedNext s.cfg.rxCap s.rx.tail) :
    execTimes 2 .uartRecv s = .next (State.finished { s with
      rx := s.rx.pop s.cfg.rxCap
      lat := { s.lat with res := s.rx.buf.read .rxBuf (maskedNext s.cfg.rxCap s.rx.tail).toNat } }) := by
  rw [execTimes_succ 1 (exec_uartRecv_u3 hp), execTimes_one (exec_uartRecv_u4 rfl), ← ht1, Ring.pop, ← ht1]
  rfl

theorem execTimes_uartRecv_from_u2 (hp : s.seq.ustep = [2]) :
    execTimes 3 .uartRecv s = .next (State.finished { s with
      tmp := { s.tmp with t1 := maskedNext s.cfg.rxCap s.rx.tail }
      rx := s.rx.pop s.cfg.rxCap
      lat := { s.lat with res := s.rx.buf.read .rxBuf (maskedNext s.cfg.rxCap s.rx.tail).toNat } }) :=
  (execTimes_succ 2 (exec_uartRecv_u2 hp)).trans (execTimes_uartRecv_from_u3 rfl rfl)

/-! ### The events (R117, R118) -/

theorem takeEvent_of_enabled {e : Bool} (f : State → State) (s : State) (h : e = true) : takeEvent e f s = .next (f s) := by
  rw [takeEvent_eq, if_pos h]

theorem takeEvent_next {e : Bool} {f : State → State} (h : takeEvent e f s = .next t) : t = f s ∨ t = s := by
  rw [takeEvent_eq, Host.Outcome.next.injEq] at h
  cases e
  · exact .inr h.symm
  · exact .inl h.symm

/-- What an event can do: nothing, when it is not enabled, or what its handler does. -/
theorem exec_event_next (he : i.isEvent = true) (h : exec i s = .next t) :
    t = s ∨ (∃ d, i = .evtRxc d ∧ t = rxcHandler s) ∨ (i = .evtTxr ∧ t = txrHandler s) ∨
      (i = .evtTick ∧ t = tickHandler s) := by
  cases i <;> simp only [Instr.isEvent, Bool.false_eq_true] at he
  case evtRxc d => rcases takeEvent_next h with rfl | rfl <;> simp
  case evtTxr => rcases takeEvent_next h with rfl | rfl <;> simp
  case evtTick =>
    have h : takeEvent (tickEnabled s) tickHandler s = .next t := h
    rcases takeEvent_next h with rfl | rfl <;> simp

/-- The receive-complete handler leaves all but the receive ring and the byte in the serial hardware. -/
theorem rxcHandler_frame (s : State) : rxcHandler s = { s with rx := (rxcHandler s).rx, ser := (rxcHandler s).ser } := by
  unfold rxcHandler
  split <;> rfl

theorem txrHandler_rx (s : State) : (txrHandler s).rx = s.rx := by
  unfold txrHandler
  split <;> rfl

theorem tickHandler_frame (s : State) : tickHandler s = { s with tick := (tickHandler s).tick } := by
  unfold tickHandler
  split <;> rfl

/-- Only `EVT.RXC` writes the receive ring. -/
theorem exec_event_rx (he : i.isEvent = true) (hi : ∀ d, i ≠ .evtRxc d) (h : exec i s = .next t) : t.rx = s.rx := by
  rcases exec_event_next he h with rfl | ⟨d, rfl, -⟩ | ⟨-, rfl⟩ | ⟨-, rfl⟩
  · rfl
  · exact absurd rfl (hi d)
  · exact txrHandler_rx s
  · rw [tickHandler_frame]

/-- An event other than `EVT.TXR` leaves the transmit ring, and the temporaries of the foreground (R246). -/
theorem exec_event_tx_tmp (he : i.isEvent = true) (hi : i ≠ .evtTxr) (h : exec i s = .next t) :
    t.tx = s.tx ∧ t.tmp = s.tmp := by
  rcases exec_event_next he h with rfl | ⟨d, -, rfl⟩ | ⟨rfl, -⟩ | ⟨-, rfl⟩
  · exact ⟨rfl, rfl⟩
  · rw [rxcHandler_frame]; exact ⟨rfl, rfl⟩
  · exact absurd rfl hi
  · rw [tickHandler_frame]; exact ⟨rfl, rfl⟩

theorem eventEnabled_evtRxc_iff {d : Byte} :
    eventEnabled (.evtRxc d) s = true ↔ s.ctl.rxen = true ∧ s.ctl.rxcie = true ∧ s.ser.rxHw = some d := by
  simp [eventEnabled, and_assoc]

theorem eventEnabled_evtTxr_iff :
    eventEnabled .evtTxr s = true ↔ s.ctl.txen = true ∧ s.ctl.txie = true ∧ s.ser.txHwReady = true := by
  simp [eventEnabled, and_assoc]

/-- The state after the byte of the serial hardware went into the receive ring. -/
def State.received (d : Byte) (s : State) : State :=
  { s with ser := { s.ser with rxHw := none }, rx := s.rx.push s.cfg.rxCap d }

theorem rxcHandler_of_some {d : Byte} (h : s.ser.rxHw = some d) : rxcHandler s = s.received d := by
  rw [rxcHandler, h]; rfl

theorem exec_evtRxc {d : Byte} (h : eventEnabled (.evtRxc d) s = true) : exec (.evtRxc d) s = .next (s.received d) := by
  obtain ⟨-, -, hhw⟩ := eventEnabled_evtRxc_iff.mp h
  rw [← rxcHandler_of_some hhw]
  exact takeEvent_of_enabled rxcHandler s h

theorem eq_received {d : Byte} (he : eventEnabled (.evtRxc d) s = true) (h : exec (.evtRxc d) s = .next t) :
    t = s.received d := by
  rw [exec_evtRxc he] at h
  exact (Host.Outcome.next.inj h).symm

theorem exec_evtTxr (h : eventEnabled .evtTxr s = true) : exec .evtTxr s = .next (txrHandler s) :=
  takeEvent_of_enabled txrHandler s h

theorem txrHandler_of_nonempty (h : s.tx.head ≠ s.tx.tail) :
    txrHandler s = { s with
      tx := s.tx.pop s.cfg.txCap
      ser := { s.ser with txHwReady := false }
      trace := { s.trace with
        txWire := s.trace.txWire ++ [s.tx.buf.read .txBuf (maskedNext s.cfg.txCap s.tx.tail).toNat] } } :=
  if_neg (mt s.tx.isEmpty_iff.mp h)

theorem txrHandler_of_empty (h : s.tx.head = s.tx.tail) : txrHandler s = { s with ctl := { s.ctl with txie := false } } :=
  if_pos (s.tx.isEmpty_iff.mpr h)

/-! ### An overflow inside a `UART.RECV` (R116) -/

/-- A receive that finishes in `u` after an overflow: the byte in the slot the tail moves to is the oldest one, and the rest and the
new byte stay queued. -/
theorem recv_through_overflow {n : Nat} {u : State} {d : Byte} (hs : DataInv s)
    (hfull : maskedNext s.cfg.rxCap s.rx.head = s.rx.tail) (hrun : execTimes n .uartRecv (s.received d) = .next u)
    (hcfg : u.cfg = s.cfg) (hrx : u.rx = (s.rx.push s.cfg.rxCap d).pop s.cfg.rxCap)
    (hres : u.lat.res = (s.rx.push s.cfg.rxCap d).buf.read .rxBuf (maskedNext s.cfg.rxCap s.rx.tail).toNat) :
    ∃ c q u, s.rxQueue = c :: q ∧ execTimes n .uartRecv (s.received d) = .next u ∧ u.lat.res = c ∧ u.rxQueue = q ++ [d] ∧
      ringCount u.cfg.rxCap u.rx.head u.rx.tail = s.cfg.rxCap - 1 := by
  have hC := rxCap_isCapacity s.cfg
  have hr := hs.rx_inRange
  have hne := Ring.head_ne_tail_of_full hC hr hfull
  have hoverflow := Ring.push_read_next_tail .rxBuf hC hr hne d
  refine ⟨_, _, u, Ring.queue_eq_cons .rxBuf hC hr hne, hrun, hres.trans hoverflow, ?queued, ?count⟩
  case queued => rw [State.rxQueue, hcfg, hrx, Ring.queue_pop_push_of_full .rxBuf hC hr hfull]
  case count => rw [hcfg, hrx, Ring.ringCount_pop_push_of_full hC hr hfull]

end Moves

/-! ### The obligations -/

/-- Settles O13: a byte that arrives goes to a slot other than the one after the tail; an overflow before u3 is a push that the
moved tail leaves room for; one after u3 writes the slot of `t1`, which is then the tail. -/
theorem uartRecvMicroSteps : Obligations.UartRecvMicroSteps := by
  unfold Obligations.UartRecvMicroSteps
  refine ⟨decode_encode .uartRecv, fun s => ⟨?empty, exec_uartRecv_u1_of_nonempty, exec_uartRecv_u2, exec_uartRecv_u3,
    exec_uartRecv_u4⟩, ?arrival, ?beforeU2, ?beforeU3, ?beforeU4⟩
  case empty =>
    refine fun hp hrx hempty => ⟨exec_uartRecv_u1_of_empty hp hrx hempty, fun i t he hi h => ?_⟩
    rw [exec_event_rx he hi h, hempty]
  case arrival =>
    intro s t d hs hne he h
    obtain rfl := eq_received he h
    exact ⟨rfl, Ring.push_read_next_tail .rxBuf (rxCap_isCapacity s.cfg) hs.rx_inRange hne d⟩
  case beforeU2 =>
    intro s t d hs hp hfull he h
    obtain rfl := eq_received he h
    exact recv_through_overflow hs hfull (execTimes_uartRecv_from_u2 hp) rfl rfl rfl
  case beforeU3 =>
    intro s t d hs hp ht1 hfull he h
    obtain rfl := eq_received he h
    exact recv_through_overflow hs hfull (execTimes_uartRecv_from_u3 hp ht1) rfl rfl rfl
  case beforeU4 =>
    intro s t d hs hp ht1 hfull he h
    obtain rfl := eq_received he h
    refine ⟨_, exec_uartRecv_u4 hp, ?_, hfull⟩
    have hslot : (s.received d).tmp.t1 = maskedNext s.cfg.rxCap s.rx.head := ht1.trans hfull.symm
    rw [hslot]
    exact Memory.read_write_self _ _ _ _

/-- Settles O17: the head meets the tail, whose slot is none of the C - 1 slots after it. -/
theorem receiveOverflowEmptiesRing : Obligations.ReceiveOverflowEmptiesRing := by
  unfold Obligations.ReceiveOverflowEmptiesRing
  intro d s hs he hfull
  have hC := rxCap_isCapacity s.cfg
  have hr := hs.rx_inRange
  have hC2 := hC.bounds
  refine ⟨?full, ?unqueued, s.received d, exec_evtRxc he, hfull, rfl, ?emptied, ?stored, ?others, rfl⟩
  case full => exact (Ring.queue_length _ _ _).trans ((ringCount_eq_pred_iff hC hr).mpr hfull)
  case unqueued =>
    intro k hk1 hk h
    have := hC.slotAfter_inj hr.tail (j := k) (k := 0) (by omega) (by omega) h
    omega
  case emptied => exact Ring.queue_of_empty .rxBuf hC (hr.push hC d) hfull
  case stored =>
    rw [← hfull]
    exact Memory.read_write_self _ _ _ _
  case others => exact fun a ha => Memory.read_write_other _ _ _ (hfull ▸ ha)

/-- Settles O18: a count is below the capacity, and it is C - 1 just when the slot after the head is the tail, the condition of both
the hold and the overflow. -/
theorem ringHoldsAtMostCapacityLessOne : Obligations.RingHoldsAtMostCapacityLessOne := by
  unfold Obligations.RingHoldsAtMostCapacityLessOne
  intro s hs
  have hrx := rxCap_isCapacity s.cfg
  have htx := txCap_isCapacity s.cfg
  simp only [State.rxQueue, State.txQueue, Ring.queue_length]
  refine ⟨⟨Nat.le_sub_one_of_lt (ringCount_lt hrx _ _), Nat.le_sub_one_of_lt (ringCount_lt htx _ _)⟩, ?hold, ?overflow⟩
  case hold =>
    intro b hp hh1
    rw [ringCount_eq_pred_iff htx hs.tx_inRange, ← hh1]
    constructor
    · intro h
      by_contra hroom
      rw [exec_uartSend_u2_of_room b hp hroom] at h
      have hpos := congrArg (fun t : State => t.seq.ustep) (Host.Outcome.next.inj h)
      simp [hp] at hpos
    · exact exec_uartSend_u2_of_full b hp
  case overflow =>
    intro d t hcount he h
    obtain rfl := eq_received he h
    exact (ringCount_eq_zero_iff hrx (hs.rx_inRange.push hrx d)).mpr ((ringCount_eq_pred_iff hrx hs.rx_inRange).mp hcount)

/-- Settles O10: the one micro-step of `UART.INIT` is `initTransport`. -/
theorem uartInitResetsTransport : Obligations.UartInitResetsTransport := by
  unfold Obligations.UartInitResetsTransport
  exact ⟨decode_encode .uartInit, fun s hp => exec_of_done rfl hp (once_start _ s)⟩

/-- Settles O11: line by line, and the run is the five lines in order. -/
theorem uartSendMicroSteps : Obligations.UartSendMicroSteps := by
  unfold Obligations.UartSendMicroSteps
  refine fun b s => ⟨decode_or_opd 1 1 (fun _ => rfl) b, exec_uartSend_u1 b, ?hold, exec_uartSend_u2_of_room b,
    exec_uartSend_u3 b, exec_uartSend_u4 b, exec_uartSend_u5 b, execTimes_uartSend_of_room b⟩
  refine fun hp hfull => ⟨exec_uartSend_u2_of_full b hp hfull, fun i t he hi h => ?_⟩
  obtain ⟨htx, htmp⟩ := exec_event_tx_tmp he hi h
  rw [htx, htmp, hfull]

/-- Settles O12: the byte of the answer is 0 when the indices are equal and 1 otherwise. -/
theorem uartAvailAnswersNonEmpty : Obligations.UartAvailAnswersNonEmpty := by
  unfold Obligations.UartAvailAnswersNonEmpty
  refine ⟨decode_encode .uartAvail, fun s hp hrx => ?_⟩
  have hres : byteOfBool (!s.rx.isEmpty) = if s.rx.head = s.rx.tail then 0#8 else 1#8 := by
    by_cases h : s.rx.head = s.rx.tail <;> simp [byteOfBool, Ring.isEmpty, h]
  rw [← hres]
  exact exec_of_done rfl hp (if_pos hrx)

/-- Settles O15: the handler pushes the byte, with no test of the tail. -/
theorem receiveCompleteStoresByte : Obligations.ReceiveCompleteStoresByte := by
  unfold Obligations.ReceiveCompleteStoresByte
  exact ⟨decode_or_opd 14 0 fun _ => rfl, fun _ _ hrx hcie hhw =>
    exec_evtRxc (eventEnabled_evtRxc_iff.mpr ⟨hrx, hcie, hhw⟩)⟩

/-- Settles O16: the two branches of the handler. -/
theorem transmitReadyHandsOver : Obligations.TransmitReadyHandsOver := by
  unfold Obligations.TransmitReadyHandsOver
  refine ⟨decode_encode .evtTxr, fun s htx hie hready => ?_⟩
  rw [exec_evtTxr (eventEnabled_evtTxr_iff.mpr ⟨htx, hie, hready⟩)]
  exact ⟨fun h => congrArg _ (txrHandler_of_nonempty h), fun h => congrArg _ (txrHandler_of_empty h)⟩

end Sys2Proof.Machine
end

