-- ==== Sys2Proof/Proofs/Bus.lean ====
section
/-! PROOFS. The family two-wire bus master (41_two_wire_bus_master.md R150 to R158): each micro-step of the framing and bit operations
is one line action, so an operation's rule is read off its list of actions. -/

namespace Sys2Proof.Machine

/-! ### One micro-step of a straight list -/

section Straight

variable {us : List (State → State)} {i : Instr} {s t : State}

theorem straight_of_more (n : Nat) (hn : n + 1 < us.length) (h : us[n] s = t) :
    straight us [n + 1] s = .more [n + 2] t := by
  simp [straight, List.getElem?_eq_getElem (Nat.lt_of_succ_lt hn), hn.ne, h]

theorem straight_of_done (n : Nat) (hn : n + 1 = us.length) (h : us[n] s = t) : straight us [n + 1] s = .done t := by
  simp [straight, List.getElem?_eq_getElem (Nat.lt_of_succ_le hn.le), hn, h]

/-- Below its last micro-step an operation moves on to the next one. -/
theorem exec_straight_goesTo (hi : microOf i = some (straight us)) (n : Nat) (hn : n + 1 < us.length) (h : us[n] s = t)
    (hp : s.seq.ustep = [n + 1]) : exec i s = .next (t.goesTo [n + 2]) :=
  exec_of_more hi hp (straight_of_more n hn h)

theorem exec_straight_finished (hi : microOf i = some (straight us)) (n : Nat) (hn : n + 1 = us.length) (h : us[n] s = t)
    (hp : s.seq.ustep = [n + 1]) : exec i s = .next t.finished :=
  exec_of_done hi hp (straight_of_done n hn h)

end Straight

/-! ### The line actions (R151, R153) -/

section LineActions

variable (s : State)

theorem sdaLow_eq_busAct : sdaLow s = s.busAct { s.bus with sda := false } .sdaLow := rfl
theorem sdaRel_eq_busAct : sdaRel s = s.busAct { s.bus with sda := true } .sdaRel := rfl
theorem sclLow_eq_busAct : sclLow s = s.busAct { s.bus with scl := false } .sclLow := rfl
theorem sclRel_eq_busAct : sclRel s = s.busAct { s.bus with scl := true } .sclRel := rfl
theorem busDelay_eq_busAct : busDelay s = s.busAct s.bus .delay := rfl

/-- The sample is the wired-AND of the two drives of the data line (R27, R158 u4). -/
theorem sampleSda_eq_busAct :
    sampleSda s = { s.busAct s.bus (.sample (s.bus.sda && s.env.sdaSlv)) with
      tmp := { s.tmp with v := s.bus.sda && s.env.sdaSlv } } := rfl

theorem resFromSample_eq : resFromSample s = { s with lat := { s.lat with res := if s.tmp.v then 1#8 else 0#8 } } := rfl

/-- Any non-zero operand is the bit 1 (R91, R157 u1). -/
theorem driveData_of_ne_zero {b : Byte} (hb : b ≠ 0#8) : driveData (bitOperand b) s = sdaRel s :=
  if_pos (bne_iff_ne.mpr hb)

theorem driveData_zero : driveData (bitOperand 0#8) s = sdaLow s := rfl

end LineActions

/-! ### The obligations -/

/-- Settles O32: the actions of the three lists, in order. None of them tests a line, so no line state is excepted. -/
theorem busFramingMicroSteps : Obligations.BusFramingMicroSteps := by
  unfold Obligations.BusFramingMicroSteps
  refine ⟨⟨decode_encode .busInit, decode_encode .busStart, decode_encode .busStop⟩, fun s => ⟨?init, ?start, ?stop⟩⟩
  case init =>
    exact ⟨exec_straight_goesTo rfl 0 (by simp) (sdaLow_eq_busAct s),
      exec_straight_goesTo rfl 1 (by simp) (sclLow_eq_busAct s),
      exec_straight_goesTo rfl 2 (by simp) (busDelay_eq_busAct s),
      exec_straight_goesTo rfl 3 (by simp) (sclRel_eq_busAct s),
      exec_straight_goesTo rfl 4 (by simp) (sdaRel_eq_busAct s),
      exec_straight_finished rfl 5 rfl (busDelay_eq_busAct s)⟩
  case start =>
    exact ⟨exec_straight_goesTo rfl 0 (by simp) (sdaLow_eq_busAct s),
      exec_straight_goesTo rfl 1 (by simp) (busDelay_eq_busAct s),
      exec_straight_goesTo rfl 2 (by simp) (sclLow_eq_busAct s),
      exec_straight_finished rfl 3 rfl (busDelay_eq_busAct s)⟩
  case stop =>
    exact ⟨exec_straight_goesTo rfl 0 (by simp) (sclRel_eq_busAct s),
      exec_straight_goesTo rfl 1 (by simp) (busDelay_eq_busAct s),
      exec_straight_goesTo rfl 2 (by simp) (sdaRel_eq_busAct s),
      exec_straight_finished rfl 3 rfl (busDelay_eq_busAct s)⟩

/-- Settles O34: the operand is looked at by u1 alone. -/
theorem writeBitMicroSteps : Obligations.WriteBitMicroSteps := by
  unfold Obligations.WriteBitMicroSteps
  refine fun b s => ⟨decode_or_opd 2 3 (fun _ => rfl) b, ?one, ?zero,
    exec_straight_goesTo rfl 1 (by simp) (sclRel_eq_busAct s),
    exec_straight_goesTo rfl 2 (by simp) (busDelay_eq_busAct s),
    exec_straight_goesTo rfl 3 (by simp) (sclLow_eq_busAct s),
    exec_straight_finished rfl 4 rfl (busDelay_eq_busAct s)⟩
  case one =>
    exact fun hp hb => exec_straight_goesTo rfl 0 (by simp) ((driveData_of_ne_zero s hb).trans (sdaRel_eq_busAct s)) hp
  case zero =>
    rintro hp rfl
    exact exec_straight_goesTo rfl 0 (by simp) ((driveData_zero s).trans (sdaLow_eq_busAct s)) hp

/-- Settles O35: only u4 looks at the slave's drive, and u7 answers the sample that u4 left. -/
theorem readBitMicroSteps : Obligations.ReadBitMicroSteps := by
  unfold Obligations.ReadBitMicroSteps
  exact ⟨decode_encode .busRbit, fun s => ⟨exec_straight_goesTo rfl 0 (by simp) (sdaRel_eq_busAct s),
    exec_straight_goesTo rfl 1 (by simp) (sclRel_eq_busAct s),
    exec_straight_goesTo rfl 2 (by simp) (busDelay_eq_busAct s),
    exec_straight_goesTo rfl 3 (by simp) (sampleSda_eq_busAct s),
    exec_straight_goesTo rfl 4 (by simp) (sclLow_eq_busAct s),
    exec_straight_goesTo rfl 5 (by simp) (busDelay_eq_busAct s),
    exec_straight_finished rfl 6 rfl (resFromSample_eq s)⟩⟩

end Sys2Proof.Machine
end

