-- ==== Sys2Proof/Proofs/Smoothing.lean ====
section
/-! PROOFS. The family acquisition and smoothing (42_acquisition_smoothing.md R191, R193): the smoothing buffer is a circular window,
and a whole `TEMP.SMOOTH` inserts the sample and latches the floor of the window's mean. -/

namespace Sys2Proof.Machine

/-! ### The circular window (R191 u1, u2) -/

/-- The move of u1 and u2 together: the cursor's slot takes the sample, and the cursor advances. -/
def Smoothing.insert (w : Smoothing) (x : Byte) : Smoothing :=
  { buf := w.buf.write w.cur.toNat x, cur := w.cur + 1#4 }

section Window

variable (w : Smoothing) (x : Byte) (xs : List Byte)

@[simp] theorem Smoothing.insert_cur : (w.insert x).cur = w.cur + 1#4 := rfl
@[simp] theorem Smoothing.insert_buf : (w.insert x).buf = w.buf.write w.cur.toNat x := rfl

/-- The inserts of a list of samples move the cursor by its length, modulo 16. -/
theorem Smoothing.foldl_insert_cur : (xs.foldl Smoothing.insert w).cur = w.cur + BitVec.ofNat 4 xs.length := by
  induction xs generalizing w with
  | nil => simp
  | cons x xs ih => rw [List.foldl_cons, ih, insert_cur, List.length_cons, BitVec.add_assoc, ← BitVec.ofNat_add, Nat.add_comm]

theorem Smoothing.foldl_insert_cur_toNat :
    (xs.foldl Smoothing.insert w).cur.toNat = (w.cur.toNat + xs.length) % 16 := by
  simp [foldl_insert_cur]

/-- Up to sixteen samples stand in the slots from the cursor on, in order: a later one goes to none of the slots filled so far. -/
theorem Smoothing.foldl_insert_read (hlen : xs.length ≤ 16) {k : Nat} (hk : k < xs.length) :
    (xs.foldl Smoothing.insert w).buf.read .smoothBuf ((w.cur.toNat + k) % 16) = xs[k] := by
  induction xs using List.reverseRecOn with
  | nil => exact absurd hk (Nat.not_lt_zero k)
  | append_singleton xs x ih =>
    rw [List.length_append, List.length_singleton] at hlen hk
    rw [List.foldl_append, List.foldl_cons, List.foldl_nil, insert_buf, foldl_insert_cur_toNat]
    rcases Nat.lt_succ_iff_lt_or_eq.mp hk with h | rfl
    · rw [Memory.read_write_other _ _ _ (by omega), ih (by omega) h, List.getElem_append_left h]
    · rw [Memory.read_write_self, List.getElem_concat_length rfl]

end Window

/-! ### The mean (R191 u3, u4, R193) -/

/-- The sum of the sixteen slots is at most 4080, so the 16-bit temporary holds it (R191). -/
theorem toNat_ofNat_sumTo_smoothDepth (m : Memory) :
    (BitVec.ofNat 16 (m.sumTo .smoothBuf smoothDepth)).toNat = m.sumTo .smoothBuf smoothDepth := by
  have h : m.sumTo .smoothBuf smoothDepth ≤ 16 * 255 := m.sumTo_le .smoothBuf smoothDepth
  rw [BitVec.toNat_ofNat, Nat.mod_eq_of_lt (by omega)]

/-- The shift of u4 divides by the depth. -/
theorem setWidth_shiftRight_smoothShift (sum : BitVec 16) :
    (sum >>> smoothShift).setWidth 8 = BitVec.ofNat 8 (sum.toNat / 16) := by
  apply BitVec.eq_of_toNat_eq
  simp [smoothShift, Nat.shiftRight_eq_div_pow]

theorem latchMean_eq (s : State) :
    latchMean s = { s with lat := { s.lat with
      sm := BitVec.ofNat 8 (s.tmp.sum.toNat / 16), res := BitVec.ofNat 8 (s.tmp.sum.toNat / 16) } } := by
  rw [latchMean, setWidth_shiftRight_smoothShift]
  rfl

section Mean

variable (x : Byte) (s : State)

theorem insert_read_eq_windowAfter (k : Nat) : (s.smooth.insert x).buf.read .smoothBuf k = windowAfter s x k :=
  Memory.read_write _ _ _ _ _

theorem meanAfter_eq : meanAfter s x = (s.smooth.insert x).buf.sumTo .smoothBuf smoothDepth / 16 := by
  simp only [meanAfter, Memory.sumTo, insert_read_eq_windowAfter, smoothDepth]

theorem meanAfter_le : meanAfter s x ≤ 255 := by
  rw [meanAfter_eq]
  exact Nat.div_le_of_le_mul (Memory.sumTo_le _ _ _)

variable {x s} {V : Byte}

/-- The mean of a window of one value. -/
theorem meanAfter_of_const (h : ∀ k, k < 16 → windowAfter s x k = V) : meanAfter s x = V.toNat := by
  have hsum : ((List.range 16).map fun k => (windowAfter s x k).toNat).sum = 16 * V.toNat := by
    rw [List.sum_eq_card_nsmul _ V.toNat]
    · simp
    · simpa using fun k hk => congrArg BitVec.toNat (h k hk)
  rw [meanAfter, hsum, Nat.mul_div_cancel_left _ (by decide)]

/-- On a window of one value the sample takes one slot of the sixteen, and the other fifteen keep the value. -/
theorem meanAfter_of_const_before (h : ∀ k, k < 16 → s.smooth.buf.read .smoothBuf k = V) :
    meanAfter s x = (15 * V.toNat + x.toNat) / 16 := by
  have hcur : s.smooth.cur.toNat ∈ List.range 16 := List.mem_range.mpr s.smooth.cur.isLt
  have hothers : ∀ k ∈ (List.range 16).erase s.smooth.cur.toNat, windowAfter s x k = V := by
    intro k hk
    obtain ⟨hne, hk⟩ := List.nodup_range.mem_erase_iff.mp hk
    rw [windowAfter, if_neg hne, h k (List.mem_range.mp hk)]
  have hsum : (((List.range 16).erase s.smooth.cur.toNat).map fun k => (windowAfter s x k).toNat).sum = 15 * V.toNat := by
    rw [List.sum_eq_card_nsmul _ V.toNat]
    · simp [List.length_erase_of_mem hcur]
    · simpa using fun k hk => congrArg BitVec.toNat (hothers k hk)
  rw [meanAfter, ← List.sum_map_erase _ hcur, hsum, windowAfter, if_pos rfl, Nat.add_comm]

end Mean

/-! ### The micro-steps of `TEMP.SMOOTH`, and the whole of it -/

section Smooth

variable (x : Byte) {s : State}

theorem exec_tempSmooth_u1 (hp : s.seq.ustep = [1]) :
    exec (.tempSmooth x) s =
      .next (State.goesTo { s with smooth := { s.smooth with buf := s.smooth.buf.write s.smooth.cur.toNat x } } [2]) :=
  exec_straight_goesTo rfl 0 (by simp) rfl hp

theorem exec_tempSmooth_u2 (hp : s.seq.ustep = [2]) :
    exec (.tempSmooth x) s = .next (State.goesTo { s with smooth := { s.smooth with cur := s.smooth.cur + 1#4 } } [3]) :=
  exec_straight_goesTo rfl 1 (by simp) rfl hp

theorem exec_tempSmooth_u3 (hp : s.seq.ustep = [3]) : exec (.tempSmooth x) s = .next ((sumWindow s).goesTo [4]) :=
  exec_straight_goesTo rfl 2 (by simp) rfl hp

theorem exec_tempSmooth_u4 (hp : s.seq.ustep = [4]) :
    exec (.tempSmooth x) s = .next (State.finished { s with lat := { s.lat with
      sm := BitVec.ofNat 8 (s.tmp.sum.toNat / 16), res := BitVec.ofNat 8 (s.tmp.sum.toNat / 16) } }) :=
  exec_straight_finished rfl 3 rfl (latchMean_eq s) hp

/-- What a whole `TEMP.SMOOTH x` does besides moving the sequencer on: the window takes the sample, and the mean of that window is
latched. -/
def State.smoothed (x : Byte) (s : State) : State :=
  { s with
    smooth := s.smooth.insert x
    lat := { s.lat with sm := BitVec.ofNat 8 (meanAfter s x), res := BitVec.ofNat 8 (meanAfter s x) }
    tmp := { s.tmp with
      sum := BitVec.ofNat 16 ((s.smooth.insert x).buf.sumTo .smoothBuf smoothDepth), k := lastSlot } }

theorem execTimes_tempSmooth (hp : s.seq.ustep = [1]) :
    execTimes 4 (.tempSmooth x) s = .next (s.smoothed x).finished := by
  have hmean : (BitVec.ofNat 16 ((s.smooth.insert x).buf.sumTo .smoothBuf smoothDepth)).toNat / 16 = meanAfter s x := by
    rw [toNat_ofNat_sumTo_smoothDepth, meanAfter_eq]
  rw [execTimes_succ 3 (exec_tempSmooth_u1 x hp), execTimes_succ 2 (exec_tempSmooth_u2 x rfl),
    execTimes_succ 1 (exec_tempSmooth_u3 x rfl), execTimes_one (exec_tempSmooth_u4 x rfl), State.smoothed, ← hmean]
  rfl

theorem toNat_smoothed_sm (s : State) : (s.smoothed x).lat.sm.toNat = meanAfter s x :=
  (BitVec.toNat_ofNat _ _).trans (Nat.mod_eq_of_lt (Nat.lt_succ_of_le (meanAfter_le x s)))

/-- The state after a `TEMP.SMOOTH x` begun at u1. -/
def State.afterSmooth (s : State) (x : Byte) : State := ((s.goesTo [1]).smoothed x).finished

theorem execTimes_tempSmooth_goesTo (s : State) :
    execTimes 4 (.tempSmooth x) (s.goesTo [1]) = .next (s.afterSmooth x) :=
  execTimes_tempSmooth x rfl

/-- Samples smoothed one after the other go into the window in order. -/
theorem foldl_afterSmooth_smooth (xs : List Byte) (s : State) :
    (xs.foldl State.afterSmooth s).smooth = xs.foldl Smoothing.insert s.smooth :=
  (List.foldl_hom State.smooth fun _ _ => rfl).symm

end Smooth

/-! ### The obligations -/

/-- Settles O41: line by line; the sum is exact because sixteen bytes sum to at most 4080. -/
theorem smoothMicroSteps : Obligations.SmoothMicroSteps := by
  unfold Obligations.SmoothMicroSteps
  exact fun x s => ⟨decode_or_opd 3 1 (fun _ => rfl) x, exec_tempSmooth_u1 x, exec_tempSmooth_u2 x,
    fun hp => ⟨_, exec_tempSmooth_u3 x hp, rfl, toNat_ofNat_sumTo_smoothDepth s.smooth.buf⟩, exec_tempSmooth_u4 x⟩

/-- Settles O42: the latched mean is `meanAfter`, and sixteen inserts visit each slot once and bring the cursor round. -/
theorem movingAverageIsFloorOfMean : Obligations.MovingAverageIsFloorOfMean := by
  unfold Obligations.MovingAverageIsFloorOfMean
  refine ⟨fun x s hp => ?mean, fun xs s hlen => ?replaced⟩
  case mean =>
    have hsm : (s.smoothed x).finished.lat.sm.toNat = meanAfter s x := toNat_smoothed_sm x s
    refine ⟨_, execTimes_tempSmooth x hp, rfl, hsm, rfl, insert_read_eq_windowAfter x s, ?const, ?constBefore⟩
    case const => exact fun V h => BitVec.eq_of_toNat_eq (hsm.trans (meanAfter_of_const h))
    case constBefore =>
      intro V h
      rw [hsm, meanAfter_of_const_before h]
      exact ⟨rfl, by omega⟩
  case replaced =>
    refine ⟨_, List.foldl_hom Host.Outcome.next fun u x => execTimes_tempSmooth_goesTo x u, ?cursor, ?slots⟩
    case cursor =>
      rw [foldl_afterSmooth_smooth, Smoothing.foldl_insert_cur, hlen]
      exact BitVec.add_zero _
    case slots =>
      intro k hk
      rw [foldl_afterSmooth_smooth, Smoothing.foldl_insert_read _ _ hlen.le (hlen ▸ hk), List.getD_eq_getElem]

end Sys2Proof.Machine
end

