-- ==== Sys2Proof/Proofs/Control.lean ====
section
/-! PROOFS. The family thermostat control (43_thermostat_control.md R211 to R220): the decoded inputs, the hysteresis state machine
with its dead band, and the tick. -/

namespace Sys2Proof.Machine

/-! ### Changes that no foreground operation sees

Laws/Commute.lean says this of the bus and the filter; here it is said of the other operations, and so of every command. -/

section Commute

variable {f : State → State}

/-- A change that also leaves the latches and the coil alone. -/
structure ControlSafe (f : State → State) : Prop extends FilterSafe f where
  lat : ∀ t, (f t).lat = t.lat
  setLat : ∀ t x, (f t).setLat x = f (t.setLat x)
  coil : ∀ t, (f t).coil = t.coil
  driveCoil : ∀ t v, (f t).driveCoil v = f (t.driveCoil v)

/-- What a change must leave alone for `UART.SEND` to commute with it. -/
structure SendSafe (f : State → State) : Prop extends BusSafe f where
  tx : ∀ t, (f t).tx = t.tx
  setTx : ∀ t x, (f t).setTx x = f (t.setTx x)
  ctl : ∀ t, (f t).ctl = t.ctl
  setCtl : ∀ t x, (f t).setCtl x = f (t.setCtl x)

/-- What a change must leave alone for `UART.AVAIL` and `UART.RECV` to commute with it. -/
structure RecvSafe (f : State → State) : Prop extends BusSafe f where
  rx : ∀ t, (f t).rx = t.rx
  setRx : ∀ t x, (f t).setRx x = f (t.setRx x)
  ctl : ∀ t, (f t).ctl = t.ctl

/-- A change that leaves alone whatever a micro-step of the foreground reads or writes. -/
structure FgSafe (f : State → State) : Prop extends ControlSafe f, SendSafe f, RecvSafe f where
  ser : ∀ t, (f t).ser = t.ser
  setSer : ∀ t x, (f t).setSer x = f (t.setSer x)

theorem uCtlSetpt_commutes (h : ControlSafe f) : Micro.Commutes f uCtlSetpt :=
  once_commutes fun _ => by simp only [h.lat, h.env, h.setLat, MicroResult.map_done]

theorem uCtlOvr_commutes (h : ControlSafe f) : Micro.Commutes f uCtlOvr :=
  once_commutes fun _ => by simp only [h.lat, h.env, h.setLat, MicroResult.map_done]

theorem hysteresis_commutes (h : ControlSafe f) (s : State) : hysteresis (f s) = f (hysteresis s) := by
  simp only [hysteresis, h.coil, h.cfg, h.lat, h.driveCoil, apply_ite f]

theorem uCtlHyst_commutes (h : ControlSafe f) : Micro.Commutes f uCtlHyst :=
  once_commutes fun s => congrArg MicroResult.done (hysteresis_commutes h s)

theorem uCtlSleep_commutes : Micro.Commutes f uCtlSleep := once_commutes fun _ => rfl

theorem uUartSend_commutes (h : SendSafe f) (b : Byte) : Micro.Commutes f (uUartSend b) := by
  intro pos s
  unfold uUartSend
  split
  · rw [h.ctl, h.cfg, h.tx, h.tmp, h.setTmp]
    split <;> rfl
  · rw [h.tmp, h.tx]
    split <;> rfl
  · rw [h.tmp, h.tx, h.setTx]; rfl
  · rw [h.tmp, h.tx, h.setTx]; rfl
  · rw [h.ctl, h.setCtl]; rfl
  · rfl

theorem uUartAvail_commutes (h : RecvSafe f) : Micro.Commutes f uUartAvail := by
  refine once_commutes fun s => ?_
  rw [h.ctl, h.rx, h.res]
  split <;> rfl

theorem uUartRecv_commutes (h : RecvSafe f) : Micro.Commutes f uUartRecv := by
  intro pos s
  unfold uUartRecv
  split
  · rw [h.ctl, h.rx]
    split
    · split <;> rfl
    · rfl
  · rw [h.tmp, h.cfg, h.rx, h.setTmp]; rfl
  · rw [h.rx, h.tmp, h.setRx]; rfl
  · rw [h.rx, h.tmp, h.res]; rfl
  · rfl

theorem uUartInit_commutes (h : FgSafe f) : Micro.Commutes f uUartInit :=
  once_commutes fun s => by
    simp only [initTransport, h.rx, h.tx, h.ser, h.cfg, h.setRx, h.setTx, h.setSer, h.setCtl, MicroResult.map_done]

theorem uCtlStatus_commutes (hc : ControlSafe f) (hs : SendSafe f) : Micro.Commutes f uCtlStatus := by
  intro pos s
  unfold uCtlStatus
  split
  · rw [hc.tmp, hc.lat, hc.setTmp]; rfl
  · rw [hc.tmp]
    split
    · rfl
    · refine callAt_commutes (uUartSend_commutes hs _) fun t => ?_
      rw [hc.tmp, hc.setTmp]
      split <;> rfl
  · rfl

theorem uCtlIter_commutes (hc : ControlSafe f) (hs : SendSafe f) : Micro.Commutes f uCtlIter := by
  refine calls_commutes fun m hm => ?_
  simp only [List.mem_cons, List.not_mem_nil, or_false] at hm
  rcases hm with rfl | rfl | rfl | rfl | rfl | rfl | rfl
  · exact uCtlSetpt_commutes hc
  · exact uTempRead_commutes hc.toBusSafe
  · exact uTempSmoothr_commutes hc.toFilterSafe
  · exact uCtlOvr_commutes hc
  · exact uCtlHyst_commutes hc
  · exact uCtlStatus_commutes hc hs
  · exact uCtlSleep_commutes

theorem uCtlBoot_commutes (h : FgSafe f) : Micro.Commutes f uCtlBoot := by
  refine calls_commutes fun m hm => ?_
  simp only [List.mem_cons, List.not_mem_nil, or_false] at hm
  rcases hm with rfl | rfl | rfl | rfl
  · exact uUartInit_commutes h
  · exact uBusInit_commutes h.toBusSafe
  · exact uTempRead_commutes h.toBusSafe
  · exact uTempPreloadr_commutes h.toFilterSafe

theorem microOf_commutes (h : FgSafe f) {i : Instr} {m : Micro} (hm : microOf i = some m) : Micro.Commutes f m := by
  cases i <;> simp only [microOf, Option.some.injEq, reduceCtorEq] at hm <;> subst hm
  case seqNop => exact once_commutes fun _ => rfl
  case seqEnd => exact once_commutes fun _ => rfl
  case uartInit => exact uUartInit_commutes h
  case uartSend b => exact uUartSend_commutes h.toSendSafe b
  case uartAvail => exact uUartAvail_commutes h.toRecvSafe
  case uartRecv => exact uUartRecv_commutes h.toRecvSafe
  case busInit => exact uBusInit_commutes h.toBusSafe
  case busStart => exact uBusStart_commutes h.toBusSafe
  case busStop => exact uBusStop_commutes h.toBusSafe
  case busWbit b => exact uBusWbit_commutes h.toBusSafe b
  case busRbit => exact uBusRbit_commutes h.toBusSafe
  case busWbyte v => exact uBusWbyte_commutes h.toBusSafe v
  case busRbyte a => exact uBusRbyte_commutes h.toBusSafe a
  case tempRead => exact uTempRead_commutes h.toBusSafe
  case tempSmooth x => exact uTempSmooth_commutes h.toFilterSafe x
  case tempPreload x => exact uTempPreload_commutes h.toFilterSafe x
  case tempSmoothr => exact uTempSmoothr_commutes h.toFilterSafe
  case tempPreloadr => exact uTempPreloadr_commutes h.toFilterSafe
  case ctlSetpt => exact uCtlSetpt_commutes h.toControlSafe
  case ctlOvr => exact uCtlOvr_commutes h.toControlSafe
  case ctlHyst => exact uCtlHyst_commutes h.toControlSafe
  case ctlStatus => exact uCtlStatus_commutes h.toControlSafe h.toSendSafe
  case ctlSleep => exact uCtlSleep_commutes
  case ctlIter => exact uCtlIter_commutes h.toControlSafe h.toSendSafe
  case ctlBoot => exact uCtlBoot_commutes h

/-- A change that leaves the sequencer alone too commutes with the sequencer's run of an operation (R221). -/
theorem runFg_commutes {m : Micro} (hm : Micro.Commutes f m) (hseq : ∀ t, (f t).seq = t.seq)
    (hset : ∀ t q, (f t).setSeq q = f (t.setSeq q)) (s : State) : runFg m (f s) = mapNext f (runFg m s) := by
  simp only [runFg, hseq, hm s.seq.ustep s]
  cases m s.seq.ustep s <;> simp only [MicroResult.map, hseq, hset, mapNext]

theorem exec_commutes (h : FgSafe f) (hseq : ∀ t, (f t).seq = t.seq) (hset : ∀ t q, (f t).setSeq q = f (t.setSeq q))
    {i : Instr} (hi : i.isEvent = false) (s : State) : exec i (f s) = mapNext f (exec i s) := by
  cases hm : microOf i with
  | some m =>
    rw [exec_eq_runFg hm, exec_eq_runFg hm]
    exact runFg_commutes (microOf_commutes h hm) hseq hset s
  | none =>
    cases i <;> simp only [microOf, reduceCtorEq, Instr.isEvent, Bool.true_eq_false] at hm hi
    case seqJmp a =>
      simp only [exec, execSeqJmp, hseq, hset]
      split <;> rfl

theorem takeEvent_commutes {handler : State → State} (hh : ∀ s, handler (f s) = f (handler s)) (e : Bool) (s : State) :
    takeEvent e handler (f s) = mapNext f (takeEvent e handler s) := by
  rw [takeEvent_eq, takeEvent_eq, hh, ← apply_ite f]
  rfl

end Commute

/-! ### The tick (R220) -/

section TickCounter

variable (k : Tick)

theorem fgSafe_setTick : FgSafe fun s => s.setTick k where
  tmp _ := rfl
  setTmp _ _ := rfl
  res _ _ := rfl
  getRes _ := rfl
  setRaw _ := rfl
  emit _ _ := rfl
  bus _ := rfl
  setBus _ _ := rfl
  env _ := rfl
  cfg _ := rfl
  smooth _ := rfl
  setSmooth _ _ := rfl
  raw _ := rfl
  mean _ := rfl
  lat _ := rfl
  setLat _ _ := rfl
  coil _ := rfl
  driveCoil _ _ := rfl
  tx _ := rfl
  setTx _ _ := rfl
  ctl _ := rfl
  setCtl _ _ := rfl
  rx _ := rfl
  setRx _ _ := rfl
  ser _ := rfl
  setSer _ _ := rfl

theorem rxcHandler_setTick (s : State) : rxcHandler (s.setTick k) = (rxcHandler s).setTick k := by
  simp only [rxcHandler, State.setTick_ser]
  split <;> rfl

theorem txrHandler_setTick (s : State) : txrHandler (s.setTick k) = (txrHandler s).setTick k := by
  by_cases h : s.tx.head = s.tx.tail
  · rw [txrHandler_of_empty h, txrHandler_of_empty (s := s.setTick k) h]; rfl
  · rw [txrHandler_of_nonempty h, txrHandler_of_nonempty (s := s.setTick k) h]; rfl

/-- Only `EVT.TICK` reads or writes the counters. -/
theorem exec_setTick {i : Instr} (hi : i ≠ .evtTick) (s : State) :
    exec i (s.setTick k) = mapNext (fun t => t.setTick k) (exec i s) := by
  cases he : i.isEvent with
  | false => exact exec_commutes (fgSafe_setTick k) (fun _ => rfl) (fun _ _ => rfl) he s
  | true =>
    cases i <;> simp only [Instr.isEvent, Bool.false_eq_true] at he
    case evtRxc d => exact takeEvent_commutes (rxcHandler_setTick k) (rxcEnabled d s) s
    case evtTxr => exact takeEvent_commutes (txrHandler_setTick k) (txrEnabled s) s
    case evtTick => exact absurd rfl hi

end TickCounter

theorem exec_evtTick (s : State) : exec .evtTick s = .next (tickHandler s) := takeEvent_of_enabled tickHandler s rfl

theorem tickHandler_of_last {s : State} (h : s.tick.ms.toNat = 999) :
    tickHandler s = s.setTick { ms := 0#16, sec := s.tick.sec + 1#32 } :=
  if_pos (BitVec.eq_of_toNat_eq h)

theorem tickHandler_of_not_last {s : State} (h : s.tick.ms.toNat ≠ 999) :
    tickHandler s = s.setTick { s.tick with ms := s.tick.ms + 1#16 } :=
  if_neg fun e => h (congrArg BitVec.toNat e)

/-- The seconds count modulo 2^32 (R220). -/
theorem sec_add_one (x : BitVec 32) : x + 1#32 = BitVec.ofNat 32 ((x.toNat + 1) % 2 ^ 32) :=
  BitVec.eq_of_toNat_eq (by simp)

/-! ### The decoded inputs (R211, R212) -/

/-- Six active-low pins: no combination is invalid (R211). -/
theorem setpointOf_eq_not : ∀ spN : BitVec 6, setpointOf spN = ~~~spN := by decide

/-- The weighted sum of the pins that read 0 is at most 63, so the six bits hold it (R211). -/
theorem toNat_setpointOf : ∀ spN : BitVec 6,
    (setpointOf spN).toNat = ((List.range 6).map fun i => if spN.getLsbD i then 0 else 2 ^ i).sum := by decide

/-! ### The hysteresis state machine (R213, R214) -/

theorem turnsOn_iff {l : Latches} : turnsOn l = true ↔ l.sm.toNat > l.sp.toNat ∨ l.ov = true := by
  simp [turnsOn]

theorem turnsOff_iff {hyst : Nat} {l : Latches} :
    turnsOff hyst l = true ↔ l.ov = false ∧ (l.sm.toNat : Int) ≤ (l.sp.toNat : Int) - (hyst : Int) := by
  simp [turnsOff]

section Hysteresis

variable {s t : State}

theorem hysteresis_of_turnsOn (hc : s.coil = false) (h : turnsOn s.lat = true) : hysteresis s = s.driveCoil true := by
  simp [hysteresis, hc, h]

theorem hysteresis_of_not_turnsOn (hc : s.coil = false) (h : ¬ turnsOn s.lat = true) : hysteresis s = s := by
  simp [hysteresis, hc, h]

theorem hysteresis_of_turnsOff (hc : s.coil = true) (h : turnsOff s.cfg.hyst.val s.lat = true) :
    hysteresis s = s.driveCoil false := by
  simp [hysteresis, hc, h]

theorem hysteresis_of_not_turnsOff (hc : s.coil = true) (h : ¬ turnsOff s.cfg.hyst.val s.lat = true) : hysteresis s = s := by
  simp [hysteresis, hc, h]

theorem hysteresis_coil_of_off (hc : s.coil = false) : (hysteresis s).coil = turnsOn s.lat := by
  by_cases h : turnsOn s.lat = true
  · rw [hysteresis_of_turnsOn hc h, h]; rfl
  · rw [hysteresis_of_not_turnsOn hc h, hc, Bool.eq_false_of_not_eq_true h]

theorem hysteresis_coil_of_on (hc : s.coil = true) : (hysteresis s).coil = !turnsOff s.cfg.hyst.val s.lat := by
  by_cases h : turnsOff s.cfg.hyst.val s.lat = true
  · rw [hysteresis_of_turnsOff hc h, h]; rfl
  · rw [hysteresis_of_not_turnsOff hc h, hc, Bool.eq_false_of_not_eq_true h]; rfl

theorem exec_ctlHyst (hp : s.seq.ustep = [1]) : exec .ctlHyst s = .next (hysteresis s).finished :=
  exec_of_done rfl hp rfl

/-- With a setpoint below the hysteresis the threshold is negative, and no mean is (R214). -/
theorem not_turnsOff_of_sp_lt {hyst : Nat} {l : Latches} (h : l.sp.toNat < hyst) : ¬ turnsOff hyst l = true := by
  rw [turnsOff_iff]
  omega

theorem once_next {k : State → MicroResult} {p : List Nat} {r : MicroResult} (h : once k p s = r) (hr : r ≠ .stray) :
    k s = r := by
  unfold once at h
  split at h
  · exact h
  · exact absurd h.symm hr

/-- `CTL.HYST` has one micro-step, so where it answers, the coil is what the state machine leaves. -/
theorem exec_ctlHyst_coil (h : exec .ctlHyst s = .next t) : t.coil = (hysteresis s).coil := by
  rcases runFg_next (m := uCtlHyst) h with ⟨p, u, e, rfl⟩ | ⟨u, e, rfl⟩
  · cases once_next e nofun
  · cases once_next e nofun
    rfl

/-! ### The dead band (R215)

With the override off the mean lies in one of three zones: above the setpoint, at the threshold or below, and the band between. -/

/-- Off to on with the override off: the strict comparison (R214). -/
theorem coil_on_iff_of_off (hov : s.lat.ov = false) (hc : s.coil = false) :
    (hysteresis s).coil = true ↔ s.lat.sp.toNat < s.lat.sm.toNat := by
  rw [hysteresis_coil_of_off hc, turnsOn_iff]
  simp [hov]

/-- On to off with the override off: the inclusive comparison (R214). -/
theorem coil_off_iff_of_on (hov : s.lat.ov = false) (hc : s.coil = true) :
    (hysteresis s).coil = false ↔ (s.lat.sm.toNat : Int) ≤ (s.lat.sp.toNat : Int) - (s.cfg.hyst.val : Int) := by
  rw [hysteresis_coil_of_on hc, Bool.not_eq_false', turnsOff_iff]
  simp [hov]

theorem coil_on_of_above (hov : s.lat.ov = false) (h : s.lat.sp.toNat < s.lat.sm.toNat) : (hysteresis s).coil = true := by
  cases hc : s.coil with
  | false => exact (coil_on_iff_of_off hov hc).mpr h
  | true =>
    rw [← Bool.not_eq_false, coil_off_iff_of_on hov hc]
    omega

theorem coil_off_of_below (hov : s.lat.ov = false)
    (h : (s.lat.sm.toNat : Int) ≤ (s.lat.sp.toNat : Int) - (s.cfg.hyst.val : Int)) : (hysteresis s).coil = false := by
  cases hc : s.coil with
  | false =>
    rw [← Bool.not_eq_true, coil_on_iff_of_off hov hc]
    omega
  | true => exact (coil_off_iff_of_on hov hc).mpr h

theorem coil_kept_in_deadBand (hov : s.lat.ov = false)
    (hlo : (s.lat.sp.toNat : Int) - (s.cfg.hyst.val : Int) < (s.lat.sm.toNat : Int))
    (hhi : s.lat.sm.toNat ≤ s.lat.sp.toNat) : (hysteresis s).coil = s.coil := by
  cases hc : s.coil with
  | false =>
    rw [← Bool.not_eq_true, coil_on_iff_of_off hov hc]
    omega
  | true =>
    rw [← Bool.not_eq_false, coil_off_iff_of_on hov hc]
    omega

/-- Without hysteresis the zones above and below meet, and the coil does not depend on what it was (R215). -/
theorem coil_on_iff_of_no_hyst (hov : s.lat.ov = false) (h0 : s.cfg.hyst.val = 0) :
    (hysteresis s).coil = true ↔ s.lat.sp.toNat < s.lat.sm.toNat := by
  refine ⟨fun hon => ?_, coil_on_of_above hov⟩
  by_contra hle
  rw [coil_off_of_below hov (by omega)] at hon
  exact Bool.false_ne_true hon

end Hysteresis

/-! ### The obligations -/

/-- Settles O31: every other operation commutes with a replacement of the counters. -/
theorem tickCounts : Obligations.TickCounts := by
  unfold Obligations.TickCounts
  refine ⟨decode_encode .evtTick, fun s => ⟨rfl, fun h => ?last, fun h => ?notLast, fun i k hi => exec_setTick k hi s⟩⟩
  case last => rw [exec_evtTick, tickHandler_of_last h, sec_add_one]; rfl
  case notLast => rw [exec_evtTick, tickHandler_of_not_last h]; rfl

/-- Settles O46: the two conditions of a transition are the two comparisons of R214, and a coil that makes none is not driven. -/
theorem hysteresisTransitions : Obligations.HysteresisTransitions := by
  unfold Obligations.HysteresisTransitions
  refine ⟨decode_encode .ctlHyst, fun s hp => ?_⟩
  rw [exec_ctlHyst hp, ← turnsOn_iff, ← turnsOff_iff]
  refine ⟨fun hc h => ?on, fun hc h => ?staysOff, fun hc h => ?off, fun hc h => ?staysOn, fun hc h => ?never⟩
  case on => rw [hysteresis_of_turnsOn hc h]; rfl
  case staysOff => rw [hysteresis_of_not_turnsOn hc h]
  case off => rw [hysteresis_of_turnsOff hc h]; rfl
  case staysOn => rw [hysteresis_of_not_turnsOff hc h]
  case never => rw [hysteresis_of_not_turnsOff hc (not_turnsOff_of_sp_lt h)]

/-- Settles O47: the mean is above the setpoint, at the threshold or below, or in the band between, where the coil is kept. -/
theorem deadBand : Obligations.DeadBand := by
  unfold Obligations.DeadBand
  intro s t hov h
  rw [exec_ctlHyst_coil h]
  refine ⟨coil_on_iff_of_off hov, coil_off_iff_of_on hov, coil_kept_in_deadBand hov, coil_on_iff_of_no_hyst hov,
    fun hsp hhyst => ⟨fun hsm => ?at26, fun hsm => ?at25, fun hsm => ?at24, fun hsm => ?at23⟩⟩
  case at26 => exact coil_on_of_above hov (by omega)
  case at25 => exact coil_kept_in_deadBand hov (by omega) (by omega)
  case at24 => exact coil_kept_in_deadBand hov (by omega) (by omega)
  case at23 => exact coil_off_of_below hov (by omega)

/-- Settles O45: each is one micro-step; the sum of the pins' weights is the complement of their bits. -/
theorem inputsAreDecodedAndSleepIsIdle : Obligations.InputsAreDecodedAndSleepIsIdle := by
  unfold Obligations.InputsAreDecodedAndSleepIsIdle
  refine ⟨⟨decode_encode .ctlSetpt, decode_encode .ctlOvr, decode_encode .ctlSleep⟩, fun s hp => ?setpt,
    fun s hp => exec_of_done rfl hp rfl, fun s hp => exec_of_done rfl hp rfl⟩
  case setpt =>
    refine ⟨_, exec_of_done rfl hp rfl, rfl, fun i hi => ?bit, toNat_setpointOf s.env.spN⟩
    case bit =>
      show (setpointOf s.env.spN).getLsbD i = _
      rw [setpointOf_eq_not, BitVec.getLsbD_not, decide_eq_true hi, Bool.true_and]

end Sys2Proof.Machine
end

