-- ==== Sys2Proof/Proofs/Frame.lean ====
section
/-! PROOFS. The frame of every operation (20_memory.md R70, and the "State written" of each rule), said once: the state in parts, the
parts each operation may write, and one theorem, `exec_frame`, that it writes no other. -/

namespace Sys2Proof.Machine

/-! ### Relations that the bus operations keep

A relation between the states before and after, kept by the line actions, is kept by every operation built from them. -/

section Relations

variable {P : State → State → Prop}

/-- P is kept by the line actions and by the loop's own temporaries, and along a sequence of them. -/
structure LineRel (P : State → State → Prop) : Prop where
  refl : ∀ s, P s s
  trans : ∀ {s t u}, P s t → P t u → P s u
  sdaLow : ∀ s, P s (sdaLow s)
  sdaRel : ∀ s, P s (sdaRel s)
  sclLow : ∀ s, P s (sclLow s)
  sclRel : ∀ s, P s (sclRel s)
  delay : ∀ s, P s (busDelay s)
  sample : ∀ s, P s (sampleSda s)
  loopTmp : ∀ s i r, P s (s.setTmp { s.tmp with i := i, r := r })

/-- P is also kept by a write of `RES`. -/
structure BitRel (P : State → State → Prop) : Prop extends LineRel P where
  res : ∀ s v, P s (s.setRes v)

theorem LineRel.driveData (h : LineRel P) (b : Bool) (s : State) : P s (driveData b s) := by
  cases b
  · exact h.sdaLow s
  · exact h.sdaRel s

theorem LineRel.busInit (h : LineRel P) : Micro.Keeps P uBusInit :=
  straight_keeps (by simp [h.sdaLow, h.sdaRel, h.sclLow, h.sclRel, h.delay])

theorem LineRel.busStart (h : LineRel P) : Micro.Keeps P uBusStart :=
  straight_keeps (by simp [h.sdaLow, h.sclLow, h.delay])

theorem LineRel.busStop (h : LineRel P) : Micro.Keeps P uBusStop :=
  straight_keeps (by simp [h.sdaRel, h.sclRel, h.delay])

theorem LineRel.busWbit (h : LineRel P) (b : Byte) : Micro.Keeps P (uBusWbit b) :=
  straight_keeps (by simp [h.driveData, h.sclLow, h.sclRel, h.delay])

theorem BitRel.busRbit (h : BitRel P) : Micro.Keeps P uBusRbit :=
  straight_keeps (by simp [h.sdaRel, h.sclLow, h.sclRel, h.delay, h.sample, resFromSample, h.res])

/-- The loop over the bits keeps P when its call and its wrap-up do. -/
theorem LineRel.bitLoop (h : LineRel P) {m : Micro} (hm : m.Keeps P) {w : State → State} (hw : ∀ s, P s (w s)) {n k : Nat}
    (sub : List Nat) {s s' : State} (hs : P s s') : (bitLoop n sub m w s' (.more [k])).Sat (P s) :=
  bitLoop_sat hm (fun _ ht => h.trans hs ht)
    (fun t ht => h.trans (h.trans (h.trans hs ht) (hw t)) (h.loopTmp _ _ (w t).tmp.r))
    (fun t ht => h.trans (h.trans hs ht) (hw t))

theorem LineRel.startBits (h : LineRel P) (s : State) : P s (startBits s) := h.loopTmp s 7#3 s.tmp.r

theorem BitRel.busWbyte (h : BitRel P) (v : Byte) : Micro.Keeps P (uBusWbyte v) := by
  intro pos s
  have hm : (wbyteBit v).Keeps P := fun pos s => h.busWbit _ pos s
  unfold uBusWbyte
  split
  · exact h.toLineRel.bitLoop hm h.refl _ (h.startBits s)
  · exact h.toLineRel.bitLoop hm h.refl _ (h.refl s)
  · exact callAt_sat h.busRbit (fun _ ht => ht) fun _ ht => ht
  · trivial

theorem BitRel.busRbyte (h : BitRel P) (a : Byte) : Micro.Keeps P (uBusRbyte a) := by
  intro pos s
  have hw : ∀ s, P s (storeBit s) := fun s => h.loopTmp s s.tmp.i _
  unfold uBusRbyte
  split
  · exact h.loopTmp s s.tmp.i 0#8
  · exact h.toLineRel.bitLoop h.busRbit hw _ (h.startBits s)
  · exact h.toLineRel.bitLoop h.busRbit hw _ (h.refl s)
  · exact callAt_sat (h.busWbit _) (fun _ ht => ht) fun _ ht => ht
  · exact h.res s _
  · trivial

theorem BitRel.tempRead (h : BitRel P) (hraw : ∀ s, P s (latchRaw s)) : Micro.Keeps P uTempRead := by
  intro pos s
  refine calls_keeps (fun m hm => ?_) pos s
  simp only [List.mem_cons, List.not_mem_nil, or_false] at hm
  rcases hm with rfl | rfl | rfl | rfl | rfl
  · exact h.busStart
  · exact h.busWbyte _
  · exact h.busRbyte _
  · exact h.busStop
  · exact once_keeps hraw

theorem Micro.Keeps.imp {Q : State → State → Prop} {m : Micro} (h : m.Keeps P) (hPQ : ∀ s t, P s t → Q s t) : m.Keeps Q :=
  fun pos s => (h pos s).imp (hPQ s)

theorem Micro.Keeps.and {Q : State → State → Prop} {m : Micro} (h : m.Keeps P) (h' : m.Keeps Q) :
    m.Keeps fun s t => P s t ∧ Q s t := by
  intro pos s
  have h := h pos s
  have h' := h' pos s
  cases e : m pos s <;> rw [e] at h h' <;> first | exact ⟨h, h'⟩ | trivial

/-- What the call at the position keeps, a list of calls keeps there. -/
theorem calls_sat {ms : List Micro} {pos : List Nat} {s : State} {Q : State → Prop}
    (h : ∀ n sub m, pos = (n + 1) :: sub → ms[n]? = some m → ∀ p, (m p s).Sat Q) : (calls ms pos s).Sat Q := by
  unfold calls
  split
  next n sub =>
    split
    · trivial
    next m hm =>
      have := h n sub m rfl hm (if sub = [] then [1] else sub)
      unfold callAt
      split <;> simp_all
      split <;> simp_all
  · trivial

end Relations

/-! ### The parts of the state -/

/-- A part of the state that some rules name as written: a register or the registers that are always named together. The parts no
foreground operation writes are those of FgKeeps; the sequencer's position is `Obligations.PositionStaysLegal`'s. -/
inductive Part where
  | bus | window | mean | raw | res | sp | ov | coil
  | sending | txHead | t1 | rxTail | enables | txie | arrival | txTail

/-- The part holds the same values in two states. -/
def Part.Same : Part → State → State → Prop
  | .bus, s, t => (t.bus, t.trace.bus, t.tmp.v, t.tmp.i, t.tmp.r) = (s.bus, s.trace.bus, s.tmp.v, s.tmp.i, s.tmp.r)
  | .window, s, t => (t.smooth, t.tmp.k) = (s.smooth, s.tmp.k)
  | .mean, s, t => (t.smooth.cur, t.lat.sm, t.tmp.sum) = (s.smooth.cur, s.lat.sm, s.tmp.sum)
  | .raw, s, t => t.lat.raw = s.lat.raw
  | .res, s, t => t.lat.res = s.lat.res
  | .sp, s, t => t.lat.sp = s.lat.sp
  | .ov, s, t => t.lat.ov = s.lat.ov
  | .coil, s, t => (t.coil, t.trace.coil) = (s.coil, s.trace.coil)
  | .sending, s, t => (t.tx.buf, t.tmp.h1, t.tmp.line) = (s.tx.buf, s.tmp.h1, s.tmp.line)
  | .txHead, s, t => t.tx.head = s.tx.head
  | .t1, s, t => t.tmp.t1 = s.tmp.t1
  | .rxTail, s, t => t.rx.tail = s.rx.tail
  | .enables, s, t => t.ctl = { s.ctl with txie := t.ctl.txie }
  | .txie, s, t => t.ctl.txie = s.ctl.txie
  | .arrival, s, t => (t.rx.head, t.ser.rxHw) = (s.rx.head, s.ser.rxHw)
  | .txTail, s, t => t.tx.tail = s.tx.tail

/-- Every part outside W is the same. -/
def Frame (W : Part → Prop) (s t : State) : Prop := ∀ p, ¬ W p → p.Same s t

section Frames

variable {W : Part → Prop}

theorem Frame.refl (s : State) : Frame W s s := fun p _ => by cases p <;> rfl

theorem Frame.trans {s t u : State} (h : Frame W s t) (k : Frame W t u) : Frame W s u := by
  intro p hp
  have h := h p hp
  have k := k p hp
  cases p
  case enables => simp only [Part.Same] at h k ⊢; rw [k, h]
  all_goals exact Eq.trans k h

/-- The position of the sequencer is in no part. -/
theorem Frame.setSeq {s t : State} (h : Frame W s t) (q : Sequencer) : Frame W s (t.setSeq q) := by
  intro p hp
  have h := h p hp
  cases p <;> exact h

theorem busAct_frame (h : W .bus) (s : State) (b : BusDrive) (a : BusAct) : Frame W s (s.busAct b a) := by
  intro p hp
  cases p
  case bus => exact absurd h hp
  all_goals rfl

theorem lineRel_frame (h : W .bus) : LineRel (Frame W) where
  refl := Frame.refl
  trans := Frame.trans
  sdaLow s := busAct_frame h s _ _
  sdaRel s := busAct_frame h s _ _
  sclLow s := busAct_frame h s _ _
  sclRel s := busAct_frame h s _ _
  delay s := busAct_frame h s _ _
  sample s p hp := by
    cases p
    case bus => exact absurd h hp
    all_goals rfl
  loopTmp s i r p hp := by
    cases p
    case bus => exact absurd h hp
    all_goals rfl

theorem setRes_frame (h : W .res) (s : State) (v : Byte) : Frame W s (s.setRes v) := by
  intro p hp
  cases p
  case res => exact absurd h hp
  all_goals rfl

theorem bitRel_frame (h : W .bus) (h' : W .res) : BitRel (Frame W) :=
  { lineRel_frame h with res := setRes_frame h' }

theorem latchRaw_frame (h : W .raw) (s : State) : Frame W s (latchRaw s) := by
  intro p hp
  cases p
  case raw => exact absurd h hp
  all_goals rfl

theorem uTempRead_frame (hb : W .bus) (hr : W .res) (hw : W .raw) : Micro.Keeps (Frame W) uTempRead :=
  (bitRel_frame hb hr).tempRead (latchRaw_frame hw)

theorem setSmooth_frame (h : W .window) (s : State) (x : Smoothing) (hc : W .mean ∨ x.cur = s.smooth.cur) :
    Frame W s (s.setSmooth x) := by
  intro p hp
  cases p
  case window => exact absurd h hp
  case mean =>
    have hc := hc.resolve_left hp
    simp [Part.Same, hc]
  all_goals rfl

theorem setK_frame (h : W .window) (s : State) (k : BitVec 4) : Frame W s (s.setTmp { s.tmp with k := k }) := by
  intro p hp
  cases p
  case window => exact absurd h hp
  all_goals rfl

theorem setSum_frame (hw : W .window) (hm : W .mean) (s : State) (x : BitVec 16) (k : BitVec 4) :
    Frame W s (s.setTmp { s.tmp with sum := x, k := k }) := by
  intro p hp
  cases p
  case window => exact absurd hw hp
  case mean => exact absurd hm hp
  all_goals rfl

theorem setMean_frame (hm : W .mean) (hr : W .res) (s : State) (v : Byte) :
    Frame W s (s.setLat { s.lat with sm := v, res := v }) := by
  intro p hp
  cases p
  case mean => exact absurd hm hp
  case res => exact absurd hr hp
  all_goals rfl

theorem uTempSmooth_frame (hw : W .window) (hm : W .mean) (hr : W .res) (x : Byte) :
    Micro.Keeps (Frame W) (uTempSmooth x) := by
  refine straight_keeps fun u hu s => ?_
  simp only [List.mem_cons, List.not_mem_nil, or_false] at hu
  rcases hu with rfl | rfl | rfl | rfl
  · exact setSmooth_frame hw s _ (.inl hm)
  · exact setSmooth_frame hw s _ (.inl hm)
  · exact setSum_frame hw hm s _ _
  · exact setMean_frame hm hr s _

theorem uTempPreload_frame (hw : W .window) (t : Byte) : Micro.Keeps (Frame W) (uTempPreload t) :=
  once_keeps fun s => (setSmooth_frame hw s { s.smooth with buf := s.smooth.buf.fill smoothDepth t } (.inr rfl)).trans
    (setK_frame hw _ _)

theorem uTempSmoothr_frame (hw : W .window) (hm : W .mean) (hr : W .res) : Micro.Keeps (Frame W) uTempSmoothr :=
  fun pos s => calls_keeps (by simpa using uTempSmooth_frame hw hm hr s.lat.raw) pos s

theorem uTempPreloadr_frame (hw : W .window) : Micro.Keeps (Frame W) uTempPreloadr :=
  fun pos s => calls_keeps (by simpa using uTempPreload_frame hw s.lat.raw) pos s

theorem uCtlSetpt_frame (h : W .sp) : Micro.Keeps (Frame W) uCtlSetpt := by
  refine once_keeps fun s p hp => ?_
  cases p
  case sp => exact absurd h hp
  all_goals rfl

theorem uCtlOvr_frame (h : W .ov) : Micro.Keeps (Frame W) uCtlOvr := by
  refine once_keeps fun s p hp => ?_
  cases p
  case ov => exact absurd h hp
  all_goals rfl

theorem driveCoil_frame (h : W .coil) (s : State) (v : Bool) : Frame W s (s.driveCoil v) := by
  intro p hp
  cases p
  case coil => exact absurd h hp
  all_goals rfl

theorem uCtlHyst_frame (h : W .coil) : Micro.Keeps (Frame W) uCtlHyst := by
  refine once_keeps fun s => ?_
  simp only [MicroResult.sat_done, hysteresis]
  split <;> split <;> first | exact driveCoil_frame h s _ | exact Frame.refl s

theorem uUartInit_frame (hh : W .txHead) (ht : W .rxTail) (he : W .enables) (hi : W .txie) (ha : W .arrival)
    (hx : W .txTail) : Micro.Keeps (Frame W) uUartInit := by
  refine once_keeps fun s p hp => ?_
  cases p
  case txHead => exact absurd hh hp
  case rxTail => exact absurd ht hp
  case enables => exact absurd he hp
  case txie => exact absurd hi hp
  case arrival => exact absurd ha hp
  case txTail => exact absurd hx hp
  all_goals rfl

theorem setH1_frame (h : W .sending) (s : State) (x : Byte) : Frame W s (s.setTmp { s.tmp with h1 := x }) := by
  intro p hp
  cases p
  case sending => exact absurd h hp
  all_goals rfl

theorem setLine_frame (h : W .sending) (s : State) (l : List Byte) : Frame W s (s.setTmp { s.tmp with line := l }) := by
  intro p hp
  cases p
  case sending => exact absurd h hp
  all_goals rfl

theorem setTxBuf_frame (h : W .sending) (s : State) (m : Memory) : Frame W s (s.setTx { s.tx with buf := m }) := by
  intro p hp
  cases p
  case sending => exact absurd h hp
  all_goals rfl

theorem setTxHead_frame (h : W .txHead) (s : State) (x : Byte) : Frame W s (s.setTx { s.tx with head := x }) := by
  intro p hp
  cases p
  case txHead => exact absurd h hp
  all_goals rfl

theorem setTxie_frame (h : W .txie) (s : State) (b : Bool) : Frame W s (s.setCtl { s.ctl with txie := b }) := by
  intro p hp
  cases p
  case txie => exact absurd h hp
  all_goals rfl

theorem uUartSend_frame (hs : W .sending) (hh : W .txHead) (hi : W .txie) (b : Byte) :
    Micro.Keeps (Frame W) (uUartSend b) := by
  intro pos s
  unfold uUartSend
  split
  · split
    · exact setH1_frame hs s _
    · trivial
  · split <;> exact Frame.refl s
  · exact setTxBuf_frame hs s _
  · exact setTxHead_frame hh s _
  · exact setTxie_frame hi s _
  · trivial

theorem uCtlStatus_frame (hs : W .sending) (hh : W .txHead) (hi : W .txie) : Micro.Keeps (Frame W) uCtlStatus := by
  intro pos s
  unfold uCtlStatus
  split
  · exact setLine_frame hs s _
  · split
    · exact Frame.refl s
    · refine callAt_sat (uUartSend_frame hs hh hi _) (fun _ ht => ht) fun t ht => ?_
      dsimp only
      split <;> exact ht.trans (setLine_frame hs t _)
  · trivial

theorem uUartAvail_frame (h : W .res) : Micro.Keeps (Frame W) uUartAvail := by
  refine once_keeps fun s => ?_
  split
  · exact setRes_frame h s _
  · trivial

theorem setT1_frame (h : W .t1) (s : State) (x : Byte) : Frame W s (s.setTmp { s.tmp with t1 := x }) := by
  intro p hp
  cases p
  case t1 => exact absurd h hp
  all_goals rfl

theorem setRxTail_frame (h : W .rxTail) (s : State) (x : Byte) : Frame W s (s.setRx { s.rx with tail := x }) := by
  intro p hp
  cases p
  case rxTail => exact absurd h hp
  all_goals rfl

theorem uUartRecv_frame (h1 : W .t1) (ht : W .rxTail) (hr : W .res) : Micro.Keeps (Frame W) uUartRecv := by
  intro pos s
  unfold uUartRecv
  split
  · split
    · split <;> exact Frame.refl s
    · trivial
  · exact setT1_frame h1 s _
  · exact setRxTail_frame ht s _
  · exact setRes_frame hr s _
  · trivial

/-- The call of `CTL.ITER` that writes a part writes it for `CTL.ITER`. -/
theorem uCtlIter_frame (hbus : W .bus) (hwin : W .window) (hmean : W .mean) (hraw : W .raw) (hres : W .res) (hsp : W .sp)
    (hov : W .ov) (hcoil : W .coil) (hsend : W .sending) (hhead : W .txHead) (hie : W .txie) :
    Micro.Keeps (Frame W) uCtlIter := by
  refine calls_keeps fun m hm => ?_
  simp only [List.mem_cons, List.not_mem_nil, or_false] at hm
  rcases hm with rfl | rfl | rfl | rfl | rfl | rfl | rfl
  · exact uCtlSetpt_frame hsp
  · exact uTempRead_frame hbus hres hraw
  · exact uTempSmoothr_frame hwin hmean hres
  · exact uCtlOvr_frame hov
  · exact uCtlHyst_frame hcoil
  · exact uCtlStatus_frame hsend hhead hie
  · exact once_keeps Frame.refl

end Frames

/-! ### The parts each operation may write -/

/-- The parts that the rule of operation i, at its position in s, names as written. -/
def writes (i : Instr) (s : State) : Part → Prop
  | .bus => drivesBus i = true
  | .window => writesWindow i = true
  | .mean => writesMean i = true
  | .raw => writesRaw i = true
  | .res => writesRes i = true
  | .sp => i = .ctlSetpt ∨ i = .ctlIter
  | .ov => i = .ctlOvr ∨ i = .ctlIter
  | .coil => i = .ctlHyst ∨ i = .ctlIter
  | .sending => sendsBytes i = true
  | .txHead => sendsBytes i = true ∨ atInit i s = true
  | .t1 => i = .uartRecv
  | .rxTail => i = .uartRecv ∨ atInit i s = true
  | .enables => atInit i s = true
  | .txie => sendsBytes i = true ∨ i = .evtTxr ∨ atInit i s = true
  | .arrival => (∃ d, i = .evtRxc d) ∨ atInit i s = true
  | .txTail => i = .evtTxr ∨ atInit i s = true

/-- u1 of `CTL.BOOT` is `UART.INIT`, and its other calls are of the bus and the filter. -/
theorem uCtlBoot_frame (s : State) : (uCtlBoot s.seq.ustep s).Sat (Frame (writes .ctlBoot s) s) := by
  refine calls_sat fun n sub m hpos hm p => ?_
  match n with
  | 0 =>
    cases hm
    have hinit : atInit .ctlBoot s = true := by simp [atInit, hpos]
    exact uUartInit_frame (.inr hinit) (.inr hinit) hinit (.inr (.inr hinit)) (.inr hinit) (.inr hinit) p s
  | 1 => cases hm; exact (lineRel_frame (by rfl)).busInit p s
  | 2 => cases hm; exact uTempRead_frame (by rfl) (by rfl) (by rfl) p s
  | 3 => cases hm; exact uTempPreloadr_frame (by rfl) p s

theorem microOf_frame {i : Instr} {m : Micro} (h : microOf i = some m) (s : State) :
    (m s.seq.ustep s).Sat (Frame (writes i s) s) := by
  cases i <;> simp only [microOf, Option.some.injEq, reduceCtorEq] at h <;> subst h
  case ctlBoot => exact uCtlBoot_frame s
  all_goals refine (?_ : Micro.Keeps (Frame (writes _ s)) _) _ s
  case seqNop => exact once_keeps Frame.refl
  case seqEnd => exact once_keeps Frame.refl
  case uartInit =>
    exact uUartInit_frame (.inr rfl) (.inr rfl) rfl (.inr (.inr rfl)) (.inr rfl) (.inr rfl)
  case uartSend b => exact uUartSend_frame (by rfl) (.inl rfl) (.inl rfl) b
  case uartAvail => exact uUartAvail_frame (by rfl)
  case uartRecv => exact uUartRecv_frame (by rfl) (.inl rfl) (by rfl)
  case busInit => exact (lineRel_frame (by rfl)).busInit
  case busStart => exact (lineRel_frame (by rfl)).busStart
  case busStop => exact (lineRel_frame (by rfl)).busStop
  case busWbit b => exact (lineRel_frame (by rfl)).busWbit b
  case busRbit => exact (bitRel_frame (by rfl) (by rfl)).busRbit
  case busWbyte v => exact (bitRel_frame (by rfl) (by rfl)).busWbyte v
  case busRbyte a => exact (bitRel_frame (by rfl) (by rfl)).busRbyte a
  case tempRead => exact uTempRead_frame (by rfl) (by rfl) (by rfl)
  case tempSmooth x => exact uTempSmooth_frame (by rfl) (by rfl) (by rfl) x
  case tempPreload t => exact uTempPreload_frame (by rfl) t
  case tempSmoothr => exact uTempSmoothr_frame (by rfl) (by rfl) (by rfl)
  case tempPreloadr => exact uTempPreloadr_frame (by rfl)
  case ctlSetpt => exact uCtlSetpt_frame (.inl rfl)
  case ctlOvr => exact uCtlOvr_frame (.inl rfl)
  case ctlHyst => exact uCtlHyst_frame (.inl rfl)
  case ctlStatus => exact uCtlStatus_frame (by rfl) (.inl rfl) (.inl rfl)
  case ctlSleep => exact once_keeps Frame.refl
  case ctlIter =>
    exact uCtlIter_frame (by rfl) (by rfl) (by rfl) (by rfl) (by rfl) (.inr rfl) (.inr rfl) (.inr rfl) (by rfl) (.inl rfl)
      (.inl rfl)

theorem rxcHandler_frame_parts {W : Part → Prop} (h : W .arrival) (s : State) : Frame W s (rxcHandler s) := by
  intro p hp
  rw [rxcHandler]
  split
  · exact Frame.refl s p hp
  · cases p
    case arrival => exact absurd h hp
    all_goals rfl

theorem txrHandler_frame_parts {W : Part → Prop} (hi : W .txie) (ht : W .txTail) (s : State) : Frame W s (txrHandler s) := by
  intro p hp
  rw [txrHandler]
  split
  · exact setTxie_frame hi s _ p hp
  · cases p
    case txTail => exact absurd ht hp
    all_goals rfl

theorem setTick_frame {W : Part → Prop} (s : State) (k : Tick) : Frame W s (s.setTick k) := fun p _ => by cases p <;> rfl

/-- An operation writes no part but those its rule names. -/
theorem exec_frame {i : Instr} {s t : State} (h : exec i s = .next t) : Frame (writes i s) s t := by
  cases hm : microOf i with
  | some m =>
    have hs := microOf_frame hm s
    rw [exec_eq_runFg hm] at h
    rcases runFg_next h with ⟨p, u, e, rfl⟩ | ⟨u, e, rfl⟩ <;> rw [e] at hs
    · exact Frame.setSeq hs _
    · exact Frame.setSeq hs _
  | none =>
    cases he : i.isEvent with
    | true =>
      rcases exec_event_next he h with rfl | ⟨d, rfl, rfl⟩ | ⟨rfl, rfl⟩ | ⟨rfl, rfl⟩
      · exact Frame.refl _
      · exact rxcHandler_frame_parts (.inl ⟨d, rfl⟩) s
      · exact txrHandler_frame_parts (.inr (.inl rfl)) (.inl rfl) s
      · rw [tickHandler_frame]; exact setTick_frame s _
    | false =>
      cases i <;> simp only [microOf, Instr.isEvent, reduceCtorEq] at hm he
      case seqJmp a =>
        simp only [exec, execSeqJmp] at h
        split at h
        · cases h; exact (Frame.refl s).setSeq _
        · cases h

end Sys2Proof.Machine
end

