-- ==== Sys2Proof/Proofs/Writers.lean ====
section
/-! PROOFS. Who writes what (20_memory.md R61, R70), what an event leaves alone (60_exceptions.md R243, R246) and what R127 refuses:
read off the frame of the operations. -/

namespace Sys2Proof.Machine

section Writers

variable {i : Instr} {s t : State}

/-! ### Whole rings -/

/-- No operation but `EVT.RXC` writes a slot of the receive ring. -/
theorem exec_rxBuf (h : exec i s = .next t) (hi : ∀ d, i ≠ .evtRxc d) : t.rx.buf = s.rx.buf := by
  cases he : i.isEvent with
  | true => rw [exec_event_rx he hi h]
  | false =>
    obtain ⟨u, hu, ht⟩ := exec_fgKeeps he h
    rw [ht]
    exact hu.rxBuf

theorem exec_rxHead_rxHw (h : exec i s = .next t) (hi : ∀ d, i ≠ .evtRxc d) (ha : atInit i s = false) :
    t.rx.head = s.rx.head ∧ t.ser.rxHw = s.ser.rxHw := by
  simpa [Part.Same] using exec_frame h .arrival (by simp [writes, hi, ha])

theorem exec_rxTail (h : exec i s = .next t) (hi : i ≠ .uartRecv) (ha : atInit i s = false) : t.rx.tail = s.rx.tail :=
  exec_frame h .rxTail (by simp [writes, hi, ha])

theorem exec_rx (h : exec i s = .next t) (hi : ∀ d, i ≠ .evtRxc d) (ha : atInit i s = false) (hr : i ≠ .uartRecv) :
    t.rx = s.rx :=
  calc t.rx = ⟨t.rx.buf, t.rx.head, t.rx.tail⟩ := rfl
    _ = s.rx := by rw [exec_rxBuf h hi, (exec_rxHead_rxHw h hi ha).1, exec_rxTail h hr ha]

theorem exec_sending (h : exec i s = .next t) (hi : sendsBytes i = false) :
    t.tx.buf = s.tx.buf ∧ t.tmp.h1 = s.tmp.h1 ∧ t.tmp.line = s.tmp.line := by
  simpa [Part.Same] using exec_frame h .sending (by simp [writes, hi])

theorem exec_txHead (h : exec i s = .next t) (hi : sendsBytes i = false) (ha : atInit i s = false) :
    t.tx.head = s.tx.head :=
  exec_frame h .txHead (by simp [writes, hi, ha])

theorem exec_txTail (h : exec i s = .next t) (hi : i ≠ .evtTxr) (ha : atInit i s = false) : t.tx.tail = s.tx.tail :=
  exec_frame h .txTail (by simp [writes, hi, ha])

theorem exec_tx (h : exec i s = .next t) (hi : sendsBytes i = false) (ha : atInit i s = false) (hx : i ≠ .evtTxr) :
    t.tx = s.tx :=
  calc t.tx = ⟨t.tx.buf, t.tx.head, t.tx.tail⟩ := rfl
    _ = s.tx := by rw [(exec_sending h hi).1, exec_txHead h hi ha, exec_txTail h hx ha]

theorem exec_smooth (h : exec i s = .next t) (hi : writesWindow i = false) : t.smooth = s.smooth ∧ t.tmp.k = s.tmp.k := by
  simpa [Part.Same] using exec_frame h .window (by simp [writes, hi])

theorem exec_ctl (h : exec i s = .next t) (ha : atInit i s = false) : t.ctl = { s.ctl with txie := t.ctl.txie } :=
  exec_frame h .enables (by simp [writes, ha])

theorem exec_txie (h : exec i s = .next t) (ha : atInit i s = false) (hi : sendsBytes i = false) (hx : i ≠ .evtTxr) :
    t.ctl.txie = s.ctl.txie :=
  exec_frame h .txie (by simp [writes, ha, hi, hx])

/-! ### One slot at a time -/

/-- R holds of a memory and what the stores into SmoothBuf leave of it: they write one slot below 16 (R191), or the sixteen of them
(R192). -/
structure WindowRel (R : Memory → Memory → Prop) : Prop where
  refl : ∀ m, R m m
  write : ∀ m a v, a < 16 → R m (m.write a v)
  fill : ∀ m v, R m (m.fill smoothDepth v)

/-- R holds of SmoothBuf before and after. -/
def WindowKept (R : Memory → Memory → Prop) (s t : State) : Prop := R s.smooth.buf t.smooth.buf

/-- The stores into TxBuf are at `h1` (R114). -/
def SendStores (s t : State) : Prop :=
  ∀ a, a ≠ s.tmp.h1.toNat → t.tx.buf.read .txBuf a = s.tx.buf.read .txBuf a

theorem Micro.Keeps.sendStores {m : Micro} (h : m.Keeps (Frame (· ≠ .sending))) : m.Keeps SendStores :=
  h.imp fun s t hf a _ => by
    have : t.tx.buf = s.tx.buf ∧ t.tmp.h1 = s.tmp.h1 ∧ t.tmp.line = s.tmp.line := by
      simpa [Part.Same] using hf .sending (by simp)
    rw [this.1]

theorem uUartSend_sendStores (b : Byte) : (uUartSend b).Keeps SendStores := by
  intro pos s
  unfold uUartSend
  split
  · split
    · exact fun _ _ => rfl
    · trivial
  · split <;> exact fun _ _ => rfl
  · exact fun a ha => Memory.read_write_other _ _ _ ha
  · exact fun _ _ => rfl
  · exact fun _ _ => rfl
  · trivial

/-- Only u3 of `UART.SEND` stores (R114). -/
theorem uUartSend_txBuf (b : Byte) {pos : List Nat} (hp : pos ≠ [3]) (s : State) :
    (uUartSend b pos s).Sat fun t => t.tx.buf = s.tx.buf := by
  unfold uUartSend
  split
  · split
    · rfl
    · trivial
  · split <;> rfl
  · exact absurd rfl hp
  · rfl
  · rfl
  · trivial

/-- Only u1 of `TEMP.SMOOTH` stores (R191). -/
theorem uTempSmooth_buf (x : Byte) {pos : List Nat} (hp : pos ≠ [1]) (s : State) :
    (uTempSmooth x pos s).Sat fun t => t.smooth.buf = s.smooth.buf := by
  unfold uTempSmooth straight
  split
  next n =>
    match n with
    | 0 => exact absurd rfl hp
    | 1 | 2 | 3 => rfl
    | _ + 4 => trivial
  · trivial

theorem uCtlStatus_sendStores : uCtlStatus.Keeps SendStores := by
  intro pos s
  unfold uCtlStatus
  split
  · exact fun _ _ => rfl
  · split
    · exact fun _ _ => rfl
    · refine callAt_sat (uUartSend_sendStores _) (fun _ ht => ht) fun t ht => ?_
      dsimp only
      split <;> exact ht
  · trivial

theorem uCtlIter_sendStores : uCtlIter.Keeps SendStores := by
  refine calls_keeps fun m hm => ?_
  simp only [List.mem_cons, List.not_mem_nil, or_false] at hm
  rcases hm with rfl | rfl | rfl | rfl | rfl | rfl | rfl
  · exact (uCtlSetpt_frame nofun).sendStores
  · exact (uTempRead_frame nofun nofun nofun).sendStores
  · exact (uTempSmoothr_frame nofun nofun nofun).sendStores
  · exact (uCtlOvr_frame nofun).sendStores
  · exact (uCtlHyst_frame nofun).sendStores
  · exact uCtlStatus_sendStores
  · exact once_keeps fun _ _ _ => rfl

/-- What a micro-step leaves, apart from the sequencer's registers, exec leaves. -/
theorem MicroResult.Sat.exec {Q : State → Prop} {m : Micro} (hm : (m s.seq.ustep s).Sat Q) (hi : microOf i = some m)
    (hQ : ∀ u q, Q u → Q (u.setSeq q)) (h : exec i s = .next t) : Q t := by
  rw [exec_eq_runFg hi] at h
  rcases runFg_next h with ⟨p, u, e, rfl⟩ | ⟨u, e, rfl⟩ <;> rw [e] at hm
  · exact hQ u _ hm
  · exact hQ u _ hm

theorem Micro.Keeps.exec {P : State → State → Prop} {m : Micro} (hm : m.Keeps P) (hi : microOf i = some m)
    (hP : ∀ u q, P s u → P s (u.setSeq q)) (h : exec i s = .next t) : P s t :=
  (hm s.seq.ustep s).exec hi hP h

section Window

variable {R : Memory → Memory → Prop} (hR : WindowRel R)
include hR

theorem Micro.Keeps.windowKept {m : Micro} (h : m.Keeps (Frame (· ≠ .window))) : m.Keeps (WindowKept R) :=
  h.imp fun s t hf => by
    have hsm : t.smooth = s.smooth ∧ t.tmp.k = s.tmp.k := by simpa [Part.Same] using hf .window (by simp)
    rw [WindowKept, hsm.1]
    exact hR.refl _

theorem uTempSmooth_windowKept (x : Byte) : (uTempSmooth x).Keeps (WindowKept R) := by
  refine straight_keeps fun u hu s => ?_
  simp only [List.mem_cons, List.not_mem_nil, or_false] at hu
  rcases hu with rfl | rfl | rfl | rfl
  · exact hR.write _ _ _ s.smooth.cur.isLt
  all_goals exact hR.refl _

theorem uTempPreload_windowKept (x : Byte) : (uTempPreload x).Keeps (WindowKept R) :=
  once_keeps fun s => by
    simp only [MicroResult.sat_done, WindowKept, fillWindow, State.setTmp_smooth, State.setSmooth_smooth]
    exact hR.fill s.smooth.buf x

theorem uTempSmoothr_windowKept : uTempSmoothr.Keeps (WindowKept R) :=
  fun pos s => calls_keeps (by simpa using uTempSmooth_windowKept hR s.lat.raw) pos s

theorem uTempPreloadr_windowKept : uTempPreloadr.Keeps (WindowKept R) :=
  fun pos s => calls_keeps (by simpa using uTempPreload_windowKept hR s.lat.raw) pos s

theorem uCtlIter_windowKept : uCtlIter.Keeps (WindowKept R) := by
  refine calls_keeps fun m hm => ?_
  simp only [List.mem_cons, List.not_mem_nil, or_false] at hm
  rcases hm with rfl | rfl | rfl | rfl | rfl | rfl | rfl
  · exact (uCtlSetpt_frame nofun).windowKept hR
  · exact (uTempRead_frame nofun nofun nofun).windowKept hR
  · exact uTempSmoothr_windowKept hR
  · exact (uCtlOvr_frame nofun).windowKept hR
  · exact (uCtlHyst_frame nofun).windowKept hR
  · exact (uCtlStatus_frame nofun nofun nofun).windowKept hR
  · exact once_keeps fun _ => hR.refl _

theorem uCtlBoot_windowKept : uCtlBoot.Keeps (WindowKept R) := by
  refine calls_keeps fun m hm => ?_
  simp only [List.mem_cons, List.not_mem_nil, or_false] at hm
  rcases hm with rfl | rfl | rfl | rfl
  · exact (uUartInit_frame nofun nofun nofun nofun nofun nofun).windowKept hR
  · exact (lineRel_frame nofun).busInit.windowKept hR
  · exact (uTempRead_frame nofun nofun nofun).windowKept hR
  · exact uTempPreloadr_windowKept hR

theorem exec_windowKept (h : exec i s = .next t) : R s.smooth.buf t.smooth.buf := by
  cases hw : writesWindow i with
  | false =>
    rw [(exec_smooth h hw).1]
    exact hR.refl _
  | true =>
    cases i <;> simp only [writesWindow, Bool.false_eq_true] at hw
    case tempSmooth x => exact (uTempSmooth_windowKept hR x).exec (P := WindowKept R) rfl (fun _ _ hu => hu) h
    case tempPreload x => exact (uTempPreload_windowKept hR x).exec (P := WindowKept R) rfl (fun _ _ hu => hu) h
    case tempSmoothr => exact uTempSmoothr_windowKept hR |>.exec (P := WindowKept R) rfl (fun _ _ hu => hu) h
    case tempPreloadr => exact uTempPreloadr_windowKept hR |>.exec (P := WindowKept R) rfl (fun _ _ hu => hu) h
    case ctlIter => exact uCtlIter_windowKept hR |>.exec (P := WindowKept R) rfl (fun _ _ hu => hu) h
    case ctlBoot => exact uCtlBoot_windowKept hR |>.exec (P := WindowKept R) rfl (fun _ _ hu => hu) h

end Window

/-- The stores into SmoothBuf are below 16. -/
theorem exec_windowStores (h : exec i s = .next t) (a : Nat) (ha : 16 ≤ a) :
    t.smooth.buf.read .smoothBuf a = s.smooth.buf.read .smoothBuf a := by
  have hR : WindowRel fun m m' => m'.read .smoothBuf a = m.read .smoothBuf a :=
    ⟨fun _ => rfl, fun m b v hb => Memory.read_write_other _ _ _ (by omega),
      fun m v => (Memory.read_fill _ _ _ _ _).trans (if_neg (by simp [smoothDepth]; omega))⟩
  exact exec_windowKept hR h

theorem exec_smoothBuf_wf (h : exec i s = .next t) (hs : s.smooth.buf.wf 16 = true) : t.smooth.buf.wf 16 = true := by
  have hR : WindowRel fun m m' => m.wf 16 = true → m'.wf 16 = true :=
    ⟨fun _ h => h, fun m a v ha h => Memory.wf_write m 16 a v h ha, fun m v h => Memory.wf_fill m 16 smoothDepth v h le_rfl⟩
  exact exec_windowKept hR h hs

theorem exec_sendStores (h : exec i s = .next t) : SendStores s t := by
  cases hw : sendsBytes i with
  | false =>
    intro a _
    rw [(exec_sending h hw).1]
  | true =>
    cases i <;> simp only [sendsBytes, Bool.false_eq_true] at hw
    case uartSend b => exact (uUartSend_sendStores b).exec rfl (fun _ _ hu => hu) h
    case ctlStatus => exact uCtlStatus_sendStores.exec rfl (fun _ _ hu => hu) h
    case ctlIter => exact uCtlIter_sendStores.exec rfl (fun _ _ hu => hu) h

/-! ### Events -/

theorem exec_event_answers (he : i.isEvent = true) (s : State) : ∃ t, exec i s = .next t := by
  cases i <;> simp only [Instr.isEvent, Bool.false_eq_true] at he
  case evtRxc d => exact ⟨_, takeEvent_eq (rxcEnabled d s) rxcHandler s⟩
  case evtTxr => exact ⟨_, takeEvent_eq (txrEnabled s) txrHandler s⟩
  case evtTick => exact ⟨_, takeEvent_eq (tickEnabled s) tickHandler s⟩

/-- The whole frame of an event (R246). -/
theorem exec_event_frame (he : i.isEvent = true) (h : exec i s = .next t) :
    t = { s with
      rx := { s.rx with head := t.rx.head, buf := t.rx.buf }
      tx := { s.tx with tail := t.tx.tail }
      ctl := { s.ctl with txie := t.ctl.txie }
      ser := t.ser
      tick := t.tick
      trace := { s.trace with txWire := t.trace.txWire } } := by
  rcases exec_event_next he h with rfl | ⟨d, -, rfl⟩ | ⟨-, rfl⟩ | ⟨-, rfl⟩
  · rfl
  · unfold rxcHandler
    split <;> rfl
  · unfold txrHandler
    split <;> rfl
  · unfold tickHandler
    split <;> rfl

theorem exec_event_of_disabled (he : i.isEvent = true) (h : eventEnabled i s = false) : exec i s = .next s := by
  cases i <;> simp only [Instr.isEvent, Bool.false_eq_true] at he
  case evtRxc d => exact (takeEvent_eq (rxcEnabled d s) rxcHandler s).trans (by rw [show rxcEnabled d s = false from h]; rfl)
  case evtTxr => exact (takeEvent_eq (txrEnabled s) txrHandler s).trans (by rw [show txrEnabled s = false from h]; rfl)
  case evtTick => cases h

/-- Neither events nor the foreground's commands write the parameters, `PROG`, the environment or the schedule. -/
theorem exec_fixed (h : exec i s = .next t) : t.cfg = s.cfg ∧ t.prog = s.prog ∧ t.env = s.env ∧ t.sched = s.sched := by
  cases he : i.isEvent with
  | true => rw [exec_event_frame he h]; exact ⟨rfl, rfl, rfl, rfl⟩
  | false =>
    obtain ⟨u, hu, ht⟩ := exec_fgKeeps he h
    rw [ht]
    exact ⟨hu.cfg, hu.prog, hu.env, hu.sched⟩

theorem exec_txWire (h : exec i s = .next t) (hi : i ≠ .evtTxr) :
    t.trace.txWire = s.trace.txWire ∧ t.ser.txHwReady = s.ser.txHwReady := by
  cases he : i.isEvent with
  | true =>
    rcases exec_event_next he h with rfl | ⟨d, -, rfl⟩ | ⟨rfl, -⟩ | ⟨-, rfl⟩
    · exact ⟨rfl, rfl⟩
    · unfold rxcHandler
      split <;> exact ⟨rfl, rfl⟩
    · exact absurd rfl hi
    · rw [tickHandler_frame]; exact ⟨rfl, rfl⟩
  | false =>
    obtain ⟨u, hu, ht⟩ := exec_fgKeeps he h
    rw [ht]
    exact ⟨hu.txWire, hu.txHwReady⟩

theorem exec_tick (h : exec i s = .next t) (hi : i ≠ .evtTick) : t.tick = s.tick := by
  cases he : i.isEvent with
  | true =>
    rcases exec_event_next he h with rfl | ⟨d, -, rfl⟩ | ⟨-, rfl⟩ | ⟨rfl, -⟩
    · rfl
    · rw [rxcHandler_frame]
    · unfold txrHandler
      split <;> rfl
    · exact absurd rfl hi
  | false =>
    obtain ⟨u, hu, ht⟩ := exec_fgKeeps he h
    rw [ht]
    exact hu.tick

theorem atInit_of_isEvent (he : i.isEvent = true) (s : State) : atInit i s = false := by
  cases i <;> first | rfl | cases he

/-- Refused where the operation's micro-step refuses. -/
theorem exec_of_refuse {m : Micro} {p : List Nat} {r : Refusal} (hi : microOf i = some m) (hp : s.seq.ustep = p)
    (h : m p s = .refuse r) : exec i s = .refused r := by
  rw [exec_eq_runFg hi]
  exact runFg_of_refuse (hp ▸ h)

end Writers

/-! ### The obligations -/

/-- Settles O26: the parts of the frame that R70's table names, and what no foreground operation writes. -/
theorem eachSharedElementHasOneWriter : Obligations.EachSharedElementHasOneWriter := by
  unfold Obligations.EachSharedElementHasOneWriter
  refine fun i s t h => ⟨fun hi => ⟨exec_rxBuf h hi, exec_rxHead_rxHw h hi⟩, fun hi => ?handover, exec_tick h, fun he => ?event,
    exec_fixed h⟩
  case handover =>
    obtain ⟨hwire, hready⟩ := exec_txWire h hi
    exact ⟨hwire, hready, exec_txTail h hi⟩
  case event =>
    rw [exec_event_frame he h]
    exact ⟨rfl, rfl, rfl, rfl, rfl, rfl, rfl, rfl, rfl⟩

/-- Settles O27: the parts of the frame one by one, and the stores slot by slot. -/
theorem eachRegisterHasItsWriters : Obligations.EachRegisterHasItsWriters := by
  unfold Obligations.EachRegisterHasItsWriters
  intro i s t h
  have frame := exec_frame h
  refine ⟨fun hi => ?bus, exec_smooth h, fun hi => ?mean, fun hi => frame .raw (by simp [writes, hi]),
    fun hi => frame .res (by simp [writes, hi]), fun h1 h2 => frame .sp (by simp [writes, h1, h2]),
    fun h1 h2 => frame .ov (by simp [writes, h1, h2]), fun h1 h2 => ?coil, fun hi => ?sending, fun hi => ⟨?t1, exec_rxTail h hi⟩,
    fun ha => ⟨exec_ctl h ha, exec_txie h ha⟩, exec_windowStores h, exec_sendStores h⟩
  case bus => simpa [Part.Same] using frame .bus (by simp [writes, hi])
  case mean => simpa [Part.Same] using frame .mean (by simp [writes, hi])
  case coil => simpa [Part.Same] using frame .coil (by simp [writes, h1, h2])
  case sending =>
    obtain ⟨hbuf, hh1, hline⟩ := exec_sending h hi
    exact ⟨hbuf, hh1, hline, exec_txHead h hi⟩
  case t1 => exact frame .t1 hi

/-- Settles O29: every event answers, and its frame. -/
theorem eventLeavesTheForegroundAlone : Obligations.EventLeavesTheForegroundAlone := by
  unfold Obligations.EventLeavesTheForegroundAlone
  intro i s he
  obtain ⟨t, h⟩ := exec_event_answers he s
  exact ⟨t, h, exec_event_frame he h⟩

/-- Settles O30: a handler runs only where its event is enabled. -/
theorem disabledEventIsNotTaken : Obligations.DisabledEventIsNotTaken := by
  unfold Obligations.DisabledEventIsNotTaken
  exact ⟨fun _ _ => exec_event_of_disabled, fun _ => rfl⟩

/-- Settles O14: the first micro-step tests the enable, which no operation but `UART.INIT` writes. -/
theorem transportBeforeInitIsRefused : Obligations.TransportBeforeInitIsRefused := by
  unfold Obligations.TransportBeforeInitIsRefused
  refine ⟨fun b s hp h => ?send, fun s hp h => ⟨?avail, ?recv⟩, fun s hp hl h => ?status, fun _ _ => ⟨rfl, rfl⟩,
    fun i s t h ha => ?kept⟩
  case send => exact exec_of_refuse rfl hp (by simp [uUartSend, h])
  case avail => exact exec_of_refuse rfl hp (by simp [uUartAvail, h])
  case recv => exact exec_of_refuse rfl hp (by simp [uUartRecv, h])
  case status =>
    obtain ⟨c, rest, hline⟩ := List.exists_cons_of_ne_nil hl
    exact exec_of_refuse rfl hp (by simp [uCtlStatus, hline, callAt, uUartSend, h])
  case kept =>
    rw [exec_ctl h ha]
    exact ⟨rfl, rfl⟩

/-- Settles O53: outside u3 of `UART.SEND` and u1 of `TEMP.SMOOTH` those operations store nothing. -/
theorem storesTouchOneSlot : Obligations.StoresTouchOneSlot := by
  unfold Obligations.StoresTouchOneSlot
  refine fun s t => ⟨fun b h => ?send, fun d h => ?rxc, fun x h => ?smooth, fun x h => ?preload, ?others⟩
  case send =>
    exact ⟨fun _ => exec_sendStores h, fun hp => (uUartSend_txBuf b hp s).exec rfl (fun _ _ hu => hu) h,
      exec_rx h nofun rfl nofun, (exec_smooth h rfl).1⟩
  case rxc =>
    rcases exec_event_next rfl h with rfl | ⟨_, -, rfl⟩ | ⟨h, -⟩ | ⟨h, -⟩
    · exact ⟨fun _ _ => rfl, rfl, rfl⟩
    · unfold rxcHandler
      split
      · exact ⟨fun _ _ => rfl, rfl, rfl⟩
      · exact ⟨fun a ha => Memory.read_write_other _ _ _ ha, rfl, rfl⟩
    · cases h
    · cases h
  case smooth =>
    refine ⟨fun hp a ha => ?_, fun hp => (uTempSmooth_buf x hp s).exec rfl (fun _ _ hu => hu) h, exec_rx h nofun rfl nofun,
      exec_tx h rfl rfl nofun⟩
    rw [exec_tempSmooth_u1 x hp] at h
    cases h
    exact Memory.read_write_other _ _ _ ha
  case preload => exact ⟨exec_windowStores h, exec_rx h nofun rfl nofun, exec_tx h rfl rfl nofun⟩
  case others =>
    intro i h1 h2 h3 h4 h5 h6 h7 h8 h9 h
    have hsend : sendsBytes i = false := by
      cases i <;> first | rfl | simp_all
    have hwin : writesWindow i = false := by
      cases i <;> first | rfl | simp_all
    exact ⟨exec_rxBuf h h2, (exec_sending h hsend).1, congrArg Smoothing.buf (exec_smooth h hwin).1⟩

end Sys2Proof.Machine
end

