-- ==== Sys2Proof/Proofs/Positions.lean ====
section
/-! PROOFS. The positions of `ustep` (10_state.md R32): from a position of it every operation goes on to a position of it or is done,
and a refusal needs an enable that is 0. -/

namespace Sys2Proof.Machine

/-! ### One lemma for each combinator -/

section Combinators

/-- A micro-step that is no stray one: it goes on at a position in L or is done, and refuses only where R holds. -/
def MicroResult.Legal (L : List Nat → Bool) (R : Prop) : MicroResult → Prop
  | .more p _ => L p = true
  | .done _ => True
  | .refuse _ => R
  | .stray => False

/-- L is the positions of m: it begins at one, and from one goes on to another. -/
structure Micro.Legal (R : State → Prop) (L : List Nat → Bool) (m : Micro) : Prop where
  start : L [1] = true
  move : ∀ pos s, L pos = true → (m pos s).Legal L (R s)

variable {R : State → Prop} {L L' : List Nat → Bool} {m : Micro}

theorem legalStraight_iff {n : Nat} {p : List Nat} : legalStraight n p = true ↔ ∃ k, k < n ∧ p = [k + 1] := by
  constructor
  · intro h
    unfold legalStraight at h
    split at h
    next k =>
      simp only [Bool.and_eq_true, decide_eq_true_eq] at h
      exact ⟨k - 1, by omega, by rw [Nat.sub_add_cancel h.1]⟩
    · cases h
  · rintro ⟨k, hk, rfl⟩
    simpa [legalStraight] using hk

theorem once_legal {f : State → MicroResult} (h : ∀ s, (f s).Legal (legalStraight 1) (R s)) :
    (once f).Legal R (legalStraight 1) := by
  refine ⟨rfl, fun pos s hp => ?_⟩
  obtain ⟨k, hk, rfl⟩ := legalStraight_iff.mp hp
  obtain rfl : k = 0 := by omega
  exact h s

theorem straight_legal (us : List (State → State)) {n : Nat} (hn : 0 < n) (h : us.length = n := by rfl) :
    (straight us).Legal R (legalStraight n) := by
  subst h
  refine ⟨legalStraight_iff.mpr ⟨0, hn, rfl⟩, fun pos s hp => ?_⟩
  obtain ⟨k, hk, rfl⟩ := legalStraight_iff.mp hp
  simp only [straight, List.getElem?_eq_getElem hk]
  split
  · trivial
  · exact legalStraight_iff.mpr ⟨k + 1, by omega, rfl⟩

theorem callAt_legal (hm : m.Legal R L) {n : Nat} {sub : List Nat} (hsub : legalInCall L sub = true) {s : State} {R' : Prop}
    (hR : R s → R') {k : State → MicroResult} (hL : ∀ p, L p = true → L' (n :: p) = true)
    (hk : ∀ t, (k t).Legal L' R') : (callAt n sub m s k).Legal L' R' := by
  have hpos : L (if sub = [] then [1] else sub) = true := by
    split
    · exact hm.start
    next h => simpa [legalInCall, h] using hsub
  have h := hm.move _ s hpos
  unfold callAt
  split <;> simp_all [MicroResult.Legal]

/-- A list of calls, each with its positions. -/
theorem calls_legal (cs : List (Micro × (List Nat → Bool))) (hne : cs ≠ []) (h : ∀ c ∈ cs, c.1.Legal R c.2) :
    (calls (cs.map Prod.fst)).Legal R (legalCalls (cs.map Prod.snd)) := by
  have start : ∀ n, n < cs.length → legalCalls (cs.map Prod.snd) [n + 1] = true := fun n hn => by
    simp [legalCalls, hn, legalInCall]
  refine ⟨start 0 (List.length_pos_of_ne_nil hne), fun pos s hp => ?_⟩
  unfold legalCalls at hp
  split at hp
  next n sub =>
    cases hc : cs[n]? with
    | none => simp [hc] at hp
    | some c =>
      simp only [List.getElem?_map, hc, Option.map_some] at hp
      simp only [calls, List.getElem?_map, hc, Option.map_some, List.length_map]
      refine callAt_legal (h c (List.mem_of_getElem? hc)) hp id (fun p hp => ?_) fun t => ?_
      · simp [legalCalls, hc, legalInCall, hp]
      · have hn : n < cs.length := (List.getElem?_eq_some_iff.mp hc).1
        split
        · trivial
        · exact start (n + 1) (by omega)
  · cases hp

theorem bitLoop_legal (hm : m.Legal R L) {n : Nat} {sub : List Nat} (hsub : legalInCall L sub = true) {s : State} {R' : Prop}
    (hR : R s → R') {w : State → State} {k : State → MicroResult} (hL : ∀ p, L p = true → L' (n :: p) = true)
    (hk : ∀ t, (k t).Legal L' R') : (bitLoop n sub m w s k).Legal L' R' := by
  refine callAt_legal hm hsub hR hL fun t => ?_
  dsimp only
  split
  · exact hk _
  · exact hL _ hm.start

/-! ### The operations -/

theorem uBusWbit_legal (b : Byte) : (uBusWbit b).Legal R (legalStraight 5) := straight_legal _ (by decide)

theorem uBusRbit_legal : uBusRbit.Legal R (legalStraight 7) := straight_legal _ (by decide)

theorem wbyteBit_legal (v : Byte) : (wbyteBit v).Legal R (legalStraight 5) :=
  ⟨rfl, fun pos s hp => (uBusWbit_legal _).move pos s hp⟩

theorem uBusWbyte_legal (v : Byte) : (uBusWbyte v).Legal R legalWbyte := by
  refine ⟨rfl, fun pos s hp => ?_⟩
  have inLoop : ∀ p, legalStraight 5 p = true → legalWbyte (1 :: p) = true := fun p h => by simp [legalWbyte, legalInCall, h]
  unfold uBusWbyte
  split
  · exact bitLoop_legal (R := fun _ => R s) (wbyteBit_legal v) rfl id inLoop fun _ => rfl
  · exact bitLoop_legal (wbyteBit_legal v) hp id inLoop fun _ => rfl
  · exact callAt_legal uBusRbit_legal hp id (fun p h => by simp [legalWbyte, legalInCall, h]) fun _ => trivial
  next h1 h2 h3 =>
    unfold legalWbyte at hp
    split at hp
    · exact absurd rfl (h2 _)
    · exact absurd rfl (h3 _)
    · cases hp

theorem uBusRbyte_legal (a : Byte) : (uBusRbyte a).Legal R legalRbyte := by
  refine ⟨rfl, fun pos s hp => ?_⟩
  have inLoop : ∀ p, legalStraight 7 p = true → legalRbyte (2 :: p) = true := fun p h => by simp [legalRbyte, legalInCall, h]
  unfold uBusRbyte
  split
  · rfl
  · exact bitLoop_legal (R := fun _ => R s) uBusRbit_legal rfl id inLoop fun _ => rfl
  · exact bitLoop_legal uBusRbit_legal hp id inLoop fun _ => rfl
  · exact callAt_legal (uBusWbit_legal _) hp id (fun p h => by simp [legalRbyte, legalInCall, h]) fun _ => rfl
  · trivial
  next h1 h2 h3 h4 h5 =>
    unfold legalRbyte at hp
    split at hp
    · exact absurd rfl h1
    · exact absurd rfl (h3 _)
    · exact absurd rfl (h4 _)
    · exact absurd rfl h5
    · cases hp

theorem uTempRead_legal : uTempRead.Legal R legalRead := by
  refine ⟨rfl, fun pos s hp => ?_⟩
  refine (calls_legal [(uBusStart, legalStraight 4), (uBusWbyte s.cfg.slaveReadAddr, legalWbyte), (uBusRbyte 1#8, legalRbyte),
    (uBusStop, legalStraight 4), (once fun s => .done (latchRaw s), legalStraight 1)] (by simp) fun c hc => ?_).move pos s hp
  simp only [List.mem_cons, List.not_mem_nil, or_false] at hc
  rcases hc with rfl | rfl | rfl | rfl | rfl
  · exact straight_legal _ (by decide)
  · exact uBusWbyte_legal _
  · exact uBusRbyte_legal _
  · exact straight_legal _ (by decide)
  · exact once_legal fun _ => trivial

theorem uTempSmooth_legal (x : Byte) : (uTempSmooth x).Legal R (legalStraight 4) := straight_legal _ (by decide)

theorem uTempSmoothr_legal : uTempSmoothr.Legal R (legalCalls [legalStraight 4]) :=
  ⟨rfl, fun pos s hp => (calls_legal [(uTempSmooth s.lat.raw, legalStraight 4)] (by simp)
    (by simpa using uTempSmooth_legal _)).move pos s hp⟩

theorem uTempPreload_legal (t : Byte) : (uTempPreload t).Legal R (legalStraight 1) := once_legal fun _ => trivial

theorem uTempPreloadr_legal : uTempPreloadr.Legal R (legalCalls [legalStraight 1]) :=
  ⟨rfl, fun pos s hp => (calls_legal [(uTempPreload s.lat.raw, legalStraight 1)] (by simp)
    (by simpa using uTempPreload_legal _)).move pos s hp⟩

theorem uUartSend_legal (hR : ∀ s, s.ctl.txen = false → R s) (b : Byte) : (uUartSend b).Legal R (legalStraight 5) := by
  refine ⟨rfl, fun pos s hp => ?_⟩
  obtain ⟨k, hk, rfl⟩ := legalStraight_iff.mp hp
  match k with
  | 0 =>
    simp only [uUartSend]
    split
    · rfl
    next h => exact hR s (by simpa using h)
  | 1 =>
    simp only [uUartSend]
    split <;> rfl
  | 2 | 3 => rfl
  | 4 => trivial

theorem uUartAvail_legal (hR : ∀ s, s.ctl.rxen = false → R s) : uUartAvail.Legal R (legalStraight 1) := by
  refine once_legal fun s => ?_
  split
  · trivial
  next h => exact hR s (by simpa using h)

theorem uUartRecv_legal (hR : ∀ s, s.ctl.rxen = false → R s) : uUartRecv.Legal R (legalStraight 4) := by
  refine ⟨rfl, fun pos s hp => ?_⟩
  obtain ⟨k, hk, rfl⟩ := legalStraight_iff.mp hp
  match k with
  | 0 =>
    simp only [uUartRecv]
    split
    · split <;> rfl
    next h => exact hR s (by simpa using h)
  | 1 | 2 => rfl
  | 3 => trivial

theorem uCtlStatus_legal (hR : ∀ s, s.ctl.txen = false → R s) : uCtlStatus.Legal R legalStatus := by
  refine ⟨rfl, fun pos s hp => ?_⟩
  unfold uCtlStatus
  split
  · rfl
  · split
    · trivial
    · refine callAt_legal (uUartSend_legal hR _) hp id (fun p h => by simp [legalStatus, legalInCall, h]) fun t => ?_
      dsimp only
      split
      · trivial
      · rfl
  next h1 h2 =>
    unfold legalStatus at hp
    split at hp
    · exact absurd rfl h1
    · exact absurd rfl (h2 _)
    · cases hp

theorem uCtlIter_legal (hR : ∀ s, s.ctl.txen = false → R s) : uCtlIter.Legal R (legalPos .ctlIter) := by
  refine calls_legal [(uCtlSetpt, legalStraight 1), (uTempRead, legalRead), (uTempSmoothr, legalCalls [legalStraight 4]),
    (uCtlOvr, legalStraight 1), (uCtlHyst, legalStraight 1), (uCtlStatus, legalStatus), (uCtlSleep, legalStraight 1)]
    (by simp) fun c hc => ?_
  simp only [List.mem_cons, List.not_mem_nil, or_false] at hc
  rcases hc with rfl | rfl | rfl | rfl | rfl | rfl | rfl
  · exact once_legal fun _ => trivial
  · exact uTempRead_legal
  · exact uTempSmoothr_legal
  · exact once_legal fun _ => trivial
  · exact once_legal fun _ => trivial
  · exact uCtlStatus_legal hR
  · exact once_legal fun _ => trivial

theorem uCtlBoot_legal : uCtlBoot.Legal R (legalPos .ctlBoot) := by
  refine calls_legal [(uUartInit, legalStraight 1), (uBusInit, legalStraight 6), (uTempRead, legalRead),
    (uTempPreloadr, legalCalls [legalStraight 1])] (by simp) fun c hc => ?_
  simp only [List.mem_cons, List.not_mem_nil, or_false] at hc
  rcases hc with rfl | rfl | rfl | rfl
  · exact once_legal fun _ => trivial
  · exact straight_legal _ (by decide)
  · exact uTempRead_legal
  · exact uTempPreloadr_legal

end Combinators

/-- The operations that R127 refuses before `UART.INIT`. -/
def NeedsInit (i : Instr) : Prop :=
  (∃ b, i = .uartSend b) ∨ i = .uartAvail ∨ i = .uartRecv ∨ i = .ctlStatus ∨ i = .ctlIter

/-- The one condition under which an operation refuses at a position of it. -/
def MayRefuse (i : Instr) (s : State) : Prop := NeedsInit i ∧ (s.ctl.txen = false ∨ s.ctl.rxen = false)

theorem microOf_legal {i : Instr} {m : Micro} (h : microOf i = some m) : m.Legal (MayRefuse i) (legalPos i) := by
  cases i <;> simp only [microOf, Option.some.injEq, reduceCtorEq] at h <;> subst h
  case seqNop => exact once_legal fun _ => trivial
  case seqEnd => exact once_legal fun _ => rfl
  case uartInit => exact once_legal fun _ => trivial
  case uartSend b => exact uUartSend_legal (fun _ h => ⟨.inl ⟨b, rfl⟩, .inl h⟩) b
  case uartAvail => exact uUartAvail_legal fun _ h => ⟨.inr (.inl rfl), .inr h⟩
  case uartRecv => exact uUartRecv_legal fun _ h => ⟨.inr (.inr (.inl rfl)), .inr h⟩
  case busInit => exact straight_legal _ (by decide)
  case busStart => exact straight_legal _ (by decide)
  case busStop => exact straight_legal _ (by decide)
  case busWbit b => exact uBusWbit_legal b
  case busRbit => exact uBusRbit_legal
  case busWbyte v => exact uBusWbyte_legal v
  case busRbyte a => exact uBusRbyte_legal a
  case tempRead => exact uTempRead_legal
  case tempSmooth x => exact uTempSmooth_legal x
  case tempPreload t => exact uTempPreload_legal t
  case tempSmoothr => exact uTempSmoothr_legal
  case tempPreloadr => exact uTempPreloadr_legal
  case ctlSetpt => exact once_legal fun _ => trivial
  case ctlOvr => exact once_legal fun _ => trivial
  case ctlHyst => exact once_legal fun _ => trivial
  case ctlStatus => exact uCtlStatus_legal fun _ h => ⟨.inr (.inr (.inr (.inl rfl))), .inl h⟩
  case ctlSleep => exact once_legal fun _ => trivial
  case ctlIter => exact uCtlIter_legal fun _ h => ⟨.inr (.inr (.inr (.inr rfl))), .inl h⟩
  case ctlBoot => exact uCtlBoot_legal

/-! ### Steps of the machine -/

section Steps

variable {i : Instr} {s t : State}

/-- Every command may begin at `[1]`. -/
theorem legalPos_start (he : i.isEvent = false) : legalPos i [1] = true := by
  cases i <;> first | rfl | cases he

/-- Only an operation that needs `UART.INIT` refuses, and otherwise it answers at a position of it, or begins the next command. -/
theorem exec_of_legalPos (he : i.isEvent = false) (hp : legalPos i s.seq.ustep = true) :
    (∃ t, exec i s = .next t ∧ (t.seq.pc = s.seq.pc ∧ legalPos i t.seq.ustep = true ∨ t.seq.ustep = [1])) ∨
      MayRefuse i s ∧ ∃ r, exec i s = .refused r := by
  cases hm : microOf i with
  | some m =>
    have hl := (microOf_legal hm).move _ s hp
    have hk := microOf_keeps hm s.seq.ustep s
    rw [exec_eq_runFg hm]
    cases e : m s.seq.ustep s with
    | more p u =>
      rw [e] at hl hk
      exact .inl ⟨_, runFg_of_more e, .inl ⟨by rw [State.goesTo_seq, hk.seq], hl⟩⟩
    | done u => exact .inl ⟨_, runFg_of_done e, .inr rfl⟩
    | refuse r =>
      rw [e] at hl
      exact .inr ⟨hl, r, runFg_of_refuse e⟩
    | stray =>
      rw [e] at hl
      exact hl.elim
  | none =>
    cases i <;> simp only [microOf, Instr.isEvent, reduceCtorEq] at hm he
    case seqJmp a =>
      obtain ⟨k, hk, hp⟩ := legalStraight_iff.mp hp
      obtain rfl : k = 0 := by omega
      exact .inl ⟨_, if_pos hp, .inr rfl⟩

theorem fgCommand_congr (hprog : t.prog = s.prog) (hpc : t.seq.pc = s.seq.pc) : fgCommand t = fgCommand s := by
  unfold fgCommand
  rw [hprog, hpc]

theorem fgCommand_isEvent (h : fgCommand s = some i) : i.isEvent = false := by
  obtain ⟨w, -, hw⟩ := Option.bind_eq_some_iff.mp h
  exact (decodeAt_program hw).2

theorem posLegal_of_command (h : fgCommand s = some i) : PosLegal s ↔ legalPos i s.seq.ustep = true := by
  rw [PosLegal, h]

/-- Every command, and the place where there is none, begins at `[1]`. -/
theorem posLegal_of_start (h : s.seq.ustep = [1]) : PosLegal s := by
  unfold PosLegal
  split
  next i hc => rw [h]; exact legalPos_start (fgCommand_isEvent hc)
  · exact h

/-- A step that leaves the sequencer and `PROG` leaves the position legal. -/
theorem PosLegal.of_same (h : PosLegal s) (hprog : t.prog = s.prog) (hseq : t.seq = s.seq) : PosLegal t := by
  unfold PosLegal at h ⊢
  rw [fgCommand_congr hprog (congrArg Sequencer.pc hseq), hseq]
  exact h

theorem envStep_seq_prog (e : EnvStep) (s : State) : (envStep e s).seq = s.seq ∧ (envStep e s).prog = s.prog := by
  cases e
  case rxByte d =>
    unfold envStep
    dsimp only
    split <;> exact ⟨rfl, rfl⟩
  all_goals exact ⟨rfl, rfl⟩

theorem exec_event_seq (he : i.isEvent = true) (h : exec i s = .next t) : t.seq = s.seq ∧ t.prog = s.prog := by
  rw [exec_event_frame he h]
  exact ⟨rfl, rfl⟩

/-- The foreground's step from a position of its command. -/
theorem PosLegal.exec (h : PosLegal s) (hc : fgCommand s = some i) (hx : exec i s = .next t) : PosLegal t := by
  have he := fgCommand_isEvent hc
  rcases exec_of_legalPos he ((posLegal_of_command hc).mp h) with ⟨u, hu, hpos⟩ | ⟨-, r, hr⟩
  · cases hu.symm.trans hx
    rcases hpos with ⟨hpc, hp⟩ | hp
    · exact (posLegal_of_command ((fgCommand_congr (exec_fixed hx).2.1 hpc).trans hc)).mpr hp
    · exact posLegal_of_start hp
  · cases hr.symm.trans hx

theorem legalStraight_length {n : Nat} {p : List Nat} (h : legalStraight n p = true) : p.length ≤ 1 := by
  obtain ⟨k, -, rfl⟩ := legalStraight_iff.mp h
  rfl

theorem legalInCall_length {L : List Nat → Bool} {n : Nat} (hL : ∀ p, L p = true → p.length ≤ n) {p : List Nat}
    (h : legalInCall L p = true) : p.length ≤ n := by
  simp only [legalInCall, Bool.or_eq_true, beq_iff_eq] at h
  rcases h with rfl | h
  · exact Nat.zero_le n
  · exact hL p h

theorem legalCalls_length {ls : List (List Nat → Bool)} {n : Nat} (hL : ∀ L ∈ ls, ∀ p, L p = true → p.length ≤ n)
    {p : List Nat} (h : legalCalls ls p = true) : p.length ≤ n + 1 := by
  unfold legalCalls at h
  split at h
  · split at h
    · cases h
    next L hl => exact Nat.succ_le_succ (legalInCall_length (hL L (List.mem_of_getElem? hl)) h)
  · cases h

theorem legalWbyte_length {p : List Nat} (h : legalWbyte p = true) : p.length ≤ 2 := by
  unfold legalWbyte at h
  split at h
  · exact Nat.succ_le_succ (legalInCall_length (fun _ => legalStraight_length) h)
  · exact Nat.succ_le_succ (legalInCall_length (fun _ => legalStraight_length) h)
  · cases h

theorem legalRbyte_length {p : List Nat} (h : legalRbyte p = true) : p.length ≤ 2 := by
  unfold legalRbyte at h
  split at h
  · exact Nat.le_succ 1
  · exact Nat.succ_le_succ (legalInCall_length (fun _ => legalStraight_length) h)
  · exact Nat.succ_le_succ (legalInCall_length (fun _ => legalStraight_length) h)
  · exact Nat.le_succ 1
  · cases h

theorem legalStatus_length {p : List Nat} (h : legalStatus p = true) : p.length ≤ 2 := by
  unfold legalStatus at h
  split at h
  · exact Nat.le_succ 1
  · exact Nat.succ_le_succ (legalInCall_length (fun _ => legalStraight_length) h)
  · cases h

theorem legalRead_length {p : List Nat} (h : legalRead p = true) : p.length ≤ 3 := by
  refine legalCalls_length (n := 2) (fun L hL p hp => ?_) h
  simp only [List.mem_cons, List.not_mem_nil, or_false] at hL
  rcases hL with rfl | rfl | rfl | rfl | rfl
  · exact (legalStraight_length hp).trans (by decide)
  · exact legalWbyte_length hp
  · exact legalRbyte_length hp
  · exact (legalStraight_length hp).trans (by decide)
  · exact (legalStraight_length hp).trans (by decide)

/-- The deepest position is a bit of a byte of a `TEMP.READ` of a `CTL.ITER` or a `CTL.BOOT`. -/
theorem legalPos_length {p : List Nat} (h : legalPos i p = true) : p.length ≤ 4 := by
  have calls4 : ∀ {p}, legalCalls [legalStraight 4] p = true → p.length ≤ 2 := fun h =>
    legalCalls_length (by simpa using fun _ => legalStraight_length) h
  have calls1 : ∀ {p}, legalCalls [legalStraight 1] p = true → p.length ≤ 2 := fun h =>
    legalCalls_length (by simpa using fun _ => legalStraight_length) h
  cases i
  case busWbyte v => exact (legalWbyte_length h).trans (by decide)
  case busRbyte a => exact (legalRbyte_length h).trans (by decide)
  case tempRead => exact (legalRead_length h).trans (by decide)
  case tempSmoothr => exact (calls4 h).trans (by decide)
  case tempPreloadr => exact (calls1 h).trans (by decide)
  case ctlStatus => exact (legalStatus_length h).trans (by decide)
  case ctlIter =>
    refine legalCalls_length (n := 3) (fun L hL p hp => ?_) h
    simp only [List.mem_cons, List.not_mem_nil, or_false] at hL
    rcases hL with rfl | rfl | rfl | rfl | rfl | rfl | rfl
    case inr.inl => exact legalRead_length hp
    case inr.inr.inl => exact (calls4 hp).trans (by decide)
    case inr.inr.inr.inr.inr.inl => exact (legalStatus_length hp).trans (by decide)
    all_goals exact (legalStraight_length hp).trans (by decide)
  case ctlBoot =>
    refine legalCalls_length (n := 3) (fun L hL p hp => ?_) h
    simp only [List.mem_cons, List.not_mem_nil, or_false] at hL
    rcases hL with rfl | rfl | rfl | rfl
    · exact (legalStraight_length hp).trans (by decide)
    · exact (legalStraight_length hp).trans (by decide)
    · exact legalRead_length hp
    · exact (calls1 hp).trans (by decide)
  case evtRxc | evtTxr | evtTick => cases h
  all_goals exact (legalStraight_length h).trans (by decide)

/-! ### Which agent moves (R69, R93) -/

theorem nextMove_of_fg (h : s.sched = [] ∨ s.sched.head? = some .fg) : nextMove s = fgMove (s.setSched s.sched.tail) := by
  unfold nextMove
  cases hs : s.sched with
  | nil => exact congrArg fgMove (congrArg s.setSched hs)
  | cons a rest =>
    obtain rfl : a = .fg := by simpa [hs] using h
    rfl

theorem nextMove_of_event {w : CmdWord} (h : s.sched.head? = some (.event w)) :
    nextMove s = eventMove w (s.setSched s.sched.tail) := by
  obtain ⟨rest, hs⟩ := List.head?_eq_some_iff.mp h
  rw [nextMove, hs]
  rfl

theorem nextMove_of_env {e : EnvStep} (h : s.sched.head? = some (.env e)) :
    nextMove s = .moved (envStep e (s.setSched s.sched.tail)) := by
  obtain ⟨rest, hs⟩ := List.head?_eq_some_iff.mp h
  rw [nextMove, hs]
  rfl

/-- Every step is the foreground's, an event's or the environment's. -/
theorem agent_cases (s : State) : (s.sched = [] ∨ s.sched.head? = some .fg) ∨ (∃ w, s.sched.head? = some (.event w)) ∨
    ∃ e, s.sched.head? = some (.env e) := by
  cases s.sched with
  | nil => exact .inl (.inl rfl)
  | cons a rest =>
    cases a with
    | fg => exact .inl (.inr rfl)
    | event w => exact .inr (.inl ⟨w, rfl⟩)
    | env e => exact .inr (.inr ⟨e, rfl⟩)

/-- A fault of strayMicroStep is the foreground's: events answer, and the environment moves. -/
theorem step_stray (h : step s = .fault .strayMicroStep) :
    ∃ i, fgCommand s = some i ∧ exec i (s.setSched s.sched.tail) = .fault .strayMicroStep := by
  unfold step at h
  rcases agent_cases s with hs | ⟨w, hs⟩ | ⟨e, hs⟩
  · rw [nextMove_of_fg hs] at h
    rcases fgMove_cases (s.setSched s.sched.tail) with ⟨i, hc, -, hm⟩ | ⟨-, hm | ⟨w, hm⟩⟩ <;> rw [hm] at h
    · exact ⟨i, hc, h⟩
    · cases h
    · cases h
  · rw [nextMove_of_event hs] at h
    rcases eventMove_cases w (s.setSched s.sched.tail) with ⟨i, -, hi, hm⟩ | hm <;> rw [hm] at h
    · obtain ⟨t, ht⟩ := exec_event_answers hi (s.setSched s.sched.tail)
      cases ht.symm.trans h
    · cases h
  · rw [nextMove_of_env hs] at h
    cases h

end Steps

/-! ### The obligations -/

/-- Settles O56: no micro-step at a position of its command is stray, and it goes on at another or the next command begins. -/
theorem positionStaysLegal : Obligations.PositionStaysLegal := by
  unfold Obligations.PositionStaysLegal
  intro s hs
  have hs' : PosLegal (s.setSched s.sched.tail) := hs.of_same rfl rfl
  refine ⟨?depth, fun h => ?stray, fun t h => ?kept⟩
  case depth =>
    unfold PosLegal at hs
    split at hs
    · exact legalPos_length hs
    · rw [hs]; decide
  case stray =>
    obtain ⟨i, hc, hx⟩ := step_stray h
    rcases exec_of_legalPos (fgCommand_isEvent hc) ((posLegal_of_command (s := s.setSched s.sched.tail) hc).mp hs') with
      ⟨t, ht, -⟩ | ⟨-, r, hr⟩
    · cases ht.symm.trans hx
    · cases hr.symm.trans hx
  case kept =>
    rcases step_next h with ⟨i, -, hc, -, hx⟩ | ⟨w, i, -, -, hi, hx⟩ | ⟨e, -, rfl⟩
    · exact hs'.exec hc hx
    · obtain ⟨hseq, hprog⟩ := exec_event_seq hi hx
      exact hs'.of_same hprog hseq
    · obtain ⟨hseq, hprog⟩ := envStep_seq_prog e (s.setSched s.sched.tail)
      exact hs'.of_same hprog hseq

/-- Settles O54: these operations are not among those that R127 refuses. -/
theorem operationsNeverFail : Obligations.OperationsNeverFail := by
  unfold Obligations.OperationsNeverFail
  intro i s he h1 h2 h3 h4 h5 hp
  rcases exec_of_legalPos he hp with h | ⟨⟨hi, -⟩, -⟩
  · exact h
  · rcases hi with ⟨b, hi⟩ | hi | hi | hi | hi
    · exact absurd hi (h1 b)
    all_goals contradiction

/-- Settles O55: with both enables 1 nothing is refused. -/
theorem transportOperationsNeverFailAfterInit : Obligations.TransportOperationsNeverFailAfterInit := by
  unfold Obligations.TransportOperationsNeverFailAfterInit
  intro i s hi htx hrx hp
  have he : i.isEvent = false := by rcases hi with ⟨b, rfl⟩ | rfl | rfl | rfl | rfl <;> rfl
  rcases exec_of_legalPos he hp with h | ⟨⟨-, hoff⟩, -⟩
  · exact h
  · simp [htx, hrx] at hoff

end Sys2Proof.Machine
end

