-- ==== Sys2Proof/Proofs/RingMoves.lean ====
section
/-! PROOFS. What one step of the machine can do to the two rings and to the operations on them, said once for each ring
(40_ring_fifo_transport.md R114, R116 to R118): the invariants of the rings are case analyses of it. -/

namespace Sys2Proof.Machine

/-! ### The transmit side as a `UART.SEND` and `EVT.TXR` see it -/

/-- The transmit side: the ring, the temporary `h1`, the bytes handed over, `TXIE`, and the send under way with its next
micro-step. -/
structure TxView where
  ring : Ring
  h1 : Byte
  wire : List Byte
  armed : Bool
  send : Option (Byte × Nat)

/-- The transmit side of s where the send under way is a. -/
def State.txViewAt (s : State) (a : Option (Byte × Nat)) : TxView := ⟨s.tx, s.tmp.h1, s.trace.txWire, s.ctl.txie, a⟩

/-- The transmit side of s. -/
def State.txView (s : State) : TxView := s.txViewAt (sendAt s)

/-- A send that has not begun, or none. -/
def FreshSend (a : Option (Byte × Nat)) : Prop := ∀ b k, a = some (b, k) → k = 1

theorem freshSend_none : FreshSend none := nofun

theorem freshSend_map (c : Option Byte) : FreshSend (c.map fun c => (c, 1)) := by
  rintro b k h
  obtain ⟨c, -, h⟩ := Option.map_eq_some_iff.mp h
  cases h
  rfl

/-- What a micro-step of the foreground other than `UART.INIT` can do to the transmit side: the lines of R114. -/
inductive SendMove (C : Nat) (v : TxView) : TxView → Prop
  | hold {b} : v.send = some (b, 2) → v.h1 = v.ring.tail → SendMove C v v
  | other {a} : v.send = none → FreshSend a → SendMove C v { v with send := a }
  | claim {b} : v.send = some (b, 1) → SendMove C v { v with h1 := maskedNext C v.ring.head, send := some (b, 2) }
  | room {b} : v.send = some (b, 2) → v.h1 ≠ v.ring.tail → SendMove C v { v with send := some (b, 3) }
  | store {b} : v.send = some (b, 3) →
      SendMove C v { v with ring := { v.ring with buf := v.ring.buf.write v.h1.toNat b }, send := some (b, 4) }
  | publish {b} : v.send = some (b, 4) →
      SendMove C v { v with ring := { v.ring with head := v.h1 }, send := some (b, 5) }
  | arm {b a} : v.send = some (b, 5) → FreshSend a → SendMove C v { v with armed := true, send := a }

/-- The micro-step moves the transmit side from v, where σ is the send under way at a position. After the operation's end another
may begin. -/
def MicroResult.Sends (C : Nat) (v : TxView) (σ : List Nat → List Byte → Option (Byte × Nat)) : MicroResult → Prop
  | .more p t => SendMove C v (t.txViewAt (σ p t.tmp.line))
  | .done t => ∀ a, FreshSend a → SendMove C v (t.txViewAt a)
  | .refuse _ | .stray => True

/-- σ is the send under way at a position of m. -/
def Micro.Sends (σ : List Nat → List Byte → Option (Byte × Nat)) (m : Micro) : Prop :=
  ∀ pos s, (m pos s).Sends s.cfg.txCap (s.txViewAt (σ pos s.tmp.line)) σ

/-- The send under way at a position of `UART.SEND b`. -/
def sendPos (b : Byte) : List Nat → List Byte → Option (Byte × Nat)
  | [k], _ => some (b, k)
  | _, _ => none

/-- The send under way at a position of `CTL.STATUS`. -/
def statusSendPos : List Nat → List Byte → Option (Byte × Nat)
  | [2], line => line.head?.map fun c => (c, 1)
  | [2, k], line => line.head?.map fun c => (c, k)
  | _, _ => none

/-- The send under way at a position of `CTL.ITER`. -/
def iterSendPos : List Nat → List Byte → Option (Byte × Nat)
  | 6 :: sub, line => statusSendPos sub line
  | _, _ => none

theorem uUartSend_sends (b : Byte) : (uUartSend b).Sends (sendPos b) := by
  intro pos s
  unfold uUartSend
  split
  · split
    · exact .claim rfl
    · trivial
  · split
    next hfull => exact .hold rfl hfull
    next hroom => exact .room rfl hroom
  · exact .store rfl
  · exact .publish rfl
  · exact fun a ha => .arm rfl ha
  · trivial

/-- A call moves the transmit side as its callee does, and then as what follows the callee's end. -/
theorem callAt_sends {σ σ' : List Nat → List Byte → Option (Byte × Nat)} {C : Nat} {v : TxView} {m : Micro} {n : Nat}
    {sub : List Nat} {s : State} {k : State → MicroResult} (hm : (m (if sub = [] then [1] else sub) s).Sends C v σ)
    (hmore : ∀ p t, m (if sub = [] then [1] else sub) s = .more p t → σ' (n :: p) t.tmp.line = σ p t.tmp.line)
    (hdone : ∀ t, (∀ a, FreshSend a → SendMove C v (t.txViewAt a)) → (k t).Sends C v σ') :
    (callAt n sub m s k).Sends C v σ' := by
  unfold callAt
  split
  next p t e =>
    rw [e] at hm
    rw [MicroResult.Sends, hmore p t e]
    exact hm
  next t e =>
    rw [e] at hm
    exact hdone t hm
  · trivial
  · trivial

/-- Where a `UART.SEND` goes on, it is at one of its own micro-steps, and it leaves the line. -/
theorem uUartSend_more {b : Byte} {pos p : List Nat} {s t : State} (h : uUartSend b pos s = .more p t) :
    (∃ k, p = [k]) ∧ t.tmp.line = s.tmp.line := by
  unfold uUartSend at h
  split at h
  · split at h
    · cases h; exact ⟨⟨_, rfl⟩, rfl⟩
    · cases h
  · split at h <;> cases h <;> exact ⟨⟨_, rfl⟩, rfl⟩
  · cases h; exact ⟨⟨_, rfl⟩, rfl⟩
  · cases h; exact ⟨⟨_, rfl⟩, rfl⟩
  · cases h
  · cases h

theorem uUartSend_of_not_singleton (b : Byte) {pos : List Nat} (h : ¬ ∃ k, pos = [k]) (s : State) :
    uUartSend b pos s = .stray := by
  unfold uUartSend
  split
  case h_6 => rfl
  all_goals exact absurd ⟨_, rfl⟩ h

/-- The send of the line's first byte, seen from `CTL.STATUS`. -/
theorem statusSendPos_call (c : Byte) (rest : List Byte) {sub : List Nat} {k : Nat}
    (hk : (if sub = [] then [1] else sub) = [k]) : statusSendPos (2 :: sub) (c :: rest) = some (c, k) := by
  split at hk
  next h =>
    subst h
    cases hk
    rfl
  · subst hk
    rfl

theorem uCtlStatus_sends : uCtlStatus.Sends statusSendPos := by
  intro pos s
  unfold uCtlStatus
  split
  · exact .other rfl (freshSend_map _)
  next sub =>
    split
    next hl =>
      have hnone : statusSendPos (2 :: sub) [] = none := by
        unfold statusSendPos
        split <;> rfl
      rw [hl, hnone]
      exact fun a ha => .other rfl ha
    next c rest hl =>
      by_cases hk : ∃ k, (if sub = [] then [1] else sub) = [k]
      · obtain ⟨k, hk⟩ := hk
        have hm := uUartSend_sends c (if sub = [] then [1] else sub) s
        rw [hl, statusSendPos_call c rest hk]
        refine callAt_sends (σ := sendPos c) (by rw [hk] at hm ⊢; exact hm) (fun p t e => ?_) fun t ht => ?_
        · obtain ⟨⟨k', rfl⟩, hline⟩ := uUartSend_more e
          rw [hline, hl]
          exact statusSendPos_call c rest (sub := [k']) rfl
        · dsimp only
          split
          · exact ht
          · exact ht _ (freshSend_map _)
      · rw [callAt, uUartSend_of_not_singleton c hk s]
        trivial
  · trivial

/-- The parts of the state that the transmit side is made of, besides what no foreground operation writes. -/
def IsTxPart (p : Part) : Prop := p = .sending ∨ p = .txHead ∨ p = .txie ∨ p = .txTail

/-- What an operation that writes no part of the transmit side leaves of it. -/
theorem txViewAt_of_frame {W : Part → Prop} (hW : ∀ p, IsTxPart p → ¬ W p) {s t : State} (hf : Frame W s t)
    (hw : t.trace.txWire = s.trace.txWire) (a : Option (Byte × Nat)) : t.txViewAt a = s.txViewAt a := by
  have hs : t.tx.buf = s.tx.buf ∧ t.tmp.h1 = s.tmp.h1 ∧ t.tmp.line = s.tmp.line := by
    simpa [Part.Same] using hf .sending (hW _ (.inl rfl))
  have hh : t.tx.head = s.tx.head := hf .txHead (hW _ (.inr (.inl rfl)))
  have hi : t.ctl.txie = s.ctl.txie := hf .txie (hW _ (.inr (.inr (.inl rfl))))
  have ht : t.tx.tail = s.tx.tail := hf .txTail (hW _ (.inr (.inr (.inr rfl))))
  have hr : t.tx = ⟨s.tx.buf, s.tx.head, s.tx.tail⟩ := by rw [← hs.1, ← hh, ← ht]
  rw [State.txViewAt, State.txViewAt, hr, hs.2.1, hw, hi]

/-- An operation that writes no part of the transmit side, in no send. -/
theorem sends_of_frame {m : Micro} (hf : m.Keeps (Frame fun p => ¬ IsTxPart p)) (hk : m.Keeps FgKeeps) :
    m.Sends fun _ _ => none := by
  intro pos s
  have hf := hf pos s
  have hk := hk pos s
  have same : ∀ t, Frame (fun p => ¬ IsTxPart p) s t → FgKeeps s t → ∀ a, t.txViewAt a = s.txViewAt a :=
    fun t hf hk => txViewAt_of_frame (fun _ hp h => h hp) hf hk.txWire
  cases e : m pos s with
  | more p t =>
    rw [e] at hf hk
    rw [MicroResult.Sends, same t hf hk]
    exact .other rfl freshSend_none
  | done t =>
    rw [e] at hf hk
    intro a ha
    rw [same t hf hk]
    exact .other rfl ha
  | refuse r => trivial
  | stray => trivial

/-- The calls of `CTL.ITER` but the one of `CTL.STATUS` are in no send. -/
theorem uCtlIter_call_sends {n : Nat} (hn : n ≠ 5) {m : Micro}
    (hm : [uCtlSetpt, uTempRead, uTempSmoothr, uCtlOvr, uCtlHyst, uCtlStatus, uCtlSleep][n]? = some m) :
    m.Sends fun _ _ => none := by
  have part : ∀ p : Part, p ∉ [Part.sending, .txHead, .txie, .txTail] → ¬ IsTxPart p := fun p hp h => hp (by simpa [IsTxPart] using h)
  match n with
  | 0 => cases hm; exact sends_of_frame (uCtlSetpt_frame (part _ (by simp))) uCtlSetpt_keeps
  | 1 => cases hm; exact sends_of_frame (uTempRead_frame (part _ (by simp)) (part _ (by simp)) (part _ (by simp))) uTempRead_keeps
  | 2 => cases hm; exact sends_of_frame (uTempSmoothr_frame (part _ (by simp)) (part _ (by simp)) (part _ (by simp))) uTempSmoothr_keeps
  | 3 => cases hm; exact sends_of_frame (uCtlOvr_frame (part _ (by simp))) uCtlOvr_keeps
  | 4 => cases hm; exact sends_of_frame (uCtlHyst_frame (part _ (by simp))) uCtlHyst_keeps
  | 6 => cases hm; exact sends_of_frame (once_keeps Frame.refl) uCtlSleep_keeps

theorem uCtlIter_sends : uCtlIter.Sends iterSendPos := by
  intro pos s
  unfold uCtlIter calls
  split
  next n sub =>
    split
    · trivial
    next m hm =>
      have next : ∀ v, (∀ t, (∀ a, FreshSend a → SendMove s.cfg.txCap v (t.txViewAt a)) →
          MicroResult.Sends s.cfg.txCap v iterSendPos (if n + 1 = 7 then .done t else .more [n + 2] t)) := by
        intro v t ht
        split
        · exact ht
        · have hnone : iterSendPos [n + 2] t.tmp.line = none := by
            unfold iterSendPos
            split
            next h => cases h; rfl
            · rfl
          rw [MicroResult.Sends, hnone]
          exact ht _ freshSend_none
      by_cases hn : n = 5
      · subst hn
        cases hm
        have hsub : statusSendPos (if sub = [] then [1] else sub) s.tmp.line = iterSendPos (6 :: sub) s.tmp.line := by
          split
          next h => subst h; rfl
          · rfl
        rw [← hsub]
        exact callAt_sends (uCtlStatus_sends _ s) (fun _ _ _ => rfl) (next _)
      · have hnone : ∀ p line, iterSendPos ((n + 1) :: p) line = none := by
          intro p line
          unfold iterSendPos
          split
          next h => cases h; exact absurd rfl hn
          · rfl
        rw [hnone]
        exact callAt_sends (uCtlIter_call_sends hn hm _ s) (fun p t _ => hnone p t.tmp.line) (next _)
  · trivial

/-- The send under way at a position of an operation. -/
def sendPosOf : Instr → List Nat → List Byte → Option (Byte × Nat)
  | .uartSend b => sendPos b
  | .ctlStatus => statusSendPos
  | .ctlIter => iterSendPos
  | _ => fun _ _ => none

theorem microOf_sends {i : Instr} (hi : sendsBytes i = true) {m : Micro} (hm : microOf i = some m) : m.Sends (sendPosOf i) := by
  cases i <;> simp only [sendsBytes, Bool.false_eq_true] at hi
  case uartSend b => cases hm; exact uUartSend_sends b
  case ctlStatus => cases hm; exact uCtlStatus_sends
  case ctlIter => cases hm; exact uCtlIter_sends

section Steps

variable {i : Instr} {s t : State}

theorem sendAt_of_command (hc : fgCommand s = some i) : sendAt s = sendPosOf i s.seq.ustep s.tmp.line := by
  unfold sendAt
  rw [hc]
  cases i
  case uartSend b =>
    simp only [sendPosOf]
    unfold sendPos
    split <;> simp_all
  case ctlStatus =>
    simp only [sendPosOf]
    unfold statusSendPos
    split <;> simp_all
  case ctlIter =>
    simp only [sendPosOf]
    unfold iterSendPos statusSendPos
    split
    case h_6 =>
      split
      · split <;> simp_all
      · rfl
    all_goals simp_all
  all_goals rfl

theorem freshSend_of_start (h : s.seq.ustep = [1]) : FreshSend (sendAt s) := by
  intro b k hs
  unfold sendAt at hs
  rw [h] at hs
  split at hs <;> simp_all

/-- A foreground step goes on in the same command, or the next command begins. -/
theorem exec_seq (he : i.isEvent = false) (h : exec i s = .next t) : t.seq.pc = s.seq.pc ∨ t.seq.ustep = [1] := by
  cases hm : microOf i with
  | some m =>
    have hk := microOf_keeps hm s.seq.ustep s
    rw [exec_eq_runFg hm] at h
    rcases runFg_next h with ⟨p, u, e, rfl⟩ | ⟨u, e, rfl⟩
    · rw [e] at hk
      exact .inl (by rw [State.goesTo_seq, hk.seq])
    · exact .inr rfl
  | none =>
    cases i <;> simp only [microOf, Instr.isEvent, reduceCtorEq] at hm he
    case seqJmp a =>
      simp only [exec, execSeqJmp] at h
      split at h
      · cases h; exact .inr rfl
      · cases h

theorem sendPosOf_of_not_sends (hi : sendsBytes i = false) (p : List Nat) (line : List Byte) : sendPosOf i p line = none := by
  cases i <;> first | rfl | cases hi

/-- The moves of the foreground on the transmit side, but for `UART.INIT`'s. -/
theorem exec_sendMove (hc : fgCommand s = some i) (ha : atInit i s = false) (h : exec i s = .next t) :
    SendMove s.cfg.txCap s.txView t.txView := by
  have he := fgCommand_isEvent hc
  have hs := sendAt_of_command hc
  have hgo : t.seq.pc = s.seq.pc → sendAt t = sendPosOf i t.seq.ustep t.tmp.line := fun hpc =>
    sendAt_of_command ((fgCommand_congr (exec_fixed h).2.1 hpc).trans hc)
  cases hi : sendsBytes i with
  | false =>
    have hx : i ≠ .evtTxr := by rintro rfl; cases he
    have hparts : ∀ p, IsTxPart p → ¬ writes i s p := by
      rintro p (rfl | rfl | rfl | rfl) <;> simp [writes, hi, ha, hx]
    have hview := txViewAt_of_frame hparts (exec_frame h) (exec_txWire h hx).1 (sendAt t)
    have hfresh : FreshSend (sendAt t) := by
      rcases exec_seq he h with hpc | hstart
      · rw [hgo hpc, sendPosOf_of_not_sends hi]
        exact freshSend_none
      · exact freshSend_of_start hstart
    rw [State.txView, State.txView, hview]
    exact .other (hs.trans (sendPosOf_of_not_sends hi _ _)) hfresh
  | true =>
    obtain ⟨m, hm⟩ : ∃ m, microOf i = some m := by
      cases i <;> first | exact ⟨_, rfl⟩ | cases hi
    have hsend := microOf_sends hi hm s.seq.ustep s
    rw [exec_eq_runFg hm] at h
    rw [State.txView, hs]
    rcases runFg_next h with ⟨p, u, e, rfl⟩ | ⟨u, e, rfl⟩
    · have hk := microOf_keeps hm s.seq.ustep s
      rw [e] at hsend hk
      rw [State.txView, hgo (by rw [State.goesTo_seq, hk.seq])]
      exact hsend
    · rw [e] at hsend
      exact hsend _ (freshSend_of_start rfl)

/-- The micro-step of `UART.INIT`, alone or as u1 of `CTL.BOOT`. -/
theorem exec_of_atInit (ha : atInit i s = true) (h : exec i s = .next t) :
    ∃ q, t = (initTransport s).setSeq q ∧ (q.pc = s.seq.pc ∧ i = .ctlBoot ∨ q.ustep = [1]) := by
  cases i <;> simp only [atInit, Bool.false_eq_true] at ha
  case uartInit =>
    rcases runFg_next (m := uUartInit) h with ⟨p, u, e, rfl⟩ | ⟨u, e, rfl⟩
    · cases once_next e nofun
    · cases once_next e nofun
      exact ⟨_, rfl, .inr rfl⟩
  case ctlBoot =>
    obtain ⟨sub, hp⟩ := List.head?_eq_some_iff.mp (beq_iff_eq.mp ha)
    have hcall : uCtlBoot s.seq.ustep s = callAt 1 sub uUartInit s fun s' => .more [2] s' := by rw [hp]; rfl
    have hinit : uUartInit (if sub = [] then [1] else sub) s = .done (initTransport s) ∨
        uUartInit (if sub = [] then [1] else sub) s = .stray := by
      unfold uUartInit once
      split
      · exact .inl rfl
      · exact .inr rfl
    rw [exec_eq_runFg (m := uCtlBoot) rfl, runFg, hcall, callAt] at h
    rcases hinit with e | e <;> rw [e] at h <;> cases h
    exact ⟨_, rfl, .inl ⟨rfl, rfl⟩⟩

/-- After `UART.INIT` no send has begun. -/
theorem freshSend_of_atInit (hc : fgCommand s = some i) (ha : atInit i s = true) (h : exec i s = .next t) :
    FreshSend (sendAt t) := by
  have hprog := (exec_fixed h).2.1
  obtain ⟨q, rfl, ⟨hpc, rfl⟩ | hq⟩ := exec_of_atInit ha h
  · rw [sendAt_of_command ((fgCommand_congr hprog hpc).trans hc)]
    exact freshSend_none
  · exact freshSend_of_start hq

theorem sendAt_congr (hprog : t.prog = s.prog) (hseq : t.seq = s.seq) (hline : t.tmp.line = s.tmp.line) :
    sendAt t = sendAt s := by
  unfold sendAt
  rw [fgCommand_congr hprog (congrArg Sequencer.pc hseq), hseq, hline]

end Steps

/-! ### Every step of every agent -/

/-- A transmit side that `EVT.TXR` takes the next byte from. -/
def TxView.handOver (C : Nat) (v : TxView) : TxView :=
  { v with ring := v.ring.pop C, wire := v.wire ++ [v.ring.buf.read .txBuf (maskedNext C v.ring.tail).toNat] }

/-- A transmit side after `UART.INIT`, with a the send about to begin. -/
def TxView.init (v : TxView) (a : Option (Byte × Nat)) : TxView :=
  { v with ring := { v.ring with head := 0#8, tail := 0#8 }, armed := false, send := a }

/-- What a step can do to the transmit side. -/
inductive TxStep (s t : State) : Prop
  | still : fgNext s = none → t.txView = s.txView → TxStep s t
  | handOver : fgNext s = none → s.tx.head ≠ s.tx.tail → t.txView = s.txView.handOver s.cfg.txCap → TxStep s t
  | disarm : fgNext s = none → s.tx.head = s.tx.tail → t.txView = { s.txView with armed := false } → TxStep s t
  | fg {i} : fgNext s = some i → fgNext s = fgCommand s → atInit i s = false → SendMove s.cfg.txCap s.txView t.txView →
      TxStep s t
  | init {i a} : fgNext s = some i → atInit i s = true → FreshSend a → t.txView = s.txView.init a → TxStep s t

section Steps

variable {i : Instr} {s t : State}

theorem fgNext_of_fg (h : s.sched = [] ∨ s.sched.head? = some .fg) : fgNext s = fgCommand s := by
  unfold fgNext
  rcases h with h | h
  · rw [h]
  · obtain ⟨rest, hs⟩ := List.head?_eq_some_iff.mp h
    rw [hs]

theorem fgNext_of_event {w : CmdWord} (h : s.sched.head? = some (.event w)) : fgNext s = none := by
  obtain ⟨rest, hs⟩ := List.head?_eq_some_iff.mp h
  rw [fgNext, hs]

theorem fgNext_of_env {e : EnvStep} (h : s.sched.head? = some (.env e)) : fgNext s = none := by
  obtain ⟨rest, hs⟩ := List.head?_eq_some_iff.mp h
  rw [fgNext, hs]

/-- What the environment leaves alone. -/
theorem envStep_frame (e : EnvStep) (s : State) :
    envStep e s = { s with ser := (envStep e s).ser, env := (envStep e s).env } := by
  cases e
  case rxByte d =>
    unfold envStep
    dsimp only
    split <;> rfl
  all_goals rfl

theorem step_cfg_prog (h : step s = .next t) : t.cfg = s.cfg ∧ t.prog = s.prog := by
  rcases step_next h with ⟨i, -, -, -, hx⟩ | ⟨w, i, -, -, -, hx⟩ | ⟨e, -, rfl⟩
  · obtain ⟨hcfg, hprog, -⟩ := exec_fixed hx
    exact ⟨hcfg, hprog⟩
  · obtain ⟨hcfg, hprog, -⟩ := exec_fixed hx
    exact ⟨hcfg, hprog⟩
  · rw [envStep_frame]
    exact ⟨rfl, rfl⟩

theorem step_tx (h : step s = .next t) : TxStep s t := by
  rcases step_next h with ⟨i, hs, hc, -, hx⟩ | ⟨w, i, hs, -, hi, hx⟩ | ⟨e, hs, rfl⟩
  · have hnext := fgNext_of_fg hs
    cases ha : atInit i s with
    | false => exact .fg (hnext.trans hc) hnext ha (exec_sendMove (s := s.setSched s.sched.tail) hc ha hx)
    | true =>
      have hfresh := freshSend_of_atInit (s := s.setSched s.sched.tail) hc ha hx
      refine .init (hnext.trans hc) ha hfresh ?_
      obtain ⟨q, rfl, -⟩ := exec_of_atInit (s := s.setSched s.sched.tail) ha hx
      rfl
  · have hnext := fgNext_of_event hs
    have hat : sendAt t = sendAt s := by
      rw [exec_event_frame hi hx]
      rfl
    rcases exec_event_next hi hx with rfl | ⟨d, -, rfl⟩ | ⟨-, rfl⟩ | ⟨-, rfl⟩
    · exact .still hnext rfl
    · refine .still hnext ?_
      rw [State.txView, hat, rxcHandler_frame]
      rfl
    · by_cases hempty : s.tx.head = s.tx.tail
      · refine .disarm hnext hempty ?_
        rw [State.txView, hat, txrHandler_of_empty (s := s.setSched s.sched.tail) hempty]
        rfl
      · refine .handOver hnext hempty ?_
        rw [State.txView, hat, txrHandler_of_nonempty (s := s.setSched s.sched.tail) hempty]
        rfl
    · refine .still hnext ?_
      rw [State.txView, hat, tickHandler_frame]
      rfl
  · refine .still (fgNext_of_env hs) ?_
    rw [envStep_frame]
    rfl

end Steps

/-! ### The receive side -/

/-- The next micro-step of the `UART.RECV` the foreground is in (R116). -/
def recvAt (s : State) : Option Nat :=
  match fgCommand s, s.seq.ustep with
  | some .uartRecv, [k] => some k
  | _, _ => none

/-- The receive side: the ring, the temporary `t1`, and the next micro-step of the receive under way. -/
structure RxView where
  ring : Ring
  t1 : Byte
  recv : Option Nat

/-- The receive side of s. -/
def State.rxView (s : State) : RxView := ⟨s.rx, s.tmp.t1, recvAt s⟩

/-- A receive that has not begun, or none. -/
def FreshRecv (a : Option Nat) : Prop := ∀ k, a = some k → k = 1

/-- What a micro-step of `UART.RECV` can do to the receive side: the lines of R116. -/
inductive RecvMove (C : Nat) (v : RxView) : RxView → Prop
  | hold : v.recv = some 1 → v.ring.head = v.ring.tail → RecvMove C v v
  | nonEmpty : v.recv = some 1 → v.ring.head ≠ v.ring.tail → RecvMove C v { v with recv := some 2 }
  | slot : v.recv = some 2 → RecvMove C v { v with t1 := maskedNext C v.ring.tail, recv := some 3 }
  | free : v.recv = some 3 → RecvMove C v { v with ring := { v.ring with tail := v.t1 }, recv := some 4 }
  | answer {a} : v.recv = some 4 → FreshRecv a → RecvMove C v { v with recv := a }

/-- What a step can do to the receive side. -/
inductive RxStep (s t : State) : Prop
  | still : fgNext s = none → t.rxView = s.rxView → RxStep s t
  | arrive {d} : fgNext s = none → s.sched.head? = some (.event (encode (.evtRxc d))) → eventEnabled (.evtRxc d) s = true →
      t.rxView = { s.rxView with ring := s.rx.push s.cfg.rxCap d } → RxStep s t
  | recv : fgNext s = some .uartRecv → RecvMove s.cfg.rxCap s.rxView t.rxView → RxStep s t
  | other {i a} : fgNext s = some i → i ≠ .uartRecv → atInit i s = false → recvAt s = none → FreshRecv a →
      t.rxView = { s.rxView with recv := a } → RxStep s t
  | init {i a} : fgNext s = some i → atInit i s = true → FreshRecv a →
      t.rxView = ⟨{ s.rx with head := 0#8, tail := 0#8 }, s.tmp.t1, a⟩ → RxStep s t

section Steps

variable {i : Instr} {s t : State}

theorem recvAt_eq_some_iff {k : Nat} : recvAt s = some k ↔ fgCommand s = some .uartRecv ∧ s.seq.ustep = [k] := by
  unfold recvAt
  constructor
  · intro h
    split at h
    next hc hp => cases h; exact ⟨hc, hp⟩
    · cases h
  · rintro ⟨hc, hp⟩
    rw [hc, hp]

theorem recvAt_congr (hprog : t.prog = s.prog) (hseq : t.seq = s.seq) : recvAt t = recvAt s := by
  unfold recvAt
  rw [fgCommand_congr hprog (congrArg Sequencer.pc hseq), hseq]

theorem freshRecv_of_start (h : s.seq.ustep = [1]) : FreshRecv (recvAt s) := by
  intro k hk
  obtain ⟨-, hp⟩ := recvAt_eq_some_iff.mp hk
  rw [h] at hp
  cases hp
  rfl

/-- A command other than `UART.RECV` leaves no receive under way. -/
theorem freshRecv_of_other (hc : fgCommand s = some i) (hi : i ≠ .uartRecv) (h : exec i s = .next t) :
    FreshRecv (recvAt t) := by
  rcases exec_seq (fgCommand_isEvent hc) h with hpc | hstart
  · intro k hk
    obtain ⟨hc', -⟩ := recvAt_eq_some_iff.mp hk
    rw [fgCommand_congr (exec_fixed h).2.1 hpc, hc] at hc'
    cases hc'
    exact absurd rfl hi
  · exact freshRecv_of_start hstart

theorem recvAt_of_other (hc : fgCommand s = some i) (hi : i ≠ .uartRecv) : recvAt s = none := by
  cases h : recvAt s with
  | none => rfl
  | some k =>
    rw [(recvAt_eq_some_iff.mp h).1] at hc
    cases hc
    exact absurd rfl hi

theorem uUartRecv_pos {p : List Nat} (h : uUartRecv p s ≠ .stray) : p = [1] ∨ p = [2] ∨ p = [3] ∨ p = [4] := by
  unfold uUartRecv at h
  split at h <;> simp_all

theorem exec_recvMove (hc : fgCommand s = some .uartRecv) (h : exec .uartRecv s = .next t) :
    RecvMove s.cfg.rxCap s.rxView t.rxView := by
  have hat : ∀ k, s.seq.ustep = [k] → recvAt s = some k := fun k hp => recvAt_eq_some_iff.mpr ⟨hc, hp⟩
  have hgo : ∀ {u : State} {k : Nat}, u.prog = s.prog → u.seq.pc = s.seq.pc →
      (u.goesTo [k]).rxView = ⟨u.rx, u.tmp.t1, some k⟩ := fun {u k} hprog hpc => by
    rw [State.rxView, recvAt_eq_some_iff.mpr ⟨(fgCommand_congr (t := u.goesTo [k]) hprog hpc).trans hc, rfl⟩]
    rfl
  have hpos : uUartRecv s.seq.ustep s ≠ .stray := fun e => by
    rw [exec_eq_runFg (m := uUartRecv) rfl, runFg_of_stray e] at h
    cases h
  rcases uUartRecv_pos hpos with hp | hp | hp | hp
  · cases hrx : s.ctl.rxen with
    | false => cases (exec_of_refuse (r := .beforeInit) rfl hp (by simp [uUartRecv, hrx])).symm.trans h
    | true =>
      by_cases hempty : s.rx.head = s.rx.tail
      · cases (exec_uartRecv_u1_of_empty hp hrx hempty).symm.trans h
        exact .hold (hat 1 hp) hempty
      · cases (exec_uartRecv_u1_of_nonempty hp hrx hempty).symm.trans h
        rw [hgo rfl rfl]
        exact .nonEmpty (hat 1 hp) hempty
  · cases (exec_uartRecv_u2 hp).symm.trans h
    rw [hgo]
    · exact .slot (hat 2 hp)
    · rfl
    · rfl
  · cases (exec_uartRecv_u3 hp).symm.trans h
    rw [hgo]
    · exact .free (hat 3 hp)
    · rfl
    · rfl
  · cases (exec_uartRecv_u4 hp).symm.trans h
    exact .answer (hat 4 hp) (freshRecv_of_start rfl)

theorem step_rx (h : step s = .next t) : RxStep s t := by
  rcases step_next h with ⟨i, hs, hc, -, hx⟩ | ⟨w, i, hs, hd, hi, hx⟩ | ⟨e, hs, rfl⟩
  · have hnext := (fgNext_of_fg hs).trans hc
    have hc : fgCommand (s.setSched s.sched.tail) = some i := hc
    by_cases hr : i = .uartRecv
    · subst hr
      exact .recv hnext (exec_recvMove (s := s.setSched s.sched.tail) hc hx)
    · have hfresh := freshRecv_of_other hc hr hx
      have ht1 : t.tmp.t1 = s.tmp.t1 := exec_frame hx .t1 hr
      cases ha : atInit i s with
      | false =>
        have he := fgCommand_isEvent hc
        have hrx : t.rx = s.rx := exec_rx (s := s.setSched s.sched.tail) hx (by rintro d rfl; cases he) ha hr
        refine .other hnext hr ha (recvAt_of_other hc hr) hfresh ?_
        rw [State.rxView, hrx, ht1]
        rfl
      | true =>
        refine .init hnext ha hfresh ?_
        obtain ⟨q, rfl, -⟩ := exec_of_atInit (s := s.setSched s.sched.tail) ha hx
        rfl
  · have hnext := fgNext_of_event hs
    obtain ⟨hseq, hprog⟩ := exec_event_seq hi hx
    have hat : recvAt t = recvAt s := recvAt_congr hprog hseq
    by_cases hr : ∃ d, i = .evtRxc d
    · obtain ⟨d, rfl⟩ := hr
      cases he : eventEnabled (.evtRxc d) s with
      | false =>
        cases (exec_event_of_disabled (s := s.setSched s.sched.tail) hi he).symm.trans hx
        exact .still hnext rfl
      | true =>
        obtain rfl := eq_received (s := s.setSched s.sched.tail) he hx
        refine .arrive hnext (by rw [encode_of_decode hd, hs]) he ?_
        rw [State.rxView, hat]
        rfl
    · refine .still hnext ?_
      rw [State.rxView, hat, exec_event_rx hi (fun d hd => hr ⟨d, hd⟩) hx, exec_event_frame hi hx]
      rfl
  · refine .still (fgNext_of_env hs) ?_
    rw [envStep_frame]
    rfl

end Steps

end Sys2Proof.Machine
end

