-- ==== Sys2Proof/Proofs/RingInvariants.lean ====
section
/-! PROOFS. The invariants of the rings (10_state.md R23, 20_memory.md R76, 40_ring_fifo_transport.md R121, R124, R125), each by cases
on what a step can do to its ring. -/

namespace Sys2Proof.Machine

/-! ### Queues -/

section Queues

variable {C : Nat} {r : Ring}

/-- A store into the free slot after the head changes no queued byte. -/
theorem Ring.queue_store (id : MemId) (hC : IsCapacity C) (hr : r.InRange C) (hroom : maskedNext C r.head ≠ r.tail) (v : Byte) :
    Ring.queue id C { r with buf := r.buf.write (maskedNext C r.head).toNat v } = r.queue id C := by
  have hcount := ringCount_push hC hr hroom v
  have hlt : ringCount C r.head r.tail + 1 < C := hcount ▸ ringCount_lt hC _ _
  have hnew : slotAfter C r.tail (ringCount C r.head r.tail + 1) = maskedNext C r.head :=
    congrArg (maskedNext C) (slotAfter_ringCount hC hr)
  refine List.map_congr_left fun k hk => Memory.read_write_other _ _ _ fun e => ?_
  have hk : k < ringCount C r.head r.tail := List.mem_range.mp hk
  have := hC.slotAfter_inj hr.tail (by omega) hlt ((BitVec.eq_of_toNat_eq e).trans hnew.symm)
  omega

/-- A move of the head onto a free slot appends the byte of that slot. -/
theorem Ring.queue_publish (id : MemId) (hC : IsCapacity C) (hr : r.InRange C) (hroom : maskedNext C r.head ≠ r.tail) :
    Ring.queue id C { r with head := maskedNext C r.head } = r.queue id C ++ [r.buf.read id (maskedNext C r.head).toNat] := by
  have hcount : ringCount C (maskedNext C r.head) r.tail = ringCount C r.head r.tail + 1 := ringCount_push hC hr hroom 0#8
  have hnew : slotAfter C r.tail (ringCount C r.head r.tail + 1) = maskedNext C r.head :=
    congrArg (maskedNext C) (slotAfter_ringCount hC hr)
  rw [Ring.queue, hcount, List.range_succ, List.map_append, Ring.queue, List.map_singleton, hnew]

/-- The ring after `UART.INIT` is in range, and empty. -/
theorem Ring.inRange_init (hC : IsCapacity C) : Ring.InRange C { r with head := 0#8, tail := 0#8 } := by
  have := hC.bounds
  exact ⟨by simp; omega, by simp; omega⟩

/-- Every slot of the queue was written. -/
def Ring.QueueWritten (C : Nat) (r : Ring) : Prop :=
  ∀ k, k < ringCount C r.head r.tail → r.buf.lookup (slotAfter C r.tail (k + 1)).toNat ≠ none

theorem Ring.queueWritten_of_empty (hC : IsCapacity C) (hr : r.InRange C) (h : r.head = r.tail) : r.QueueWritten C := by
  intro k hk
  rw [(ringCount_eq_zero_iff hC hr).mpr h] at hk
  cases hk

theorem Ring.QueueWritten.write (h : r.QueueWritten C) (a : Nat) (v : Byte) :
    Ring.QueueWritten C { r with buf := r.buf.write a v } :=
  fun k hk => Memory.lookup_write_ne_none _ _ _ (h k hk)

theorem Ring.QueueWritten.publish (hC : IsCapacity C) (hr : r.InRange C) (hroom : maskedNext C r.head ≠ r.tail)
    (h : r.QueueWritten C) (hnew : r.buf.lookup (maskedNext C r.head).toNat ≠ none) :
    Ring.QueueWritten C { r with head := maskedNext C r.head } := by
  intro k hk
  have hcount : ringCount C (maskedNext C r.head) r.tail = ringCount C r.head r.tail + 1 := ringCount_push hC hr hroom 0#8
  rw [hcount] at hk
  rcases Nat.lt_succ_iff_lt_or_eq.mp hk with hk | rfl
  · exact h k hk
  · show r.buf.lookup (maskedNext C (slotAfter C r.tail _)).toNat ≠ none
    rwa [slotAfter_ringCount hC hr]

theorem Ring.QueueWritten.pop (hC : IsCapacity C) (hr : r.InRange C) (hne : r.head ≠ r.tail) (h : r.QueueWritten C) :
    (r.pop C).QueueWritten C := by
  intro k hk
  have := h (k + 1) (by rw [ringCount_pop hC hr hne]; omega)
  rwa [slotAfter_succ] at this

/-- The slot the consumer reads next. -/
theorem Ring.QueueWritten.first (hC : IsCapacity C) (hr : r.InRange C) (hne : r.head ≠ r.tail) (h : r.QueueWritten C) :
    r.buf.lookup (maskedNext C r.tail).toNat ≠ none :=
  h 0 (by rw [ringCount_pop hC hr hne]; omega)

/-- Every slot of the ring was written. -/
def Ring.AllWritten (C : Nat) (r : Ring) : Prop := ∀ a, a < C → r.buf.lookup a ≠ none

theorem Ring.AllWritten.write (h : r.AllWritten C) (a : Nat) (v : Byte) :
    Ring.AllWritten C { r with buf := r.buf.write a v } :=
  fun b hb => Memory.lookup_write_ne_none _ _ _ (h b hb)

theorem Ring.AllWritten.queueWritten (hC : IsCapacity C) (ht : r.tail.toNat < C) (h : r.AllWritten C) : r.QueueWritten C :=
  fun k _ => h _ (by rw [slotAfter_toNat hC ht]; exact Nat.mod_lt _ (by omega))

/-- A push on a full ring writes the one slot that was not queued. -/
theorem Ring.QueueWritten.push_full (hC : IsCapacity C) (hr : r.InRange C) (hfull : maskedNext C r.head = r.tail)
    (h : r.QueueWritten C) (v : Byte) : (r.push C v).AllWritten C := by
  intro a ha
  have hcount := (ringCount_eq_pred_iff hC hr).mpr hfull
  obtain ⟨k, hk, hslot⟩ : ∃ k, k < C ∧ (slotAfter C r.tail k).toNat = a := by
    refine ⟨(a + (C - r.tail.toNat)) % C, Nat.mod_lt _ (by omega), ?_⟩
    have ht := hr.tail
    rw [slotAfter_toNat hC ht, Nat.add_mod_mod, show r.tail.toNat + (a + (C - r.tail.toNat)) = a + C by omega,
      Nat.add_mod_right, Nat.mod_eq_of_lt ha]
  rw [← hslot]
  match k with
  | 0 =>
    rw [Ring.push_buf, hfull, slotAfter, Memory.lookup_write_self]
    exact Option.some_ne_none v
  | k + 1 => exact Memory.lookup_write_ne_none _ _ _ (h k (by omega))

end Queues

/-! ### Data in range (R23, R31, R60) -/

section Range

variable {C : Nat}

/-- The transmit side's indices and slots are inside the ring. -/
structure TxView.InRange (C : Nat) (v : TxView) : Prop where
  ring : v.ring.InRange C
  h1 : v.h1.toNat < C
  buf : v.ring.buf.wf C = true

/-- The receive side's indices and slots are inside the ring. -/
structure RxView.InRange (C : Nat) (v : RxView) : Prop where
  ring : v.ring.InRange C
  t1 : v.t1.toNat < C
  buf : v.ring.buf.wf C = true

theorem SendMove.inRange (hC : IsCapacity C) {v w : TxView} (h : SendMove C v w) (hv : v.InRange C) : w.InRange C := by
  obtain ⟨⟨hhead, htail⟩, hh1, hbuf⟩ := hv
  cases h with
  | hold | other | room | arm => exact ⟨⟨hhead, htail⟩, hh1, hbuf⟩
  | claim => exact ⟨⟨hhead, htail⟩, maskedNext_lt hC _, hbuf⟩
  | store => exact ⟨⟨hhead, htail⟩, hh1, Memory.wf_write _ _ _ _ hbuf hh1⟩
  | publish => exact ⟨⟨hh1, htail⟩, hh1, hbuf⟩

theorem RecvMove.inRange (hC : IsCapacity C) {v w : RxView} (h : RecvMove C v w) (hv : v.InRange C) : w.InRange C := by
  obtain ⟨⟨hhead, htail⟩, ht1, hbuf⟩ := hv
  cases h with
  | hold | nonEmpty | answer => exact ⟨⟨hhead, htail⟩, ht1, hbuf⟩
  | slot => exact ⟨⟨hhead, htail⟩, maskedNext_lt hC _, hbuf⟩
  | free => exact ⟨⟨hhead, ht1⟩, ht1, hbuf⟩

variable {s t : State}

theorem DataInv.txView_inRange (h : DataInv s) : s.txView.InRange s.cfg.txCap := ⟨h.tx_inRange, h.h1, h.txBuf⟩

theorem DataInv.rxView_inRange (h : DataInv s) : s.rxView.InRange s.cfg.rxCap := ⟨h.rx_inRange, h.t1, h.rxBuf⟩

theorem TxStep.inRange (h : TxStep s t) (hs : s.txView.InRange s.cfg.txCap) : t.txView.InRange s.cfg.txCap := by
  have hC := txCap_isCapacity s.cfg
  cases h with
  | still _ e => rw [e]; exact hs
  | handOver _ _ e => rw [e]; exact ⟨hs.ring.pop hC, hs.h1, hs.buf⟩
  | disarm _ _ e => rw [e]; exact ⟨hs.ring, hs.h1, hs.buf⟩
  | fg _ _ _ hm => exact hm.inRange hC hs
  | init _ _ _ e => rw [e]; exact ⟨Ring.inRange_init hC, hs.h1, hs.buf⟩

theorem RxStep.inRange (h : RxStep s t) (hs : s.rxView.InRange s.cfg.rxCap) : t.rxView.InRange s.cfg.rxCap := by
  have hC := rxCap_isCapacity s.cfg
  cases h with
  | still _ e => rw [e]; exact hs
  | @arrive d _ _ _ e =>
    rw [e]
    exact ⟨hs.ring.push hC d, hs.t1, Memory.wf_write _ _ _ _ hs.buf (maskedNext_lt hC _)⟩
  | recv _ hm => exact hm.inRange hC hs
  | other _ _ _ _ _ e => rw [e]; exact ⟨hs.ring, hs.t1, hs.buf⟩
  | init _ _ _ e => rw [e]; exact ⟨Ring.inRange_init hC, hs.t1, hs.buf⟩

theorem exec_tickMs {i : Instr} (h : exec i s = .next t) (hs : s.tick.ms.toNat ≤ 999) : t.tick.ms.toNat ≤ 999 := by
  by_cases hi : i = .evtTick
  · subst hi
    cases (exec_evtTick s).symm.trans h
    by_cases hlast : s.tick.ms.toNat = 999
    · rw [tickHandler_of_last hlast]
      exact Nat.zero_le _
    · rw [tickHandler_of_not_last hlast]
      simp only [State.setTick_tick, BitVec.toNat_add, BitVec.toNat_ofNat]
      omega
  · rw [exec_tick h hi]
    exact hs

theorem step_smoothBuf_tick (h : step s = .next t) (hb : s.smooth.buf.wf 16 = true) (hk : s.tick.ms.toNat ≤ 999) :
    t.smooth.buf.wf 16 = true ∧ t.tick.ms.toNat ≤ 999 := by
  rcases step_next h with ⟨i, -, -, -, hx⟩ | ⟨w, i, -, -, -, hx⟩ | ⟨e, -, rfl⟩
  · exact ⟨exec_smoothBuf_wf hx hb, exec_tickMs hx hk⟩
  · exact ⟨exec_smoothBuf_wf hx hb, exec_tickMs hx hk⟩
  · rw [envStep_frame]
    exact ⟨hb, hk⟩

theorem DataInv.step (hs : DataInv s) (h : step s = .next t) : DataInv t := by
  obtain ⟨⟨txHead, txTail⟩, h1, txBuf⟩ := (step_tx h).inRange hs.txView_inRange
  obtain ⟨⟨rxHead, rxTail⟩, t1, rxBuf⟩ := (step_rx h).inRange hs.rxView_inRange
  obtain ⟨smoothBuf, tickMs⟩ := step_smoothBuf_tick h hs.smoothBuf hs.tickMs
  rw [← (step_cfg_prog h).1] at txHead txTail h1 txBuf rxHead rxTail t1 rxBuf
  exact { rxHead, rxTail, txHead, txTail, h1, t1, rxBuf, txBuf, smoothBuf, tickMs }

end Range

/-! ### What a send under way knows (R114) -/

section Sends

variable {C : Nat} {v w : TxView}

/-- SendInv of a transmit side. -/
def TxView.Knows (C : Nat) (v : TxView) : Prop :=
  ∀ b k, v.send = some (b, k) →
    (2 ≤ k → k ≤ 4 → v.h1 = maskedNext C v.ring.head) ∧
    (3 ≤ k → k ≤ 4 → v.h1 ≠ v.ring.tail) ∧
    (k = 4 → v.ring.buf.lookup v.h1.toNat = some b)

theorem TxView.knows_of_fresh (h : FreshSend v.send) : v.Knows C := by
  intro b k hs
  obtain rfl := h b k hs
  exact ⟨by omega, by omega, by omega⟩

theorem SendMove.knows (h : SendMove C v w) (hv : v.Knows C) : w.Knows C := by
  cases h with
  | hold => exact hv
  | other _ hf => exact TxView.knows_of_fresh hf
  | arm _ hf => exact TxView.knows_of_fresh hf
  | claim =>
    rintro b k ⟨⟩
    exact ⟨fun _ _ => rfl, by omega, by omega⟩
  | @room b hs hroom =>
    rintro b k ⟨⟩
    exact ⟨fun _ _ => (hv b 2 hs).1 (by omega) (by omega), fun _ _ => hroom, by omega⟩
  | @store b hs =>
    rintro b k ⟨⟩
    obtain ⟨hh1, hroom, -⟩ := hv b 3 hs
    exact ⟨fun _ _ => hh1 (by omega) (by omega), fun _ _ => hroom (by omega) (by omega),
      fun _ => Memory.lookup_write_self _ _ _⟩
  | publish =>
    rintro b k ⟨⟩
    exact ⟨by omega, by omega, by omega⟩

/-- The slot a send has claimed is not the one that the next byte is taken from. -/
theorem TxView.Knows.handOver (hC : IsCapacity C) (hr : v.ring.InRange C) (hne : v.ring.head ≠ v.ring.tail) (hv : v.Knows C) :
    (v.handOver C).Knows C := by
  intro b k hs
  obtain ⟨hh1, -, hbyte⟩ := hv b k hs
  refine ⟨hh1, fun h3 h4 e => hne ?_, hbyte⟩
  exact hC.maskedNext_inj hr.head hr.tail ((hh1 (by omega) h4).symm.trans e)

variable {s t : State}

theorem TxStep.sendInv (h : TxStep s t) (hd : DataInv s) (hs : SendInv s) : t.txView.Knows s.cfg.txCap := by
  have hs : s.txView.Knows s.cfg.txCap := hs
  cases h with
  | still _ e => rw [e]; exact hs
  | handOver _ hne e => rw [e]; exact hs.handOver (txCap_isCapacity _) hd.tx_inRange hne
  | disarm _ _ e => rw [e]; exact hs
  | fg _ _ _ hm => exact hm.knows hs
  | init _ _ hf e => rw [e]; exact TxView.knows_of_fresh hf

/-- The head moves by `next`. -/
theorem SendMove.head (h : SendMove C v w) (hv : v.Knows C) :
    (w.ring.head = v.ring.head ∨ w.ring.head = maskedNext C v.ring.head) ∧ w.ring.tail = v.ring.tail := by
  cases h with
  | hold | other | claim | room | store | arm => exact ⟨.inl rfl, rfl⟩
  | @publish b hs => exact ⟨.inr ((hv b 4 hs).1 (by omega) (by omega)), rfl⟩

/-! ### Transmit order (R121) -/

/-- The bytes handed over, then the bytes queued. -/
def TxView.history (C : Nat) (v : TxView) : List Byte := v.wire ++ v.ring.queue .txBuf C

theorem SendMove.history (hC : IsCapacity C) (h : SendMove C v w) (hr : v.ring.InRange C) (hv : v.Knows C) :
    w.history C = v.history C ∨ ∃ b, v.send = some (b, 4) ∧ w.history C = v.history C ++ [b] := by
  cases h with
  | hold | other | claim | room | arm => exact .inl rfl
  | @store b hs =>
    obtain ⟨hh1, hroom, -⟩ := hv b 3 hs
    have hh1 := hh1 (by omega) (by omega)
    have hroom := hroom (by omega) (by omega)
    rw [hh1] at hroom
    refine .inl ?_
    simp only [TxView.history, hh1, Ring.queue_store .txBuf hC hr hroom b]
  | @publish b hs =>
    obtain ⟨hh1, hroom, hbyte⟩ := hv b 4 hs
    have hh1 := hh1 (by omega) (by omega)
    have hroom := hroom (by omega) (by omega)
    have hbyte := hbyte rfl
    rw [hh1] at hroom hbyte
    refine .inr ⟨b, hs, ?_⟩
    simp only [TxView.history, hh1, Ring.queue_publish .txBuf hC hr hroom, Memory.read, hbyte, Option.getD_some,
      List.append_assoc]

theorem TxView.history_handOver (hC : IsCapacity C) (hr : v.ring.InRange C) (hne : v.ring.head ≠ v.ring.tail) :
    (v.handOver C).history C = v.history C := by
  rw [TxView.history, TxView.history, Ring.queue_eq_cons .txBuf hC hr hne]
  simp [TxView.handOver]

/-! ### No stranded byte (R124) -/

/-- NoStrandedByte of a transmit side. -/
def TxView.NoStranded (v : TxView) : Prop := v.ring.head ≠ v.ring.tail → v.armed = true ∨ ∃ b, v.send = some (b, 5)

theorem SendMove.noStranded (h : SendMove C v w) (hv : v.NoStranded) : w.NoStranded := by
  have armed : ∀ {a}, v.send = a → (∀ b, a ≠ some (b, 5)) → v.ring.head ≠ v.ring.tail → v.armed = true := by
    rintro a rfl ha hne
    exact (hv hne).resolve_right fun ⟨b, hb⟩ => ha b hb
  cases h with
  | hold => exact hv
  | other hs => exact fun hne => .inl (armed hs nofun hne)
  | claim hs => exact fun hne => .inl (armed hs nofun hne)
  | room hs => exact fun hne => .inl (armed hs nofun hne)
  | store hs => exact fun hne => .inl (armed hs nofun hne)
  | @publish b => exact fun _ => .inr ⟨b, rfl⟩
  | arm => exact fun _ => .inl rfl

theorem TxStep.noStranded (h : TxStep s t) (hs : s.txView.NoStranded) : t.txView.NoStranded := by
  cases h with
  | still _ e => rw [e]; exact hs
  | handOver _ hne e => rw [e]; exact fun _ => hs hne
  | disarm _ hempty e => rw [e]; exact fun hne => absurd hempty hne
  | fg _ _ _ hm => exact hm.noStranded hs
  | init _ _ _ e => rw [e]; exact fun hne => absurd rfl hne

/-! ### Queued slots are written (R76) -/

theorem SendMove.queueWritten (hC : IsCapacity C) (h : SendMove C v w) (hr : v.ring.InRange C) (hv : v.Knows C)
    (hq : v.ring.QueueWritten C) : w.ring.QueueWritten C := by
  cases h with
  | hold | other | claim | room | arm => exact hq
  | store => exact hq.write _ _
  | @publish b hs =>
    obtain ⟨hh1, hroom, hbyte⟩ := hv b 4 hs
    have hh1 := hh1 (by omega) (by omega)
    have hroom := hroom (by omega) (by omega)
    have hbyte := hbyte rfl
    rw [hh1] at hroom hbyte
    rw [hh1]
    exact hq.publish hC hr hroom (by rw [hbyte]; exact Option.some_ne_none b)

theorem TxStep.queueWritten (h : TxStep s t) (hd : DataInv s) (hs : SendInv s) (hq : s.tx.QueueWritten s.cfg.txCap) :
    t.txView.ring.QueueWritten s.cfg.txCap := by
  have hC := txCap_isCapacity s.cfg
  cases h with
  | still _ e => rw [e]; exact hq
  | handOver _ hne e => rw [e]; exact hq.pop hC hd.tx_inRange hne
  | disarm _ _ e => rw [e]; exact hq
  | fg _ _ _ hm => exact hm.queueWritten hC hd.tx_inRange hs hq
  | init _ _ _ e => rw [e]; exact Ring.queueWritten_of_empty hC (Ring.inRange_init hC) rfl

end Sends

section Receives

variable {C : Nat} {v w : RxView} {s t : State}

/-- RxQueuedWritten of a receive side. -/
structure RxView.Written (C : Nat) (v : RxView) : Prop where
  queued : v.ring.QueueWritten C
  freeing : v.recv = some 2 ∨ v.recv = some 3 → v.ring.head ≠ v.ring.tail ∨ v.ring.AllWritten C
  slot : v.recv = some 3 → v.t1 = maskedNext C v.ring.tail
  reading : v.recv = some 4 → v.ring.buf.lookup v.t1.toNat ≠ none

theorem rxQueuedWritten_iff : RxQueuedWritten s ↔ s.rxView.Written s.cfg.rxCap := by
  have at_iff : ∀ k, s.rxView.recv = some k ↔ fgCommand s = some .uartRecv ∧ s.seq.ustep = [k] := fun _ => recvAt_eq_some_iff
  constructor
  · rintro ⟨queued, freeing, slot, reading⟩
    refine ⟨queued, fun h => ?_, fun h => slot ((at_iff 3).mp h).1 ((at_iff 3).mp h).2,
      fun h => reading ((at_iff 4).mp h).1 ((at_iff 4).mp h).2⟩
    rcases h with h | h
    · exact freeing ((at_iff 2).mp h).1 (.inl ((at_iff 2).mp h).2)
    · exact freeing ((at_iff 3).mp h).1 (.inr ((at_iff 3).mp h).2)
  · rintro ⟨queued, freeing, slot, reading⟩
    exact ⟨queued, fun hc hp => freeing (hp.imp (fun hp => (at_iff 2).mpr ⟨hc, hp⟩) fun hp => (at_iff 3).mpr ⟨hc, hp⟩),
      fun hc hp => slot ((at_iff 3).mpr ⟨hc, hp⟩), fun hc hp => reading ((at_iff 4).mpr ⟨hc, hp⟩)⟩

/-- With no receive past its u1 only the queue matters. -/
theorem RxView.written_of_fresh (h : FreshRecv v.recv) (hq : v.ring.QueueWritten C) : v.Written C := by
  refine ⟨hq, ?_, ?_, ?_⟩
  · rintro (e | e) <;> cases h _ e
  · intro e; cases h _ e
  · intro e; cases h _ e

theorem RecvMove.written (hC : IsCapacity C) (h : RecvMove C v w) (hr : v.InRange C) (hv : v.Written C) : w.Written C := by
  cases h with
  | hold => exact hv
  | nonEmpty _ hne => exact ⟨hv.queued, fun _ => .inl hne, nofun, nofun⟩
  | slot hs => exact ⟨hv.queued, fun _ => hv.freeing (.inl hs), fun _ => rfl, nofun⟩
  | answer _ hf => exact RxView.written_of_fresh hf hv.queued
  | free hs =>
    have ht1 := hv.slot hs
    rcases hv.freeing (.inr hs) with hne | hall
    · refine ⟨?_, nofun, nofun, fun _ => ?_⟩
      · rw [ht1]
        exact hv.queued.pop hC hr.ring hne
      · rw [ht1]
        exact hv.queued.first hC hr.ring hne
    · have hall : Ring.AllWritten C { v.ring with tail := v.t1 } := hall
      exact ⟨hall.queueWritten hC hr.t1, nofun, nofun, fun _ => hall _ hr.t1⟩

/-- A byte that arrives is queued, or it overflows the ring, all of whose slots are then written. -/
theorem RxView.Written.arrive (hC : IsCapacity C) (hr : v.InRange C) (hv : v.Written C) (d : Byte) :
    RxView.Written C { v with ring := v.ring.push C d } := by
  have hcases : (v.ring.push C d).QueueWritten C ∧ ((v.ring.push C d).head ≠ (v.ring.push C d).tail ∨
      (v.ring.push C d).AllWritten C) := by
    by_cases hfull : maskedNext C v.ring.head = v.ring.tail
    · have hall := hv.queued.push_full hC hr.ring hfull d
      exact ⟨hall.queueWritten hC hr.ring.tail, .inr hall⟩
    · refine ⟨?_, .inl hfull⟩
      have hnew : (v.ring.buf.write (maskedNext C v.ring.head).toNat d).lookup (maskedNext C v.ring.head).toNat ≠ none := by
        rw [Memory.lookup_write_self]
        exact Option.some_ne_none d
      exact Ring.QueueWritten.publish (r := { v.ring with buf := v.ring.buf.write (maskedNext C v.ring.head).toNat d }) hC
        ⟨hr.ring.head, hr.ring.tail⟩ hfull (hv.queued.write _ d) hnew
  exact ⟨hcases.1, fun _ => hcases.2, hv.slot, fun h => Memory.lookup_write_ne_none _ _ _ (hv.reading h)⟩

theorem RxStep.written (h : RxStep s t) (hd : DataInv s) (hs : s.rxView.Written s.cfg.rxCap) :
    t.rxView.Written s.cfg.rxCap := by
  have hC := rxCap_isCapacity s.cfg
  cases h with
  | still _ e => rw [e]; exact hs
  | @arrive d _ _ _ e => rw [e]; exact hs.arrive hC hd.rxView_inRange d
  | recv _ hm => exact hm.written hC hd.rxView_inRange hs
  | other _ _ _ _ hf e => rw [e]; exact RxView.written_of_fresh hf hs.queued
  | init _ _ hf e => rw [e]; exact RxView.written_of_fresh hf (Ring.queueWritten_of_empty hC (Ring.inRange_init hC) rfl)

/-! ### What a receive under way knows where no overflow came in between (R116) -/

/-- RecvInv of a receive side. -/
structure RxView.Knows (C : Nat) (v : RxView) : Prop where
  nonEmpty : v.recv = some 2 ∨ v.recv = some 3 → v.ring.head ≠ v.ring.tail
  slot : v.recv = some 3 → v.t1 = maskedNext C v.ring.tail
  freed : v.recv = some 4 → v.t1 = v.ring.tail

theorem recvInv_iff : RecvInv s ↔ s.rxView.Knows s.cfg.rxCap := by
  have at_iff : ∀ k, s.rxView.recv = some k ↔ fgCommand s = some .uartRecv ∧ s.seq.ustep = [k] := fun _ => recvAt_eq_some_iff
  constructor
  · rintro ⟨nonEmpty, slot, freed⟩
    refine ⟨fun h => ?_, fun h => slot ((at_iff 3).mp h).1 ((at_iff 3).mp h).2,
      fun h => freed ((at_iff 4).mp h).1 ((at_iff 4).mp h).2⟩
    rcases h with h | h
    · exact nonEmpty ((at_iff 2).mp h).1 (.inl ((at_iff 2).mp h).2)
    · exact nonEmpty ((at_iff 3).mp h).1 (.inr ((at_iff 3).mp h).2)
  · rintro ⟨nonEmpty, slot, freed⟩
    exact ⟨fun hc hp => nonEmpty (hp.imp (fun hp => (at_iff 2).mpr ⟨hc, hp⟩) fun hp => (at_iff 3).mpr ⟨hc, hp⟩),
      fun hc hp => slot ((at_iff 3).mpr ⟨hc, hp⟩), fun hc hp => freed ((at_iff 4).mpr ⟨hc, hp⟩)⟩

theorem RxView.knows_of_fresh (h : FreshRecv v.recv) : v.Knows C := by
  refine ⟨?_, ?_, ?_⟩
  · rintro (e | e) <;> cases h _ e
  · intro e; cases h _ e
  · intro e; cases h _ e

theorem RecvMove.knows (h : RecvMove C v w) (hv : v.Knows C) : w.Knows C := by
  cases h with
  | hold => exact hv
  | nonEmpty _ hne => exact ⟨fun _ => hne, nofun, nofun⟩
  | slot hs => exact ⟨fun _ => hv.nonEmpty (.inl hs), fun _ => rfl, nofun⟩
  | free => exact ⟨nofun, nofun, fun _ => rfl⟩
  | answer _ hf => exact RxView.knows_of_fresh hf

/-- A byte that arrives and is no overflow finds a free slot. -/
theorem room_of_no_overflow {d : Byte} (hs : s.sched.head? = some (.event (encode (.evtRxc d))))
    (he : eventEnabled (.evtRxc d) s = true) (hno : rxOverflow s = false) : maskedNext s.cfg.rxCap s.rx.head ≠ s.rx.tail := by
  obtain ⟨rest, hs⟩ := List.head?_eq_some_iff.mp hs
  obtain ⟨hrx, hcie, hhw⟩ := eventEnabled_evtRxc_iff.mp he
  intro hfull
  simp [rxOverflow, hs, decodeAt_schedule_of_ok (decode_encode (.evtRxc d)) rfl, hrx, hcie, hhw, hfull] at hno

theorem RxStep.knows (h : RxStep s t) (hno : rxOverflow s = false) (hs : s.rxView.Knows s.cfg.rxCap) :
    t.rxView.Knows s.cfg.rxCap := by
  cases h with
  | still _ e => rw [e]; exact hs
  | arrive _ hsched hen e =>
    rw [e]
    exact ⟨fun _ => room_of_no_overflow hsched hen hno, hs.slot, hs.freed⟩
  | recv _ hm => exact hm.knows hs
  | other _ _ _ _ hf e => rw [e]; exact RxView.knows_of_fresh hf
  | init _ _ hf e => rw [e]; exact RxView.knows_of_fresh hf

/-- The micro-step that moves the tail, u3 of `UART.RECV`, takes the first byte off the queue. -/
theorem RecvMove.queue (hC : IsCapacity C) (h : RecvMove C v w) (hr : v.ring.InRange C) (hv : v.Knows C) :
    w.ring.queue .rxBuf C = v.ring.queue .rxBuf C ∨ (v.recv = some 3 ∧ w.recv = some 4 ∧
      v.ring.queue .rxBuf C = w.ring.buf.read .rxBuf w.t1.toNat :: w.ring.queue .rxBuf C) := by
  cases h with
  | hold | nonEmpty | slot | answer => exact .inl rfl
  | free hs =>
    refine .inr ⟨hs, rfl, ?_⟩
    rw [hv.slot hs]
    exact Ring.queue_eq_cons .rxBuf hC hr (hv.nonEmpty (.inr hs))

/-- The tail moves by `next`, where `t1` is the slot after it. -/
theorem RecvMove.tail (h : RecvMove C v w) (ht1 : v.recv = some 3 → v.t1 = maskedNext C v.ring.tail) :
    w.ring.head = v.ring.head ∧ (w.ring.tail = v.ring.tail ∨ w.ring.tail = maskedNext C v.ring.tail) := by
  cases h with
  | hold | nonEmpty | slot | answer => exact ⟨rfl, .inl rfl⟩
  | free hs => exact ⟨rfl, .inr (ht1 hs)⟩

/-- Where the foreground does not move, its position stays. -/
theorem step_seq_of_not_fg {i : Instr} (hc : fgCommand s = some i) (hn : fgNext s = none) (h : step s = .next t) :
    t.seq = s.seq := by
  rcases step_next h with ⟨j, hs, -, -, -⟩ | ⟨w, j, -, -, hj, hx⟩ | ⟨e, -, rfl⟩
  · rw [fgNext_of_fg hs, hc] at hn
    cases hn
  · exact (exec_event_seq hj hx).1
  · exact (envStep_seq_prog e _).1

theorem step_of_fgNext {i : Instr} (hn : fgNext s = some i) (h : step s = .next t) :
    fgCommand s = some i ∧ exec i (s.setSched s.sched.tail) = .next t := by
  rcases step_next h with ⟨j, hs, hc, -, hx⟩ | ⟨w, j, hs, -, -, -⟩ | ⟨e, hs, -⟩
  · rw [fgNext_of_fg hs, hc] at hn
    cases hn
    exact ⟨hc, hx⟩
  · rw [fgNext_of_event hs] at hn
    cases hn
  · rw [fgNext_of_env hs] at hn
    cases hn

end Receives

/-! ### The obligations -/

/-- Settles O25: the two rings' moves, SmoothBuf's stores, and the tick. -/
theorem everyStepKeepsDataInRange : Obligations.EveryStepKeepsDataInRange := by
  unfold Obligations.EveryStepKeepsDataInRange
  exact fun _ _ => DataInv.step

/-- Settles O20: each line of R114 gives the next one what it needs, and a byte handed over frees another slot. -/
theorem sendUnderWayKeepsItsSlot : Obligations.SendUnderWayKeepsItsSlot := by
  unfold Obligations.SendUnderWayKeepsItsSlot
  intro s t hd hs h
  have hk := (step_tx h).sendInv hd hs
  rw [← (step_cfg_prog h).1] at hk
  exact hk

/-- Settles O21: u3 stores outside the queue, u4 queues the byte u3 stored, and `EVT.TXR` moves the first byte across. -/
theorem transmitOrderIsKept : Obligations.TransmitOrderIsKept := by
  unfold Obligations.TransmitOrderIsKept
  intro s t hd hs h
  have hC := txCap_isCapacity s.cfg
  have hhist : t.trace.txWire ++ t.txQueue = t.txView.history s.cfg.txCap := by
    rw [State.txQueue, (step_cfg_prog h).1]
    rfl
  rw [hhist]
  cases step_tx h with
  | still _ e => rw [e]; exact .inl rfl
  | handOver _ hne e => rw [e]; exact .inl (TxView.history_handOver hC hd.tx_inRange hne)
  | disarm _ _ e => rw [e]; exact .inl rfl
  | fg _ hfg _ hm =>
    rcases hm.history hC hd.tx_inRange hs with e | ⟨b, hb, e⟩
    · exact .inl e
    · exact .inr (.inl ⟨b, hb, hfg, e⟩)
  | @init i a hn ha _ e =>
    refine .inr (.inr ⟨i, hn, ha, congrArg TxView.wire e, ?_⟩)
    have hring : t.tx = { s.tx with head := 0#8, tail := 0#8 } := congrArg TxView.ring e
    rw [State.txQueue, (step_cfg_prog h).1, hring]
    exact Ring.queue_of_empty _ hC (Ring.inRange_init hC) rfl

/-- Settles O22: only u4 of a send makes the ring non-empty, and u5 comes next; the handler disarms an empty ring only. -/
theorem noByteIsEverStranded : Obligations.NoByteIsEverStranded := by
  unfold Obligations.NoByteIsEverStranded
  exact fun s t hs h => (step_tx h).noStranded hs

/-- Settles O23: a slot is queued after it is written, and an overflow needs a ring whose other slots are queued. -/
theorem noUnwrittenRingSlotIsRead : Obligations.NoUnwrittenRingSlotIsRead := by
  unfold Obligations.NoUnwrittenRingSlotIsRead
  refine ⟨fun s t hd hs hq h => ?tx, fun s t hd hq h => ?rx⟩
  case tx =>
    have hw := (step_tx h).queueWritten hd hs hq
    rw [← (step_cfg_prog h).1] at hw
    exact hw
  case rx =>
    have hw := (step_rx h).written hd (rxQueuedWritten_iff.mp hq)
    rw [← (step_cfg_prog h).1] at hw
    exact rxQueuedWritten_iff.mpr hw

/-- Settles O24: an index moves where its ring's move says, which is by `next` unless `UART.INIT` sets it to 0. -/
theorem ringInvariants : Obligations.RingInvariants := by
  unfold Obligations.RingInvariants
  refine ⟨fun c => ⟨⟨_, rfl⟩, ⟨_, rfl⟩⟩, fun s t hd hs h => ⟨?inRange, fun hno ht1 => ?moved, fun hinit => ?init⟩⟩
  case inRange =>
    have hd' := hd.step h
    exact ⟨hd'.rxHead, hd'.rxTail, hd'.txHead, hd'.txTail⟩
  case moved =>
    have hrx : (t.rx.head = s.rx.head ∨ t.rx.head = maskedNext s.cfg.rxCap s.rx.head) ∧
        (t.rx.tail = s.rx.tail ∨ t.rx.tail = maskedNext s.cfg.rxCap s.rx.tail) := by
      cases step_rx h with
      | still _ e => rw [show t.rx = s.rx from congrArg RxView.ring e]; exact ⟨.inl rfl, .inl rfl⟩
      | @arrive d _ _ _ e =>
        rw [show t.rx = s.rx.push s.cfg.rxCap d from congrArg RxView.ring e]
        exact ⟨.inr rfl, .inl rfl⟩
      | recv hn hm =>
        have hring := hm.tail fun h3 => ht1 hn (recvAt_eq_some_iff.mp h3).2
        exact ⟨.inl hring.1, hring.2⟩
      | other _ _ _ _ _ e => rw [show t.rx = s.rx from congrArg RxView.ring e]; exact ⟨.inl rfl, .inl rfl⟩
      | init hn ha => exact absurd ha (by simp [hno _ hn])
    have htx : (t.tx.head = s.tx.head ∨ t.tx.head = maskedNext s.cfg.txCap s.tx.head) ∧
        (t.tx.tail = s.tx.tail ∨ t.tx.tail = maskedNext s.cfg.txCap s.tx.tail) := by
      cases step_tx h with
      | still _ e => rw [show t.tx = s.tx from congrArg TxView.ring e]; exact ⟨.inl rfl, .inl rfl⟩
      | handOver _ _ e =>
        rw [show t.tx = s.tx.pop s.cfg.txCap from congrArg TxView.ring e]
        exact ⟨.inl rfl, .inr rfl⟩
      | disarm _ _ e => rw [show t.tx = s.tx from congrArg TxView.ring e]; exact ⟨.inl rfl, .inl rfl⟩
      | fg _ _ _ hm =>
        have hring := hm.head hs
        exact ⟨hring.1, .inl hring.2⟩
      | init hn ha => exact absurd ha (by simp [hno _ hn])
    exact ⟨hrx.1, hrx.2, htx.1, htx.2⟩
  case init =>
    obtain ⟨i, hn, ha⟩ := hinit
    obtain ⟨q, rfl, -⟩ := exec_of_atInit (s := s.setSched s.sched.tail) ha (step_of_fgNext hn h).2
    exact ⟨rfl, rfl, rfl, rfl⟩

/-- Settles O19: at an index's move the queue is as R125 says, and a step that is no overflow makes one of those moves or none. -/
theorem ringsAreQueues : Obligations.RingsAreQueues := by
  unfold Obligations.RingsAreQueues
  refine ⟨fun s hd => ?moves, fun s t hd hr hno h => ?steps⟩
  case moves =>
    have hrx := rxCap_isCapacity s.cfg
    have htx := txCap_isCapacity s.cfg
    refine ⟨fun b hp hh1 hroom => ?send, fun he hne => ?handOver, fun d he => ?arrive, fun hp ht1 hne => ?recv,
      fun hp hen => ?avail⟩
    case send =>
      refine ⟨_, (execTimes_succ 1 (exec_uartSend_u3 b hp)).trans (execTimes_one (exec_uartSend_u4 b rfl)), ?_⟩
      rw [hh1] at hroom
      show Ring.queue .txBuf s.cfg.txCap ⟨s.tx.buf.write s.tmp.h1.toNat b, s.tmp.h1, s.tx.tail⟩ = _
      rw [hh1]
      exact Ring.queue_push .txBuf htx hd.tx_inRange hroom b
    case handOver =>
      refine ⟨_, _, _, Ring.queue_eq_cons .txBuf htx hd.tx_inRange hne, exec_evtTxr he, ?_⟩
      rw [txrHandler_of_nonempty hne]
      exact ⟨rfl, rfl⟩
    case arrive =>
      refine ⟨_, exec_evtRxc he, ?_⟩
      have hlen : s.rxQueue.length = ringCount s.cfg.rxCap s.rx.head s.rx.tail := Ring.queue_length _ _ _
      rw [hlen]
      have hlt := ringCount_lt hrx s.rx.head s.rx.tail
      by_cases hfull : maskedNext s.cfg.rxCap s.rx.head = s.rx.tail
      · rw [if_neg (by rw [(ringCount_eq_pred_iff hrx hd.rx_inRange).mpr hfull]; exact lt_irrefl _)]
        exact Ring.queue_of_empty .rxBuf hrx (hd.rx_inRange.push hrx d) hfull
      · have hne := mt (ringCount_eq_pred_iff hrx hd.rx_inRange).mp hfull
        rw [if_pos (by omega)]
        exact Ring.queue_push .rxBuf hrx hd.rx_inRange hfull d
    case recv =>
      exact ⟨_, _, _, Ring.queue_eq_cons .rxBuf hrx hd.rx_inRange hne, execTimes_uartRecv_from_u3 hp ht1, rfl, rfl⟩
    case avail =>
      refine ⟨_, uartAvailAnswersNonEmpty.2 s hp hen, rfl, ?_⟩
      have hempty : s.rxQueue = [] ↔ s.rx.head = s.rx.tail := by
        rw [← List.length_eq_zero_iff, State.rxQueue, Ring.queue_length, ringCount_eq_zero_iff hrx hd.rx_inRange]
      rw [Ne, hempty]
      by_cases hc : s.rx.head = s.rx.tail <;> simp [hc]
  case steps =>
    have hC := rxCap_isCapacity s.cfg
    have hcfg := (step_cfg_prog h).1
    have hk := recvInv_iff.mp hr
    have hq : t.rxQueue = t.rxView.ring.queue .rxBuf s.cfg.rxCap := by rw [State.rxQueue, hcfg]; rfl
    refine ⟨?inv, ?queue, fun hc hp => ⟨fun hn => ?answer, fun hn => ?kept⟩⟩
    case inv =>
      have hk' := (step_rx h).knows hno hk
      rw [← hcfg] at hk'
      exact recvInv_iff.mpr hk'
    case queue =>
      rw [hq]
      cases step_rx h with
      | still _ e => rw [e]; exact .inl rfl
      | @arrive d _ hsched hen e =>
        rw [e]
        exact .inr (.inl ⟨d, hsched, hen,
          Ring.queue_push .rxBuf hC hd.rx_inRange (room_of_no_overflow hsched hen hno) d⟩)
      | recv hn hm =>
        rcases hm.queue hC hd.rx_inRange hk with e | ⟨h3, h4, e⟩
        · exact .inl e
        · exact .inr (.inr (.inl ⟨hn, (recvAt_eq_some_iff.mp h3).2, (recvAt_eq_some_iff.mp h4).2, e⟩))
      | other _ _ _ _ _ e => rw [e]; exact .inl rfl
      | @init i a hn ha _ e =>
        rw [e]
        exact .inr (.inr (.inr ⟨i, hn, ha, Ring.queue_of_empty .rxBuf hC (Ring.inRange_init hC) rfl⟩))
    case answer =>
      have hx := (step_of_fgNext hn h).2
      cases (exec_uartRecv_u4 (s := s.setSched s.sched.tail) hp).symm.trans hx
      exact ⟨rfl, rfl⟩
    case kept =>
      refine ⟨step_seq_of_not_fg hc hn h, ?_⟩
      cases step_rx h with
      | still _ e =>
        have hring : t.rx = s.rx := congrArg RxView.ring e
        have ht1 : t.tmp.t1 = s.tmp.t1 := congrArg RxView.t1 e
        rw [hring, ht1]
        exact ⟨rfl, rfl⟩
      | @arrive d _ hsched hen e =>
        have hring : t.rx = s.rx.push s.cfg.rxCap d := congrArg RxView.ring e
        have ht1 : t.tmp.t1 = s.tmp.t1 := congrArg RxView.t1 e
        rw [hring, ht1]
        refine ⟨rfl, Memory.read_write_other _ _ _ fun e => ?_⟩
        rw [hr.freed hc hp] at e
        exact room_of_no_overflow hsched hen hno (BitVec.eq_of_toNat_eq e).symm
      | recv hn' => rw [hn'] at hn; cases hn
      | other hn' => rw [hn'] at hn; cases hn
      | init hn' => rw [hn'] at hn; cases hn

end Sys2Proof.Machine
end

