-- ==== Sys2Proof/Proofs/Agents.lean ====
section
/-! PROOFS. The reserved words (30_encoding.md R94), the arithmetic of indices (00_scope.md R8), the agents' steps (20_memory.md R69,
30_encoding.md R93, 43_thermostat_control.md R221 to R225) and the reset state (10_state.md R40). -/

namespace Sys2Proof

/-! ### Reserved words -/

theorem decode_of_reserved_unit {w : CmdWord}
    (h : 5 ≤ (unitField w).toNat ∧ (unitField w).toNat ≤ 13 ∨ (unitField w).toNat = 15) : decode w = .error .reservedUnit := by
  unfold decode
  split
  case h_36 => rfl
  all_goals omega

theorem decode_of_reserved_func {w : CmdWord}
    (h : (unitField w).toNat = 0 ∧ 2 < (funcField w).toNat ∨ (unitField w).toNat = 1 ∧ 3 < (funcField w).toNat ∨
      (unitField w).toNat = 2 ∧ 6 < (funcField w).toNat ∨ (unitField w).toNat = 3 ∧ 4 < (funcField w).toNat ∨
      (unitField w).toNat = 4 ∧ 6 < (funcField w).toNat ∨ (unitField w).toNat = 14 ∧ 2 < (funcField w).toNat) :
    decode w = .error .reservedFunc := by
  unfold decode
  split
  case h_30 | h_31 | h_32 | h_33 | h_34 | h_35 => rfl
  all_goals simp_all

theorem bare_ok_or_error (o : Byte) (i : Instr) : (∃ j, bare o i = .ok j) ∨ bare o i = .error .nonzeroOperand := by
  unfold bare
  split
  · exact .inl ⟨i, rfl⟩
  · exact .inr rfl

/-- A word with the unit and the function of an operation is a word of it, or has an operand where none belongs. -/
theorem decode_of_same_unit_func {w w' : CmdWord} {i : Instr} (hw : w' &&& 0xFF00#16 = w &&& 0xFF00#16)
    (h : decode w' = .ok i) : (∃ j, decode w = .ok j) ∨ decode w = .error .nonzeroOperand := by
  rw [and_mask_eq_packWord, and_mask_eq_packWord, packWord_eq_iff] at hw
  simp only [unitField_packWord, funcField_packWord] at hw
  obtain ⟨hu, hf, -⟩ := hw
  unfold decode at h ⊢
  rw [← hu, ← hf] at h
  clear hu hf
  split at h <;> simp_all [bare_ok_or_error]

/-- The word of an operation without operand, with another operand byte than 0. -/
theorem decode_of_nonzero_operand {r : OpcodeRow} (hr : r ∈ opcodeRows) (hm : r.mask = 0xFFFF#16) {w : CmdWord}
    (hw : w &&& 0xFF00#16 = r.pattern) (ho : opdField w ≠ 0#8) : decode w = .error .nonzeroOperand := by
  have hpat : r.covers r.pattern = true := by
    rw [covers_iff, hm]
    exact BitVec.and_allOnes
  obtain ⟨i, hi⟩ := decode_of_covers hr hpat
  refine (decode_of_same_unit_func ((and_mask_of_covers hr hpat).trans hw.symm) hi).resolve_left ?_
  rintro ⟨j, hj⟩
  obtain ⟨r', hr', hcov⟩ := exists_row_of_decode hj
  obtain rfl := opcodeRows_pattern_inj r' hr' r hr ((and_mask_of_covers hr' hcov).symm.trans hw)
  have hopd : ∀ r ∈ opcodeRows, opdField r.pattern = 0#8 := by decide
  exact ho (eq_pattern_of_covers hm hcov ▸ hopd r' hr)

end Sys2Proof

namespace Sys2Proof.Machine

/-! ### Steps, agent by agent -/

section Steps

variable {i : Instr} {s t : State} {rest : List SchedItem}

theorem setSched_tail_of_nil (h : s.sched = []) : s.setSched s.sched.tail = s := by
  rw [h]
  exact congrArg s.setSched h.symm

theorem step_of_fg (hs : s.sched = [] ∨ s.sched.head? = some .fg) (hc : fgCommand s = some i) :
    step s = exec i (s.setSched s.sched.tail) := by
  rw [step, nextMove_of_fg hs, fgMove_of_command (s := s.setSched s.sched.tail) hc]

theorem step_of_event {w : CmdWord} (hs : s.sched.head? = some (.event w)) (hd : decode w = .ok i) (he : i.isEvent = true) :
    step s = exec i (s.setSched s.sched.tail) := by
  rw [step, nextMove_of_event hs, eventMove, decodeAt_schedule_of_ok hd he]

theorem step_of_env {e : EnvStep} (hs : s.sched = .env e :: rest) : step s = .next (envStep e (s.setSched rest)) := by
  rw [step, nextMove_of_env (e := e) (by rw [hs]; rfl), hs]
  rfl

theorem fgCommand_of_ok {w : CmdWord} (hw : s.prog[s.seq.pc.toNat]? = some w) (hd : decode w = .ok i)
    (he : i.isEvent = false) : fgCommand s = some i := by
  rw [fgCommand, hw, Option.bind_some, decodeAt_program_of_ok hd he]

theorem step_of_stuck (hs : s.sched = [] ∨ s.sched.head? = some .fg) (hpc : s.prog.length ≤ s.seq.pc.toNat) :
    step s = .fault .fgStuck := by
  have hnone : (s.setSched s.sched.tail).prog[(s.setSched s.sched.tail).seq.pc.toNat]? = none :=
    List.getElem?_eq_none hpc
  rw [step, nextMove_of_fg hs, fgMove, hnone]

theorem step_of_reserved {w : CmdWord} (hs : s.sched = [] ∨ s.sched.head? = some .fg)
    (hw : s.prog[s.seq.pc.toNat]? = some w) (hd : decodeAt .program w = none) : step s = .refused (.reservedWord w) := by
  have hw' : (s.setSched s.sched.tail).prog[(s.setSched s.sched.tail).seq.pc.toNat]? = some w := hw
  rw [step, nextMove_of_fg hs, fgMove, hw']
  simp only [hd]

/-- A pin put in its place, and the others (R37). -/
theorem withPin_getLsbD (p : BitVec 6) (i j : Fin 6) (l : Bool) :
    (withPin p i l).getLsbD j.val = if j = i then l else p.getLsbD j.val := by
  have hj := j.isLt
  unfold withPin
  by_cases h : j = i
  · subst h
    cases l <;> simp
  · have hne : j.val ≠ i.val := fun e => h (Fin.ext e)
    have hbit : (1#6 <<< i.val).getLsbD j.val = false := by
      simp
      omega
    rw [if_neg h]
    split
    · rw [BitVec.getLsbD_or, hbit, Bool.or_false]
    · rw [BitVec.getLsbD_and, BitVec.getLsbD_not, hbit, decide_eq_true hj, Bool.not_false, Bool.and_true, Bool.and_true]

end Steps

/-! ### The obligations -/

/-- Settles O4: the decoder's last lines, an operand byte where none belongs, and the fetch. -/
theorem reservedWordsAreRefused : Obligations.ReservedWordsAreRefused := by
  unfold Obligations.ReservedWordsAreRefused
  refine ⟨fun _ => decode_of_reserved_unit, fun _ => decode_of_reserved_func, fun _ hr hm _ => decode_of_nonzero_operand hr hm,
    fun s w hs hw h => step_of_reserved hs hw ?_⟩
  rcases h with ⟨e, he⟩ | ⟨i, hi, he⟩
  · simp [decodeAt, he]
  · simp [decodeAt, hi, Instr.wellFormed, he]

/-- Settles O9: the mask is the remainder by a power of two. -/
theorem maskedIncrementWraps : Obligations.MaskedIncrementWraps := by
  unfold Obligations.MaskedIncrementWraps
  intro c C hcap
  have hC : IsCapacity C := by
    rcases hcap with rfl | rfl
    · exact rxCap_isCapacity c
    · exact txCap_isCapacity c
  have hb := hC.bounds
  obtain ⟨k, hk, rfl⟩ := id hC
  refine ⟨⟨hb.1, hb.2, _, rfl⟩, fun i _ => ?mask, fun i hi => ?next, fun i hi => ?wrap, fun h t hh ht => ?count⟩
  case mask => rw [maskedNext_toNat hC, Nat.and_two_pow_sub_one_eq_mod]
  case next => rw [maskedNext_of_lt hC (by omega), if_neg (by omega)]
  case wrap =>
    apply BitVec.eq_of_toNat_eq
    rw [maskedNext_of_lt hC (by omega), if_pos (by omega)]
    rfl
  case count =>
    rw [ringCount_of_lt hC hh ht]
    split
    · rw [Int.emod_eq_of_lt (by omega) (by omega)]
      omega
    · rw [← Int.add_emod_right, Int.emod_eq_of_lt (by omega) (by omega)]
      omega

/-- Settles O1. -/
theorem sampleWordsDecode : Obligations.SampleWordsDecode := by
  unfold Obligations.SampleWordsDecode
  decide

/-- Settles O5: the fetch decodes the word at `PROG[pc]`, and the schedule's word is decoded likewise. -/
theorem stepRunsTheDecodedInstruction : Obligations.StepRunsTheDecodedInstruction := by
  unfold Obligations.StepRunsTheDecodedInstruction
  refine fun s w i rest hd => ⟨fun hw hi => ?fg, fun hs hi => ?event⟩
  case fg =>
    have hc := fgCommand_of_ok hw hd (by simpa [Instr.wellFormed] using hi)
    refine ⟨fun hs => ?_, fun hs => ?_⟩
    · rw [step_of_fg (.inl hs) hc, setSched_tail_of_nil hs]
    · rw [step_of_fg (.inr (by rw [hs]; rfl)) hc, hs]
      rfl
  case event =>
    rw [step_of_event (w := w) (by rw [hs]; rfl) hd (by simpa [Instr.wellFormed] using hi), hs]
    rfl

/-- Settles O6: each step of the environment is the move itself. -/
theorem environmentSteps : Obligations.EnvironmentSteps := by
  unfold Obligations.EnvironmentSteps
  refine fun s rest => ⟨fun d hs hrx hhw => ?byte, fun d hs hno => ?dropped, step_of_env, fun _ => step_of_env,
    fun _ => step_of_env, fun _ => step_of_env, fun i l hs => ?pin⟩
  case byte =>
    rw [step_of_env hs]
    exact congrArg _ (if_pos (by simp [hrx, hhw]))
  case dropped =>
    rw [step_of_env hs]
    refine congrArg _ (if_neg ?_)
    rcases hno with h | h <;> simp [h]
  case pin =>
    refine ⟨_, step_of_env hs, rfl, ?_, fun j hj => ?_⟩
    · exact (withPin_getLsbD _ i i l).trans (if_pos rfl)
    · exact (withPin_getLsbD _ i j l).trans (if_neg hj)

/-- Settles O7: the fetch finds no word, an event needs none, and `SEQ.END` goes on where it stands. -/
theorem foregroundWithoutStep : Obligations.ForegroundWithoutStep := by
  unfold Obligations.ForegroundWithoutStep
  refine ⟨fun _ => step_of_stuck, fun s w i hs hd he _ => ?event, decode_encode .seqEnd, fun s hp => exec_of_hold rfl hp rfl⟩
  case event =>
    rw [step_of_event hs hd he]
    exact exec_event_answers he _

/-- Settles O8: each is one micro-step, and the jump's target is fetched next. -/
theorem nopAndJump : Obligations.NopAndJump := by
  unfold Obligations.NopAndJump
  refine ⟨decode_encode .seqNop, decode_or_opd 0 1 fun _ => rfl, fun s hp => exec_of_done rfl hp rfl, fun a s hp => if_pos hp,
    fun a s t hs hlen h => ?stuck⟩
  case stuck =>
    simp only [exec, execSeqJmp] at h
    split at h <;> cases h
    exact step_of_stuck (.inl hs) hlen

/-- Settles O57: the values R40 gives are those of `State.resetWith`, and an event but the tick needs an enable. -/
theorem resetValues : Obligations.ResetValues := by
  unfold Obligations.ResetValues
  rintro cfg prog s rfl
  have hrx : 0 < cfg.rxCap := (Nat.zero_lt_two).trans_le (rxCap_isCapacity cfg).bounds.1
  have htx : 0 < cfg.txCap := (Nat.zero_lt_two).trans_le (txCap_isCapacity cfg).bounds.1
  refine ⟨⟨hrx, hrx, htx, htx⟩, ⟨rfl, rfl, rfl, rfl⟩, rfl, rfl, rfl, rfl, rfl, rfl, rfl, rfl, fun i he hen => ?_⟩
  cases i <;> simp only [Instr.isEvent, Bool.false_eq_true] at he
  case evtRxc => cases hen
  case evtTxr => cases hen
  case evtTick => rfl

/-- Settles O58: the rings are empty, no operation has begun, and the traces are empty. -/
theorem resetMeetsTheInvariants : Obligations.ResetMeetsTheInvariants := by
  unfold Obligations.ResetMeetsTheInvariants
  rintro cfg prog s rfl
  have hrx : 0 < cfg.rxCap := (Nat.zero_lt_two).trans_le (rxCap_isCapacity cfg).bounds.1
  have htx : 0 < cfg.txCap := (Nat.zero_lt_two).trans_le (txCap_isCapacity cfg).bounds.1
  have hdata : DataInv (State.resetWith cfg prog) := ⟨hrx, hrx, htx, htx, htx, hrx, rfl, rfl, rfl, Nat.zero_le _⟩
  have hsend : (State.resetWith cfg prog).txView.Knows cfg.txCap := TxView.knows_of_fresh (freshSend_of_start rfl)
  refine ⟨hdata, hsend, fun hne => absurd rfl hne,
    Ring.queueWritten_of_empty (txCap_isCapacity cfg) hdata.tx_inRange rfl, rxQueuedWritten_iff.mpr ?_, ⟨rfl, rfl⟩,
    posLegal_of_start rfl⟩
  exact RxView.written_of_fresh (freshRecv_of_start rfl)
    (Ring.queueWritten_of_empty (rxCap_isCapacity cfg) hdata.rx_inRange rfl)

/-- Settles O60: a queued byte would have the interrupt armed, and with the transmitter ready that event is enabled. -/
theorem endOfRunIsDrained : Obligations.EndOfRunIsDrained := by
  unfold Obligations.EndOfRunIsDrained
  rintro s hs ⟨hend, hquiet, -, hready⟩
  have hoff : s.ctl.txie ≠ true := fun hie => hquiet ⟨hie, hready rfl⟩
  refine ⟨?_, by simpa using hoff⟩
  by_contra hne
  rcases hs hne with hie | ⟨b, hb⟩
  · exact hoff hie
  · rw [sendAt_of_command hend] at hb
    cases hb

end Sys2Proof.Machine
end

