-- ==== Sys2Proof/Proofs/Independence.lean ====
section
/-! PROOFS. The traces agree with the outputs (10_state.md R36, 41_two_wire_bus_master.md R151), and what the operations neither read
nor write (40_ring_fifo_transport.md R126, 42_acquisition_smoothing.md R195, 43_thermostat_control.md R226). -/

namespace Sys2Proof.Machine

/-! ### The traces -/

/-- The drive moved as the entries added to `BusTrace` say. -/
def BusTraced (s t : State) : Prop := ∃ l, t.trace.bus = s.trace.bus ++ l ∧ t.bus = l.foldl replayAct s.bus

/-- The coil took the values added to `CoilTrace`. -/
def CoilTraced (s t : State) : Prop := ∃ l, t.trace.coil = s.trace.coil ++ l ∧ t.coil = l.getLast?.getD s.coil

section Traces

variable {i : Instr} {s t : State}

theorem busTraced_of_same (hb : t.bus = s.bus) (ht : t.trace.bus = s.trace.bus) : BusTraced s t :=
  ⟨[], by rw [ht, List.append_nil], hb⟩

theorem coilTraced_of_same (hc : t.coil = s.coil) (ht : t.trace.coil = s.trace.coil) : CoilTraced s t :=
  ⟨[], by rw [ht, List.append_nil], hc⟩

theorem bitRel_busTraced : BitRel BusTraced where
  refl _ := busTraced_of_same rfl rfl
  trans := by
    rintro s t u ⟨l, hl, hb⟩ ⟨l', hl', hb'⟩
    exact ⟨l ++ l', by rw [hl', hl, List.append_assoc], by rw [hb', hb, List.foldl_append]⟩
  sdaLow _ := ⟨[.sdaLow], rfl, rfl⟩
  sdaRel _ := ⟨[.sdaRel], rfl, rfl⟩
  sclLow _ := ⟨[.sclLow], rfl, rfl⟩
  sclRel _ := ⟨[.sclRel], rfl, rfl⟩
  delay _ := ⟨[.delay], rfl, rfl⟩
  sample s := ⟨[.sample s.sdaLevel], rfl, rfl⟩
  loopTmp _ _ _ := busTraced_of_same rfl rfl
  res _ _ := busTraced_of_same rfl rfl

theorem uTempRead_busTraced : uTempRead.Keeps BusTraced := bitRel_busTraced.tempRead fun _ => busTraced_of_same rfl rfl

theorem busTraced_of_frame (h : Frame (· ≠ .bus) s t) : BusTraced s t := by
  have hbus : t.bus = s.bus ∧ t.trace.bus = s.trace.bus ∧ t.tmp.v = s.tmp.v ∧ t.tmp.i = s.tmp.i ∧ t.tmp.r = s.tmp.r := by
    simpa [Part.Same] using h .bus (by simp)
  exact busTraced_of_same hbus.1 hbus.2.1

theorem uCtlIter_busTraced : uCtlIter.Keeps BusTraced := by
  refine calls_keeps fun m hm => ?_
  simp only [List.mem_cons, List.not_mem_nil, or_false] at hm
  rcases hm with rfl | rfl | rfl | rfl | rfl | rfl | rfl
  · exact (uCtlSetpt_frame nofun).imp fun _ _ => busTraced_of_frame
  · exact uTempRead_busTraced
  · exact (uTempSmoothr_frame nofun nofun nofun).imp fun _ _ => busTraced_of_frame
  · exact (uCtlOvr_frame nofun).imp fun _ _ => busTraced_of_frame
  · exact (uCtlHyst_frame nofun).imp fun _ _ => busTraced_of_frame
  · exact (uCtlStatus_frame nofun nofun nofun).imp fun _ _ => busTraced_of_frame
  · exact once_keeps bitRel_busTraced.refl

theorem uCtlBoot_busTraced : uCtlBoot.Keeps BusTraced := by
  refine calls_keeps fun m hm => ?_
  simp only [List.mem_cons, List.not_mem_nil, or_false] at hm
  rcases hm with rfl | rfl | rfl | rfl
  · exact (uUartInit_frame nofun nofun nofun nofun nofun nofun).imp fun _ _ => busTraced_of_frame
  · exact bitRel_busTraced.toLineRel.busInit
  · exact uTempRead_busTraced
  · exact (uTempPreloadr_frame nofun).imp fun _ _ => busTraced_of_frame

theorem exec_busTraced (h : exec i s = .next t) : BusTraced s t := by
  cases hi : drivesBus i with
  | false =>
    have hbus := (eachRegisterHasItsWriters i s t h).1 hi
    exact busTraced_of_same hbus.1 hbus.2.1
  | true =>
    have hl := bitRel_busTraced.toLineRel
    obtain ⟨m, hm, hk⟩ : ∃ m, microOf i = some m ∧ m.Keeps BusTraced := by
      cases i <;> simp only [drivesBus, Bool.false_eq_true] at hi
      case busInit => exact ⟨_, rfl, hl.busInit⟩
      case busStart => exact ⟨_, rfl, hl.busStart⟩
      case busStop => exact ⟨_, rfl, hl.busStop⟩
      case busWbit b => exact ⟨_, rfl, hl.busWbit b⟩
      case busRbit => exact ⟨_, rfl, bitRel_busTraced.busRbit⟩
      case busWbyte v => exact ⟨_, rfl, bitRel_busTraced.busWbyte v⟩
      case busRbyte a => exact ⟨_, rfl, bitRel_busTraced.busRbyte a⟩
      case tempRead => exact ⟨_, rfl, uTempRead_busTraced⟩
      case ctlIter => exact ⟨_, rfl, uCtlIter_busTraced⟩
      case ctlBoot => exact ⟨_, rfl, uCtlBoot_busTraced⟩
    exact hk.exec hm (fun _ _ hu => hu) h

theorem driveCoil_coilTraced (s : State) (v : Bool) : CoilTraced s (s.driveCoil v) := ⟨[v], rfl, rfl⟩

theorem uCtlHyst_coilTraced : uCtlHyst.Keeps CoilTraced := by
  refine once_keeps fun s => ?_
  simp only [MicroResult.sat_done, hysteresis]
  split <;> split <;> first | exact driveCoil_coilTraced s _ | exact coilTraced_of_same rfl rfl

theorem coilTraced_of_frame (h : Frame (· ≠ .coil) s t) : CoilTraced s t := by
  have hcoil : t.coil = s.coil ∧ t.trace.coil = s.trace.coil := by simpa [Part.Same] using h .coil (by simp)
  exact coilTraced_of_same hcoil.1 hcoil.2

theorem uCtlIter_coilTraced : uCtlIter.Keeps CoilTraced := by
  refine calls_keeps fun m hm => ?_
  simp only [List.mem_cons, List.not_mem_nil, or_false] at hm
  rcases hm with rfl | rfl | rfl | rfl | rfl | rfl | rfl
  · exact (uCtlSetpt_frame nofun).imp fun _ _ => coilTraced_of_frame
  · exact (uTempRead_frame nofun nofun nofun).imp fun _ _ => coilTraced_of_frame
  · exact (uTempSmoothr_frame nofun nofun nofun).imp fun _ _ => coilTraced_of_frame
  · exact (uCtlOvr_frame nofun).imp fun _ _ => coilTraced_of_frame
  · exact uCtlHyst_coilTraced
  · exact (uCtlStatus_frame nofun nofun nofun).imp fun _ _ => coilTraced_of_frame
  · exact once_keeps fun _ => coilTraced_of_same rfl rfl

theorem exec_coilTraced (h : exec i s = .next t) : CoilTraced s t := by
  by_cases hh : i = .ctlHyst
  · subst hh
    exact uCtlHyst_coilTraced.exec rfl (fun _ _ hu => hu) h
  · by_cases hi : i = .ctlIter
    · subst hi
      exact uCtlIter_coilTraced.exec rfl (fun _ _ hu => hu) h
    · have hcoil : t.coil = s.coil ∧ t.trace.coil = s.trace.coil := by
        simpa [Part.Same] using exec_frame h .coil (by simp [writes, hh, hi])
      exact coilTraced_of_same hcoil.1 hcoil.2

/-- What follows the traces keeps their agreement with the outputs. -/
theorem TraceInv.traced (h : TraceInv s) (hb : BusTraced s t) (hc : CoilTraced s t) : TraceInv t := by
  obtain ⟨l, hl, hbus⟩ := hb
  obtain ⟨l', hl', hcoil⟩ := hc
  refine ⟨?_, ?_⟩
  · rw [hcoil, hl', h.coil]
    cases e : l'.getLast? <;> simp [List.getLast?_append, e]
  · rw [hbus, hl, h.bus, replayBus, replayBus, List.foldl_append]

end Traces

/-! ### Replacing a part before an operation or after it -/

section Replace

variable {f : State → State}

/-- An operation commutes with a change that leaves alone what its own micro-steps read or write. -/
theorem microOf_commutes_of_safe (hc : ControlSafe f) {i : Instr} (hs : sendsBytes i = true → SendSafe f)
    (hr : i = .uartAvail ∨ i = .uartRecv → RecvSafe f) (hi : i ≠ .uartInit) (hb : i ≠ .ctlBoot) {m : Micro}
    (hm : microOf i = some m) : Micro.Commutes f m := by
  have hf := hc.toFilterSafe
  have hbus := hc.toBusSafe
  cases i <;> simp only [microOf, Option.some.injEq, reduceCtorEq] at hm <;> subst hm
  case seqNop => exact once_commutes fun _ => rfl
  case seqEnd => exact once_commutes fun _ => rfl
  case uartInit => exact absurd rfl hi
  case uartSend b => exact uUartSend_commutes (hs rfl) b
  case uartAvail => exact uUartAvail_commutes (hr (.inl rfl))
  case uartRecv => exact uUartRecv_commutes (hr (.inr rfl))
  case busInit => exact uBusInit_commutes hbus
  case busStart => exact uBusStart_commutes hbus
  case busStop => exact uBusStop_commutes hbus
  case busWbit b => exact uBusWbit_commutes hbus b
  case busRbit => exact uBusRbit_commutes hbus
  case busWbyte v => exact uBusWbyte_commutes hbus v
  case busRbyte a => exact uBusRbyte_commutes hbus a
  case tempRead => exact uTempRead_commutes hbus
  case tempSmooth x => exact uTempSmooth_commutes hf x
  case tempPreload x => exact uTempPreload_commutes hf x
  case tempSmoothr => exact uTempSmoothr_commutes hf
  case tempPreloadr => exact uTempPreloadr_commutes hf
  case ctlSetpt => exact uCtlSetpt_commutes hc
  case ctlOvr => exact uCtlOvr_commutes hc
  case ctlHyst => exact uCtlHyst_commutes hc
  case ctlStatus => exact uCtlStatus_commutes hc (hs rfl)
  case ctlSleep => exact uCtlSleep_commutes
  case ctlIter => exact uCtlIter_commutes hc (hs rfl)
  case ctlBoot => exact absurd rfl hb

theorem exec_commutes_of_safe (hc : ControlSafe f) (hseq : ∀ t, (f t).seq = t.seq)
    (hset : ∀ t q, (f t).setSeq q = f (t.setSeq q)) {i : Instr} (he : i.isEvent = false)
    (hs : sendsBytes i = true → SendSafe f) (hr : i = .uartAvail ∨ i = .uartRecv → RecvSafe f) (hi : i ≠ .uartInit)
    (hb : i ≠ .ctlBoot) (s : State) : exec i (f s) = mapNext f (exec i s) := by
  cases hm : microOf i with
  | some m =>
    rw [exec_eq_runFg hm, exec_eq_runFg hm]
    exact runFg_commutes (microOf_commutes_of_safe hc hs hr hi hb hm) hseq hset s
  | none =>
    cases i <;> simp only [microOf, reduceCtorEq, Instr.isEvent, Bool.true_eq_false] at hm he
    case seqJmp a =>
      simp only [exec, execSeqJmp, hseq, hset]
      split <;> rfl

variable (q : Ring)

theorem controlSafe_setRx : ControlSafe fun s => s.setRx q where
  tmp _ := rfl
  setTmp _ _ := rfl
  res _ _ := rfl
  getRes _ := rfl
  setRaw _ := rfl
  emit _ _ := rfl
  bus _ := rfl
  setBus _ _ := rfl
  env _ := rfl
  cfg _ := rfl
  smooth _ := rfl
  setSmooth _ _ := rfl
  raw _ := rfl
  mean _ := rfl
  lat _ := rfl
  setLat _ _ := rfl
  coil _ := rfl
  driveCoil _ _ := rfl

theorem controlSafe_setTx : ControlSafe fun s => s.setTx q where
  tmp _ := rfl
  setTmp _ _ := rfl
  res _ _ := rfl
  getRes _ := rfl
  setRaw _ := rfl
  emit _ _ := rfl
  bus _ := rfl
  setBus _ _ := rfl
  env _ := rfl
  cfg _ := rfl
  smooth _ := rfl
  setSmooth _ _ := rfl
  raw _ := rfl
  mean _ := rfl
  lat _ := rfl
  setLat _ _ := rfl
  coil _ := rfl
  driveCoil _ _ := rfl

theorem sendSafe_setRx : SendSafe fun s => s.setRx q :=
  { (controlSafe_setRx q).toBusSafe with
    tx := fun _ => rfl, setTx := fun _ _ => rfl, ctl := fun _ => rfl, setCtl := fun _ _ => rfl }

theorem recvSafe_setTx : RecvSafe fun s => s.setTx q :=
  { (controlSafe_setTx q).toBusSafe with rx := fun _ => rfl, setRx := fun _ _ => rfl, ctl := fun _ => rfl }

theorem txrHandler_setRx (s : State) : txrHandler (s.setRx q) = (txrHandler s).setRx q := by
  by_cases h : s.tx.head = s.tx.tail
  · rw [txrHandler_of_empty h, txrHandler_of_empty (s := s.setRx q) h]; rfl
  · rw [txrHandler_of_nonempty h, txrHandler_of_nonempty (s := s.setRx q) h]; rfl

theorem rxcHandler_setTx (s : State) : rxcHandler (s.setTx q) = (rxcHandler s).setTx q := by
  simp only [rxcHandler, State.setTx_ser]
  split <;> rfl

theorem tickHandler_setRx (s : State) : tickHandler (s.setRx q) = (tickHandler s).setRx q := by
  by_cases h : s.tick.ms.toNat = 999
  · rw [tickHandler_of_last h, tickHandler_of_last (s := s.setRx q) h]; rfl
  · rw [tickHandler_of_not_last h, tickHandler_of_not_last (s := s.setRx q) h]; rfl

theorem tickHandler_setTx (s : State) : tickHandler (s.setTx q) = (tickHandler s).setTx q := by
  by_cases h : s.tick.ms.toNat = 999
  · rw [tickHandler_of_last h, tickHandler_of_last (s := s.setTx q) h]; rfl
  · rw [tickHandler_of_not_last h, tickHandler_of_not_last (s := s.setTx q) h]; rfl

/-- Only the receive side's operations read or write the receive ring. -/
theorem exec_setRx {i : Instr} (h1 : ∀ d, i ≠ .evtRxc d) (h2 : i ≠ .uartInit) (h3 : i ≠ .uartAvail) (h4 : i ≠ .uartRecv)
    (h5 : i ≠ .ctlBoot) (s : State) : exec i (s.setRx q) = mapNext (fun t => t.setRx q) (exec i s) := by
  cases he : i.isEvent with
  | false =>
    exact exec_commutes_of_safe (controlSafe_setRx q) (fun _ => rfl) (fun _ _ => rfl) he (fun _ => sendSafe_setRx q)
      (fun h => (h.elim h3 h4).elim) h2 h5 s
  | true =>
    cases i <;> simp only [Instr.isEvent, Bool.false_eq_true] at he
    case evtRxc d => exact absurd rfl (h1 d)
    case evtTxr => exact takeEvent_commutes (txrHandler_setRx q) (txrEnabled s) s
    case evtTick => exact takeEvent_commutes (tickHandler_setRx q) (tickEnabled s) s

/-- Only the transmit side's operations read or write the transmit ring. -/
theorem exec_setTx {i : Instr} (h1 : i ≠ .evtTxr) (h2 : i ≠ .uartInit) (h3 : sendsBytes i = false) (h4 : i ≠ .ctlBoot)
    (s : State) : exec i (s.setTx q) = mapNext (fun t => t.setTx q) (exec i s) := by
  cases he : i.isEvent with
  | false =>
    exact exec_commutes_of_safe (controlSafe_setTx q) (fun _ => rfl) (fun _ _ => rfl) he
      (fun h => absurd h (by simp [h3])) (fun _ => recvSafe_setTx q) h2 h4 s
  | true =>
    cases i <;> simp only [Instr.isEvent, Bool.false_eq_true] at he
    case evtRxc d => exact takeEvent_commutes (rxcHandler_setTx q) (rxcEnabled d s) s
    case evtTxr => exact absurd rfl h1
    case evtTick => exact takeEvent_commutes (tickHandler_setTx q) (tickEnabled s) s

/-- The coil, the rings and the decoded inputs replaced. -/
def State.withActuator (coil ov : Bool) (sp : BitVec 6) (rx tx : Ring) (s : State) : State :=
  { s with coil := coil, rx := rx, tx := tx, lat := { s.lat with sp := sp, ov := ov } }

/-- The filter reads no part of the actuator's side (R195). -/
theorem filterSafe_withActuator (coil ov : Bool) (sp : BitVec 6) (rx tx : Ring) :
    FilterSafe (State.withActuator coil ov sp rx tx) where
  tmp _ := rfl
  setTmp _ _ := rfl
  res _ _ := rfl
  getRes _ := rfl
  setRaw _ := rfl
  emit _ _ := rfl
  bus _ := rfl
  setBus _ _ := rfl
  env _ := rfl
  cfg _ := rfl
  smooth _ := rfl
  setSmooth _ _ := rfl
  raw _ := rfl
  mean _ := rfl

end Replace

/-! ### The obligations -/

/-- Settles O39: what an operation adds to a trace is what it does to the output. -/
theorem tracesAgreeWithOutputs : Obligations.TracesAgreeWithOutputs := by
  unfold Obligations.TracesAgreeWithOutputs
  intro s t hs h
  have hs' : TraceInv (s.setSched s.sched.tail) := ⟨hs.coil, hs.bus⟩
  rcases step_next h with ⟨i, -, -, -, hx⟩ | ⟨w, i, -, -, -, hx⟩ | ⟨e, -, rfl⟩
  · exact hs'.traced (exec_busTraced hx) (exec_coilTraced hx)
  · exact hs'.traced (exec_busTraced hx) (exec_coilTraced hx)
  · rw [envStep_frame]
    exact ⟨hs.coil, hs.bus⟩

/-- Settles O28: replacing a ring commutes with every operation not of its side. -/
theorem ringsAreIndependent : Obligations.RingsAreIndependent := by
  unfold Obligations.RingsAreIndependent
  refine fun i s => ⟨fun q h1 h2 h3 h4 h5 => exec_setRx q h1 h2 h3 h4 h5 s, fun q h1 h2 h3 h4 h5 h6 => exec_setTx q h1 h2 ?_ h6 s⟩
  cases i
  case uartSend b => exact absurd rfl (h3 b)
  case ctlStatus => exact absurd rfl h4
  case ctlIter => exact absurd rfl h5
  all_goals rfl

/-- Settles O44: the temperature family commutes with a replacement of the coil, the rings, the setpoint and the override. -/
theorem filterHasNoFeedback : Obligations.FilterHasNoFeedback := by
  unfold Obligations.FilterHasNoFeedback
  intro i s coil ov sp rx tx hi
  have hf := filterSafe_withActuator coil ov sp rx tx
  obtain ⟨m, hm, hcomm⟩ : ∃ m, microOf i = some m ∧ m.Commutes (State.withActuator coil ov sp rx tx) := by
    rcases hi with rfl | rfl | rfl | ⟨x, rfl⟩ | ⟨x, rfl⟩
    · exact ⟨_, rfl, uTempRead_commutes hf.toBusSafe⟩
    · exact ⟨_, rfl, uTempSmoothr_commutes hf⟩
    · exact ⟨_, rfl, uTempPreloadr_commutes hf⟩
    · exact ⟨_, rfl, uTempSmooth_commutes hf x⟩
    · exact ⟨_, rfl, uTempPreload_commutes hf x⟩
  rw [exec_eq_runFg hm, exec_eq_runFg hm]
  exact runFg_commutes hcomm (fun _ => rfl) (fun _ _ => rfl) s

end Sys2Proof.Machine
end

