-- ==== Sys2Proof/Proofs/BusRuns.lean ====
section
/-! PROOFS. Whole runs of the two-wire bus master (41_two_wire_bus_master.md R154 to R163, 42_acquisition_smoothing.md R190): an
operation played against a slave that moves at given instants. A slave that holds its level is one that sets it to what it is. -/

namespace Sys2Proof.Machine

/-! ### Running the machine -/

theorem runSteps_succ (n : Nat) {s t : State} (h : step s = .next t) : runSteps (n + 1) s = runSteps n t := by
  have h' : Sys2Proof.core.step s = .next t := h
  simp only [runSteps, Host.Core.run, h']
  rfl

theorem runSteps_one {s t : State} (h : step s = .next t) : runSteps 1 s = .next t := runSteps_succ 0 h

/-! ### An operation against a slave -/

/-- The slave sets its level of the data line (R152). -/
def State.withSlave (s : State) (level : Bool) : State := s.setEnv { s.env with sdaSlv := level }

/-- A step of the machine in which the slave sets its level. -/
abbrev slaveSets (level : Bool) : SchedItem := .env (.sdaSlv level)

/-- n micro-steps of the foreground. -/
abbrev fgs (n : Nat) : List SchedItem := List.replicate n .fg

theorem fgs_add (m n : Nat) : fgs (m + n) = fgs m ++ fgs n := List.replicate_add m n SchedItem.fg

/-- The micro-steps of m from a position, with the slave's moves between them as the schedule says, end in t. -/
inductive Micro.Plays (m : Micro) : List Nat → State → List SchedItem → State → Prop where
  | last {p : List Nat} {s t : State} : m p s = .done t → Micro.Plays m p s [SchedItem.fg] t
  | more {p p' : List Nat} {s s' t : State} {l : List SchedItem} :
      m p s = .more p' s' → Micro.Plays m p' s' l t → Micro.Plays m p s (SchedItem.fg :: l) t
  | slave {p : List Nat} {s t : State} {b : Bool} {l : List SchedItem} :
      Micro.Plays m p (s.withSlave b) l t → Micro.Plays m p s (slaveSets b :: l) t

theorem Micro.keeps_of_forall {P : State → State → Prop} {m : Micro} (h : ∀ s t, P s t) : m.Keeps P := by
  intro pos s
  cases m pos s
  case more | done => exact h _ _
  all_goals trivial

section Plays

variable {M m : Micro} {p p' : List Nat} {s t t' u : State} {l l' : List SchedItem}

theorem Micro.Runs.plays {n : Nat} (h : m.Runs p s n t) : m.Plays p s (fgs n) t := by
  induction h with
  | last e => exact .last e
  | more e _ ih => exact .more e ih

theorem Micro.Plays.begin_ne (hm : m.Begins) (h : m.Plays p s l t) : p ≠ [] := by
  rintro rfl
  generalize hp : ([] : List Nat) = p at h
  induction h with
  | last e => subst hp; rw [hm] at e; cases e
  | more e _ _ => subst hp; rw [hm] at e; cases e
  | slave _ ih => exact ih hp

/-- A call that the caller goes on from: the callee's play, then the caller's. `I` is what the call's form may rest on. -/
theorem Micro.Plays.inCall {k : Nat} {I : State → Prop} {cont : State → MicroResult}
    (hM : ∀ q s, q ≠ [] → I s → M (k :: q) s = callAt k q m s cont) (hI : m.Keeps fun s t => I s → I t)
    (hS : ∀ s b, I s → I (s.withSlave b)) (hm : m.Begins) (h : m.Plays p s l t) (hs : I s) (hk : cont t = .more p' t')
    (r : M.Plays p' t' l' u) : M.Plays (k :: p) s (l ++ l') u := by
  induction h with
  | @last p s t e =>
    have hp : p ≠ [] := (Plays.last e).begin_ne hm
    exact .more (by rw [hM p s hp hs, callAt, if_neg hp, e]; exact hk) r
  | @more p q s s' t l e h ih =>
    have hp : p ≠ [] := (Plays.more e h).begin_ne hm
    have hs' : I s' := by
      have := hI p s
      rw [e] at this
      exact this hs
    exact .more (by rw [hM p s hp hs, callAt, if_neg hp, e]) (ih hs' hk)
  | slave _ ih => exact .slave (ih (hS _ _ hs) hk)

/-- The caller's last call. -/
theorem Micro.Plays.inLastCall {k : Nat} {I : State → Prop} {cont : State → MicroResult}
    (hM : ∀ q s, q ≠ [] → I s → M (k :: q) s = callAt k q m s cont) (hI : m.Keeps fun s t => I s → I t)
    (hS : ∀ s b, I s → I (s.withSlave b)) (hm : m.Begins) (h : m.Plays p s l t) (hs : I s) (hk : cont t = .done u) :
    M.Plays (k :: p) s l u := by
  induction h with
  | @last p s t e =>
    have hp : p ≠ [] := (Plays.last e).begin_ne hm
    exact .last (by rw [hM p s hp hs, callAt, if_neg hp, e]; exact hk)
  | @more p q s s' t l e h ih =>
    have hp : p ≠ [] := (Plays.more e h).begin_ne hm
    have hs' : I s' := by
      have := hI p s
      rw [e] at this
      exact this hs
    exact .more (by rw [hM p s hp hs, callAt, if_neg hp, e]) (ih hs' hk)
  | slave _ ih => exact .slave (ih (hS _ _ hs) hk)

/-- A play may be begun at another position, if that comes to the same first micro-step after a change that does not concern the
slave. -/
theorem Micro.Plays.ofSame {f : State → State} (e : ∀ s, m p s = m p' (f s))
    (hf : ∀ s b, f (s.withSlave b) = (f s).withSlave b) (h : m.Plays p' (f s) l t) : m.Plays p s l t := by
  generalize hx : f s = x at h
  generalize hq : p' = q at h
  induction h generalizing s with
  | last h => subst hx hq; exact .last ((e s).trans h)
  | more h r _ => subst hx hq; exact .more ((e s).trans h) r
  | @slave q x t b l _ ih =>
    subst hx
    exact .slave (ih (hf s b) hq)

/-- Where the slave only ever sets the level it has, the play is a run of the foreground alone. -/
theorem Micro.Plays.runs_of_held (hk : m.Keeps FgKeeps) (h : m.Plays p s l t)
    (hl : ∀ b, slaveSets b ∈ l → b = s.env.sdaSlv) : m.Runs p s (l.count SchedItem.fg) t := by
  induction h with
  | last e => exact .last e
  | @more p q s s' t l e _ ih =>
    have henv : s'.env = s.env := by
      have := hk p s
      rw [e] at this
      exact this.env
    rw [List.count_cons_self]
    exact .more e (ih fun b hb => henv ▸ hl b (List.mem_cons_of_mem _ hb))
  | @slave p s t b l _ ih =>
    obtain rfl := hl b List.mem_cons_self
    rw [List.count_cons_of_ne (by simp)]
    exact ih fun b hb => hl b (List.mem_cons_of_mem _ hb)

/-- A play of the command at `PROG[pc]` is a run of the machine whose schedule begins as the play says. -/
theorem Micro.Plays.runSteps {i : Instr} (hi : microOf i = some m)
    (hm : ∀ (q : Sequencer) r, m.Commutes fun s => (s.setSeq q).setSched r) (hk : m.Keeps FgKeeps) (h : m.Plays p s l t)
    (pc : BitVec 8) (rest : List SchedItem) (hc : fgCommand (s.setSeq { pc := pc, ustep := p }) = some i) :
    runSteps l.length ((s.setSeq { pc := pc, ustep := p }).setSched (l ++ rest)) =
      .next ((t.setSeq { pc := pc + 1#8, ustep := [1] }).setSched rest) := by
  induction h with
  | @last p s t e =>
    have hx := hm { pc := pc, ustep := p } rest p s
    simp only [e, MicroResult.map_done] at hx
    have hstep := (step_of_fg (s := (s.setSeq { pc := pc, ustep := p }).setSched (SchedItem.fg :: rest)) (.inr rfl) hc).trans
      ((exec_eq_runFg hi _).trans (runFg_of_done hx))
    exact runSteps_one hstep
  | @more p q s s' t l e _ ih =>
    have hx := hm { pc := pc, ustep := p } (l ++ rest) p s
    simp only [e, MicroResult.map_more] at hx
    have hprog : s'.prog = s.prog := by
      have := hk p s
      rw [e] at this
      exact this.prog
    have hstep := (step_of_fg (s := (s.setSeq { pc := pc, ustep := p }).setSched (.fg :: (l ++ rest))) (.inr rfl) hc).trans
      ((exec_eq_runFg hi _).trans (runFg_of_more hx))
    have hc' : fgCommand (s'.setSeq { pc := pc, ustep := q }) = some i :=
      (fgCommand_congr (s := s.setSeq { pc := pc, ustep := p }) (t := s'.setSeq { pc := pc, ustep := q }) hprog rfl).trans hc
    exact (runSteps_succ l.length hstep).trans (ih hc')
  | @slave p s t b l _ ih =>
    have hstep := step_of_env (s := (s.setSeq { pc := pc, ustep := p }).setSched (slaveSets b :: (l ++ rest))) rfl
    exact (runSteps_succ l.length hstep).trans (ih hc)

end Plays

/-! ### What a stretch of a bus operation does -/

/-- The lines driven as b, the entries traced, `RES`, the slave's level and the temporaries. -/
def State.busRun (s : State) (b : BusDrive) (acts : List BusAct) (res : Byte) (level : Bool) (tmp : Temps) : State :=
  { s with
    bus := b
    trace := { s.trace with bus := s.trace.bus ++ acts }
    lat := { s.lat with res := res }
    env := { s.env with sdaSlv := level }
    tmp := tmp }

section BusRun

variable (s : State) (b b' : BusDrive) (acts acts' : List BusAct) (res res' : Byte) (level level' : Bool) (tmp tmp' : Temps)

@[simp] theorem State.busRun_busRun : (s.busRun b acts res level tmp).busRun b' acts' res' level' tmp' =
    s.busRun b' (acts ++ acts') res' level' tmp' := by
  simp [State.busRun]

@[simp] theorem State.withSlave_busRun : (s.withSlave level).busRun b acts res level' tmp = s.busRun b acts res level' tmp := rfl
@[simp] theorem State.busRun_setTmp : (s.busRun b acts res level tmp).setTmp tmp' = s.busRun b acts res level tmp' := rfl
@[simp] theorem State.setTmp_busRun : (s.setTmp tmp).busRun b acts res level tmp' = s.busRun b acts res level tmp' := rfl
@[simp] theorem State.busRun_setRes : (s.busRun b acts res level tmp).setRes res' = s.busRun b acts res' level tmp := rfl
@[simp] theorem State.busRun_tmp : (s.busRun b acts res level tmp).tmp = tmp := rfl
@[simp] theorem State.busRun_res : (s.busRun b acts res level tmp).lat.res = res := rfl
@[simp] theorem State.busRun_sdaSlv : (s.busRun b acts res level tmp).env.sdaSlv = level := rfl
@[simp] theorem State.busRun_cfg : (s.busRun b acts res level tmp).cfg = s.cfg := rfl
@[simp] theorem State.withSlave_tmp : (s.withSlave level).tmp = s.tmp := rfl
@[simp] theorem State.withSlave_lat : (s.withSlave level).lat = s.lat := rfl
@[simp] theorem State.withSlave_cfg : (s.withSlave level).cfg = s.cfg := rfl
@[simp] theorem State.withSlave_sdaSlv : (s.withSlave level).env.sdaSlv = level := rfl

variable {s} in
theorem straight_runs_of_foldl {us : List (State → State)} {t : State} (h : us ≠ []) (e : us.foldl (fun s u => u s) s = t) :
    (straight us).Runs [1] s us.length t :=
  e ▸ straight_runs us s h

theorem uBusInit_runs : uBusInit.Runs [1] s 6 (s.busRun { scl := true, sda := true }
    [.sdaLow, .sclLow, .delay, .sclRel, .sdaRel, .delay] s.lat.res s.env.sdaSlv s.tmp) := by
  refine straight_runs_of_foldl (by simp) ?_
  simp [State.busRun, sdaLow, sclLow, busDelay, sclRel, sdaRel, State.emitBus, State.setBus, State.setTrace]

theorem uBusStart_runs : uBusStart.Runs [1] s 4
    (s.busRun { scl := false, sda := false } startTrace s.lat.res s.env.sdaSlv s.tmp) := by
  refine straight_runs_of_foldl (by simp) ?_
  simp [State.busRun, sdaLow, sclLow, busDelay, State.emitBus, State.setBus, State.setTrace, startTrace]

theorem uBusStop_runs : uBusStop.Runs [1] s 4 (s.busRun { scl := true, sda := true } stopTrace s.lat.res s.env.sdaSlv s.tmp) := by
  refine straight_runs_of_foldl (by simp) ?_
  simp [State.busRun, sdaRel, sclRel, busDelay, State.emitBus, State.setBus, State.setTrace, stopTrace]

theorem uBusRbit_runs : uBusRbit.Runs [1] s 7 (s.busRun { scl := false, sda := true } (rbitTrace s.env.sdaSlv)
    (byteOfBool s.env.sdaSlv) s.env.sdaSlv { s.tmp with v := s.env.sdaSlv }) := by
  refine straight_runs_of_foldl (by simp) ?_
  simp [State.busRun, sdaRel, sclRel, sclLow, busDelay, sampleSda, State.sdaLevel, resFromSample, State.emitBus, State.setBus,
    State.setTrace, State.setTmp, State.setRes, State.setLat, rbitTrace]

theorem driveData_eq (bit : Bool) : driveData bit s =
    (s.setBus { s.bus with sda := bit }).emitBus (if bit then .sdaRel else .sdaLow) := by
  cases bit <;> rfl

theorem uBusWbit_runs (bit : Byte) : (uBusWbit bit).Runs [1] s 5 (s.busRun { scl := false, sda := bitOperand bit }
    (wbitTrace (bitOperand bit)) s.lat.res s.env.sdaSlv s.tmp) := by
  refine straight_runs_of_foldl (by simp) ?_
  simp [State.busRun, driveData_eq, sclRel, sclLow, busDelay, State.emitBus, State.setBus, State.setTrace, wbitTrace]

/-- The slave answers while the clock is low, before the last micro-step. -/
theorem uBusWbit_plays (bit : Byte) : (uBusWbit bit).Plays [1] s (fgs 4 ++ [slaveSets level, SchedItem.fg])
    (s.busRun { scl := false, sda := bitOperand bit } (wbitTrace (bitOperand bit)) s.lat.res level s.tmp) := by
  refine .more rfl (.more rfl (.more rfl (.more rfl (.slave (.last (congrArg MicroResult.done ?_))))))
  simp [State.busRun, State.withSlave, driveData_eq, sclRel, sclLow, busDelay, State.emitBus, State.setBus, State.setTrace,
    State.setEnv, wbitTrace]

/-- The slave releases the line while the clock is low, after the sample. -/
theorem uBusRbit_plays : uBusRbit.Plays [1] s (fgs 5 ++ slaveSets level :: fgs 2)
    (s.busRun { scl := false, sda := true } (rbitTrace s.env.sdaSlv) (byteOfBool s.env.sdaSlv) level
      { s.tmp with v := s.env.sdaSlv }) := by
  refine .more rfl (.more rfl (.more rfl (.more rfl (.more rfl (.slave (.more rfl (.last (congrArg MicroResult.done ?_))))))))
  simp [State.busRun, State.withSlave, sdaRel, sclRel, sclLow, busDelay, sampleSda, State.sdaLevel, resFromSample, State.emitBus,
    State.setBus, State.setTrace, State.setTmp, State.setRes, State.setLat, State.setEnv, rbitTrace]

end BusRun

/-! ### Eight bits (R159, R160) -/

/-- The bits of v from bit k down to bit 0. -/
def bitsFrom (v : Byte) : Nat → List Bool
  | 0 => [v.getLsbD 0]
  | k + 1 => v.getLsbD (k + 1) :: bitsFrom v k

theorem bitsFrom_seven (v : Byte) : bitsFrom v 7 = bitsMsbFirst v := rfl

/-- A slave that answers the ninth clock of a `BUS.WBYTE` and then leaves the line at a level. -/
def answerSchedule (ack level : Bool) : List SchedItem :=
  fgs 39 ++ slaveSets ack :: fgs 6 ++ slaveSets level :: fgs 2

/-- A slave that presents p to a `BUS.RBYTE` and then leaves the line at a level. -/
def presentSchedule (p : Byte) (level : Bool) : List SchedItem :=
  SchedItem.fg :: ((bitsMsbFirst p).flatMap fun b => slaveSets b :: fgs 7)
    ++ slaveSets level :: fgs 6

section Bytes

theorem bitOperand_byteOfBool (b : Bool) : bitOperand (byteOfBool b) = b := by cases b <;> rfl

/-- The counter of a loop's round but the last. -/
theorem toNat_sub_one {i : BitVec 3} {k : Nat} (h : i.toNat = k + 1) : i ≠ 0#3 ∧ (i - 1#3).toNat = k := by
  have hi := i.isLt
  constructor
  · rintro rfl
    cases h
  · rw [BitVec.toNat_sub, h, BitVec.toNat_ofNat]
    omega

variable {s u : State} {l : List SchedItem} {level : Bool}

/-- The operations a byte loop calls do not move the loop's counter. -/
theorem uBusWbit_keeps_counter (b : Byte) (i : BitVec 3) : (uBusWbit b).Keeps fun s t => s.tmp.i = i → t.tmp.i = i := by
  refine straight_keeps fun w hw s hs => ?_
  simp only [List.mem_cons, List.not_mem_nil, or_false] at hw
  rcases hw with rfl | rfl | rfl | rfl | rfl
  · rw [driveData_eq]
    exact hs
  all_goals exact hs

/-- A round of the loop of `BUS.WBYTE` is the `BUS.WBIT` of the bit the counter names. -/
theorem uBusWbyte_round (v : Byte) (i : BitVec 3) (q : List Nat) (s : State) (hq : q ≠ []) (hi : s.tmp.i = i) :
    uBusWbyte v (1 :: q) s = callAt 1 q (uBusWbit (byteOfBool (bitAt v i))) s fun t =>
      if t.tmp.i = 0#3 then .more [2] t else .more [1, 1] (t.setTmp { t.tmp with i := t.tmp.i - 1#3 }) := by
  subst hi
  cases q with
  | nil => exact absurd rfl hq
  | cons a q => rfl

/-- The rounds for bits k to 0, the slave answering in the last one. -/
theorem uBusWbyte_rounds (v : Byte) (k : Nat) : ∀ s : State, s.tmp.i.toNat = k →
    (uBusWbyte v).Plays [2] (s.busRun { scl := false, sda := v.getLsbD 0 } ((bitsFrom v k).flatMap wbitTrace) s.lat.res level
      { s.tmp with i := 0#3 }) l u →
    (uBusWbyte v).Plays [1, 1] s (fgs (5 * k + 4) ++ [slaveSets level, SchedItem.fg] ++ l) u := by
  induction k with
  | zero =>
    intro s hi h
    have h0 : s.tmp.i = 0#3 := BitVec.eq_of_toNat_eq hi
    refine (uBusWbit_plays s level (byteOfBool (bitAt v s.tmp.i))).inCall (uBusWbyte_round v s.tmp.i)
      (uBusWbit_keeps_counter _ _) (fun _ _ h => h) (straight_begins _) rfl (if_pos h0) ?_
    have htmp : { s.tmp with i := 0#3 } = s.tmp := by rw [← h0]
    rw [htmp] at h
    simpa [bitOperand_byteOfBool, bitAt, bitsFrom, h0] using h
  | succ k ih =>
    intro s hi h
    obtain ⟨hne, hk⟩ := toNat_sub_one hi
    rw [show 5 * (k + 1) + 4 = 5 + (5 * k + 4) by omega, fgs_add, List.append_assoc, List.append_assoc,
      ← List.append_assoc (fgs (5 * k + 4))]
    refine (uBusWbit_runs s (byteOfBool (bitAt v s.tmp.i))).plays.inCall (uBusWbyte_round v s.tmp.i)
      (uBusWbit_keeps_counter _ _) (fun _ _ h => h) (straight_begins _) rfl (if_neg hne) (ih _ hk ?_)
    simpa [bitOperand_byteOfBool, bitAt, bitsFrom, hi] using h

theorem uBusWbyte_plays (v : Byte) (s : State) (ack level : Bool) :
    (uBusWbyte v).Plays [1] s (answerSchedule ack level) (s.busRun { scl := false, sda := true } (wbyteTrace v ack)
      (byteOfBool ack) level { s.tmp with i := 0#3, v := ack }) := by
  have hrounds : answerSchedule ack level = fgs (5 * 7 + 4) ++ [slaveSets ack, SchedItem.fg] ++
      (fgs 5 ++ slaveSets level :: fgs 2) := by
    rw [answerSchedule, fgs_add 1 5]
    simp
  rw [hrounds]
  refine .ofSame (p' := [1, 1]) (f := startBits) (fun _ => rfl) (fun _ _ => rfl) (uBusWbyte_rounds v 7 _ rfl ?_)
  refine .ofSame (p' := [2, 1]) (f := id) (fun _ => rfl) (fun _ _ => rfl) ?_
  refine (uBusRbit_plays _ level).inLastCall (I := fun _ => True) (fun _ _ _ _ => rfl) (Micro.keeps_of_forall fun _ _ => id)
    (fun _ _ => id) (straight_begins _) trivial (congrArg MicroResult.done ?_)
  simp [startBits, bitsFrom_seven, wbyteTrace]

/-- A round of the loop of `BUS.RBYTE` ends with the sampled bit in its place. -/
theorem uBusRbyte_round (a : Byte) (q : List Nat) (s : State) (hq : q ≠ []) (_ : True) :
    uBusRbyte a (2 :: q) s = callAt 2 q uBusRbit s fun t =>
      if (storeBit t).tmp.i = 0#3 then .more [3] (storeBit t)
      else .more [2, 1] ((storeBit t).setTmp { (storeBit t).tmp with i := (storeBit t).tmp.i - 1#3 }) := by
  cases q with
  | nil => exact absurd rfl hq
  | cons a q => rfl

/-- r with its bits from k down those of p. -/
def withLowBits (p : Byte) : Nat → Byte → Byte
  | 0, r => withBit r 0#3 (p.getLsbD 0)
  | k + 1, r => withLowBits p k (withBit r (BitVec.ofNat 3 (k + 1)) (p.getLsbD (k + 1)))

theorem withBit_getLsbD (r : Byte) (i : BitVec 3) (b : Bool) {j : Nat} (hj : j < 8) :
    (withBit r i b).getLsbD j = if j = i.toNat then b else r.getLsbD j := by
  have hmask : (bitMask i).getLsbD j = decide (j = i.toNat) := by
    rw [bitMask, BitVec.getLsbD_shiftLeft, BitVec.getLsbD_one]
    grind
  unfold withBit
  split <;> by_cases h : j = i.toNat <;> simp_all

theorem withLowBits_getLsbD (p : Byte) {j : Nat} (hj : j < 8) (k : Nat) (hk : k < 8) (r : Byte) :
    (withLowBits p k r).getLsbD j = if j ≤ k then p.getLsbD j else r.getLsbD j := by
  induction k generalizing r with
  | zero =>
    rw [withLowBits, withBit_getLsbD _ _ _ hj]
    by_cases h : j = 0 <;> simp [h]
  | succ k ih =>
    have hi : (BitVec.ofNat 3 (k + 1)).toNat = k + 1 := Nat.mod_eq_of_lt hk
    rw [withLowBits, ih (by omega), withBit_getLsbD _ _ _ hj, hi]
    grind

theorem withLowBits_seven (p r : Byte) : withLowBits p 7 r = p :=
  BitVec.eq_of_getLsbD_eq fun j hj => by rw [withLowBits_getLsbD p hj 7 (by decide), if_pos (by omega)]

theorem byteOfBool_getElem_zero (b : Bool) : (byteOfBool b)[0] = b := by cases b <;> rfl

/-- The rounds for bits k to 0 of a `BUS.RBYTE`, the slave presenting each bit of p before its round. -/
theorem uBusRbyte_rounds (p a : Byte) (k : Nat) : ∀ s : State, s.tmp.i.toNat = k →
    (uBusRbyte a).Plays [3] (s.busRun { scl := false, sda := true } ((bitsFrom p k).flatMap rbitTrace)
      (byteOfBool (p.getLsbD 0)) (p.getLsbD 0) { s.tmp with i := 0#3, r := withLowBits p k s.tmp.r, v := p.getLsbD 0 }) l u →
    (uBusRbyte a).Plays [2, 1] s ((bitsFrom p k).flatMap (fun b => slaveSets b :: fgs 7) ++ l) u := by
  induction k with
  | zero =>
    intro s hi h
    have h0 : s.tmp.i = 0#3 := BitVec.eq_of_toNat_eq hi
    refine .slave ((uBusRbit_runs (s.withSlave (p.getLsbD 0))).plays.inCall (uBusRbyte_round a)
      (Micro.keeps_of_forall fun _ _ => id) (fun _ _ => id) (straight_begins _) trivial (if_pos h0) ?_)
    simpa [storeBit, byteOfBool_getElem_zero, bitsFrom, withLowBits, h0] using h
  | succ k ih =>
    intro s hi h
    obtain ⟨hne, hk⟩ := toNat_sub_one hi
    have hi' : s.tmp.i = BitVec.ofNat 3 (k + 1) := by rw [← hi, BitVec.ofNat_toNat, BitVec.setWidth_eq]
    rw [bitsFrom, List.flatMap_cons, List.append_assoc]
    refine .slave ((uBusRbit_runs (s.withSlave (p.getLsbD (k + 1)))).plays.inCall (uBusRbyte_round a)
      (Micro.keeps_of_forall fun _ _ => id) (fun _ _ => id) (straight_begins _) trivial (if_neg hne) (ih _ hk ?_))
    simpa [storeBit, byteOfBool_getElem_zero, bitsFrom, withLowBits, hi'] using h

theorem uBusRbyte_plays (p a : Byte) (s : State) (level : Bool) :
    (uBusRbyte a).Plays [1] s (presentSchedule p level) (s.busRun { scl := false, sda := bitOperand a }
      (rbyteTrace p (bitOperand a)) p level { s.tmp with i := 0#3, r := p, v := p.getLsbD 0 }) := by
  have hrounds : presentSchedule p level = SchedItem.fg :: ((bitsFrom p 7).flatMap (fun b => slaveSets b :: fgs 7) ++
      slaveSets level :: (fgs 5 ++ [SchedItem.fg])) := by
    rw [presentSchedule, bitsFrom_seven, fgs_add 5 1]
    rfl
  rw [hrounds]
  refine .more rfl (.ofSame (p' := [2, 1]) (f := startBits) (fun _ => rfl) (fun _ _ => rfl) (uBusRbyte_rounds p a 7 _ rfl ?_))
  refine .slave (.ofSame (p' := [3, 1]) (f := id) (fun _ => rfl) (fun _ _ => rfl) ?_)
  refine (uBusWbit_runs _ (byteOfBool (bitOperand a))).plays.inCall (I := fun _ => True) (fun _ _ _ _ => rfl)
    (Micro.keeps_of_forall fun _ _ => id) (fun _ _ => id) (straight_begins _) trivial rfl (.last (congrArg MicroResult.done ?_))
  simp [startBits, bitsFrom_seven, rbyteTrace, bitOperand_byteOfBool, withLowBits_seven]

end Bytes

/-! ### The whole reading (R190) -/

/-- A slave that answers the address of a `TEMP.READ` and then presents p. -/
def answerAndPresent (ack level : Bool) (p : Byte) (level' : Bool) : List SchedItem :=
  fgs 4 ++ answerSchedule ack level ++ presentSchedule p level' ++ fgs 5

theorem uTempRead_plays (s : State) (ack level : Bool) (p : Byte) (level' : Bool) : ∃ tmp,
    uTempRead.Plays [1] s (answerAndPresent ack level p level')
      (latchRaw (s.busRun { scl := true, sda := true } (readTrace s.cfg.slaveReadAddr ack p) p level' tmp)) := by
  refine ⟨{ s.tmp with i := 0#3, r := p, v := p.getLsbD 0 }, ?_⟩
  rw [answerAndPresent, fgs_add 4 1, List.append_assoc, List.append_assoc]
  refine .ofSame (p' := [1, 1]) (f := id) (fun _ => rfl) (fun _ _ => rfl) ?_
  refine (uBusStart_runs s).plays.inCall (I := fun _ => True) (fun _ _ _ _ => rfl) (Micro.keeps_of_forall fun _ _ => id)
    (fun _ _ => id) (straight_begins _) trivial rfl ?_
  refine .ofSame (p' := [2, 1]) (f := id) (fun _ => rfl) (fun _ _ => rfl) ?_
  refine (uBusWbyte_plays s.cfg.slaveReadAddr _ ack level).inCall (I := fun t => t.cfg.slaveReadAddr = s.cfg.slaveReadAddr)
    (fun q t _ ht => by rw [← ht]; rfl) (fun pos t => ((uBusWbyte_keeps _) pos t).imp fun u hu => ?_) (fun _ _ => id)
    (fun _ => rfl) rfl rfl ?_
  · exact fun ht => (congrArg Config.slaveReadAddr hu.cfg).trans ht
  refine .ofSame (p' := [3, 1]) (f := id) (fun _ => rfl) (fun _ _ => rfl) ?_
  refine (uBusRbyte_plays p 1#8 _ level').inCall (I := fun _ => True) (fun _ _ _ _ => rfl) (Micro.keeps_of_forall fun _ _ => id)
    (fun _ _ => id) (fun _ => rfl) trivial rfl ?_
  refine .ofSame (p' := [4, 1]) (f := id) (fun _ => rfl) (fun _ _ => rfl) ?_
  refine (uBusStop_runs _).plays.inCall (I := fun _ => True) (fun _ _ _ _ => rfl) (Micro.keeps_of_forall fun _ _ => id)
    (fun _ _ => id) (straight_begins _) trivial rfl (.last (congrArg MicroResult.done (congrArg latchRaw ?_)))
  simp [readTrace]
  rfl

/-! ### Against a slave that holds its level -/

section Held

variable {i : Instr} {m : Micro} {s t : State} {l rest : List SchedItem}

theorem execTimes_of_runs {n : Nat} {p : List Nat} (hi : microOf i = some m) (h : m.Runs p s n t) (hp : s.seq.ustep = p)
    (hseq : t.seq = s.seq) : execTimes n i s = .next t.finished := by
  have hx := h.execTimes hi (microOf_seqFree hi) s.seq.pc
  have hs : s.setSeq { pc := s.seq.pc, ustep := p } = s := s.goesTo_self hp
  rw [hs] at hx
  rw [hx, State.finished, hseq]
  rfl

theorem runSteps_of_plays (hi : microOf i = some m) (hm : ∀ (q : Sequencer) r, m.Commutes fun s => (s.setSeq q).setSched r)
    (h : m.Plays [1] s l t) (hc : fgCommand s = some i) (hp : s.seq.ustep = [1]) (hs : s.sched = l ++ rest)
    (hseq : t.seq = s.seq) : runSteps l.length s = .next (t.finished.setSched rest) := by
  have hx := h.runSteps hi hm (microOf_keeps hi) s.seq.pc rest hc
  have hs : (s.setSeq { pc := s.seq.pc, ustep := [1] }).setSched (l ++ rest) = s := by
    rw [← hs]
    exact s.goesTo_self hp
  rw [hs] at hx
  rw [hx, State.finished, hseq]
  rfl

theorem busSafe_setSeq_setSched (q : Sequencer) (r : List SchedItem) : BusSafe fun s => (s.setSeq q).setSched r :=
  ⟨fun _ => rfl, fun _ _ => rfl, fun _ _ => rfl, fun _ => rfl, fun _ => rfl, fun _ _ => rfl, fun _ => rfl, fun _ _ => rfl,
    fun _ => rfl, fun _ => rfl⟩

theorem held_answer (level : Bool) : ∀ b, slaveSets b ∈ answerSchedule level level → b = level := by
  simp [answerSchedule]

theorem held_present (level : Bool) : ∀ b, slaveSets b ∈ presentSchedule (constantByte level) level → b = level := by
  cases level <;> simp [presentSchedule, constantByte, bitsMsbFirst]

theorem uBusWbyte_runs (v : Byte) (s : State) : (uBusWbyte v).Runs [1] s 47 (s.busRun { scl := false, sda := true }
    (wbyteTrace v s.env.sdaSlv) (byteOfBool s.env.sdaSlv) s.env.sdaSlv { s.tmp with i := 0#3, v := s.env.sdaSlv }) :=
  (uBusWbyte_plays v s s.env.sdaSlv s.env.sdaSlv).runs_of_held (uBusWbyte_keeps v) (held_answer _)

theorem uBusRbyte_runs (a : Byte) (s : State) : ∃ tmp, (uBusRbyte a).Runs [1] s 63 (s.busRun
    { scl := false, sda := bitOperand a } (rbyteTrace (constantByte s.env.sdaSlv) (bitOperand a)) (constantByte s.env.sdaSlv)
      s.env.sdaSlv tmp) :=
  ⟨_, (uBusRbyte_plays (constantByte s.env.sdaSlv) a s s.env.sdaSlv).runs_of_held (uBusRbyte_keeps a) (held_present _)⟩

theorem uTempRead_runs (s : State) : ∃ tmp, uTempRead.Runs [1] s 119 (latchRaw (s.busRun { scl := true, sda := true }
    (readTrace s.cfg.slaveReadAddr s.env.sdaSlv (constantByte s.env.sdaSlv)) (constantByte s.env.sdaSlv) s.env.sdaSlv tmp)) := by
  obtain ⟨tmp, h⟩ := uTempRead_plays s s.env.sdaSlv s.env.sdaSlv (constantByte s.env.sdaSlv) s.env.sdaSlv
  refine ⟨tmp, h.runs_of_held uTempRead_keeps fun b hb => ?_⟩
  simp only [answerAndPresent, List.mem_append, List.mem_replicate, reduceCtorEq, and_false, false_or, or_false] at hb
  exact hb.elim (held_answer _ b) (held_present _ b)

end Held

/-! ### Prefixes of a run -/

section Prefix

variable {i : Instr} {m : Micro} {s t : State}

theorem execTimes_add (n k : Nat) (h : execTimes (n + k) i s = .next t) :
    ∃ u, execTimes n i s = .next u ∧ execTimes k i u = .next t := by
  induction n generalizing s with
  | zero => exact ⟨s, rfl, by rwa [Nat.zero_add] at h⟩
  | succ n ih =>
    rw [Nat.add_right_comm, execTimes] at h
    cases hx : exec i s with
    | next s' =>
      rw [hx] at h
      rw [execTimes, hx]
      exact ih h
    | fault r => rw [hx] at h; cases h
    | refused r => rw [hx] at h; cases h

theorem execTimes_keeps {P : State → Prop} (h : ∀ s t, exec i s = .next t → P s → P t) {n : Nat}
    (hx : execTimes n i s = .next t) (hs : P s) : P t := by
  induction n generalizing s with
  | zero => cases hx; exact hs
  | succ n ih =>
    rw [execTimes] at hx
    split at hx
    next s' hs' => exact ih hx (h s s' hs' hs)
    next => rename_i hne; exact absurd hx (hne t)

end Prefix

/-! ### What the traces hold -/

theorem bitOperand_eq_decide (a : Byte) : bitOperand a = decide (a ≠ 0#8) := by
  by_cases h : a = 0#8 <;> simp [bitOperand, h]

theorem count_delay_wbitTrace (bit : Bool) : (wbitTrace bit).count .delay = 2 := by cases bit <;> rfl

theorem count_delay_rbitTrace (v : Bool) : (rbitTrace v).count .delay = 2 := by cases v <;> rfl

/-- An echo slave records the bit that a `BUS.WBIT` drives. -/
theorem echoRecord_wbitTrace (b : BusDrive) (hb : b.scl = false) (bit : Bool) (l : List BusAct) :
    echoRecord b (wbitTrace bit ++ l) = bit :: echoRecord { scl := false, sda := bit } l := by
  cases bit <;> simp [wbitTrace, echoRecord, replayAct, hb]

theorem echoRecord_rbitTrace (b : BusDrive) (hb : b.scl = false) (v : Bool) : echoRecord b (rbitTrace v) = [true] := by
  simp [rbitTrace, echoRecord, replayAct, hb]

theorem echoRecord_wbitTraces (bits : List Bool) (b : BusDrive) (hb : b.scl = false) (v : Bool) :
    echoRecord b (bits.flatMap wbitTrace ++ rbitTrace v) = bits ++ [true] := by
  induction bits generalizing b with
  | nil => exact echoRecord_rbitTrace b hb v
  | cons bit bits ih => rw [List.flatMap_cons, List.append_assoc, echoRecord_wbitTrace b hb, ih _ rfl, List.cons_append]

/-! ### The obligations -/

/-- Settles O33: the lists of line actions in order; a released data line stays released in each of the actions of `BUS.STOP`. -/
theorem busFramingRuns : Obligations.BusFramingRuns := by
  unfold Obligations.BusFramingRuns
  intro s hp
  have hstop := execTimes_of_runs (i := .busStop) rfl (uBusStop_runs s) hp rfl
  refine ⟨execTimes_of_runs rfl (uBusInit_runs s) hp rfl, execTimes_of_runs rfl (uBusStart_runs s) hp rfl, hstop,
    fun hb n hn => ?_⟩
  have hkeeps : uBusStop.Keeps fun s t => s.bus.sda = true → t.bus.sda = true :=
    straight_keeps (by simp [sclRel, sdaRel, busDelay, State.emitBus])
  obtain ⟨t, ht, -⟩ := execTimes_add n (4 - n) (by rwa [Nat.add_sub_cancel' hn])
  refine ⟨t, ht, execTimes_keeps (P := fun u => u.bus.sda = true) (fun u v huv hu => ?_) ht (by rw [hb])⟩
  obtain ⟨v', hv', ⟨p, rfl⟩ | rfl⟩ := hkeeps.runFg huv
  · exact hv' hu
  · exact hv' hu

/-- Settles O36: the eight rounds and the ninth clock, played against the slave's answer. -/
theorem writeByteRuns : Obligations.WriteByteRuns := by
  unfold Obligations.WriteByteRuns
  intro v s hp
  refine ⟨⟨_, execTimes_of_runs rfl (uBusWbyte_runs v s) hp rfl, rfl⟩, fun ack rest hc hs => ?_, rfl,
    fun hb => echoRecord_wbitTraces _ _ hb _⟩
  exact ⟨_, runSteps_of_plays rfl (fun q r => uBusWbyte_commutes (busSafe_setSeq_setSched q r) v)
    (uBusWbyte_plays v s ack true) hc hp hs rfl, rfl⟩

/-- Settles O37: a slave that holds its level presents the constant byte. -/
theorem readByteRunsOnSteadyLine : Obligations.ReadByteRunsOnSteadyLine := by
  unfold Obligations.ReadByteRunsOnSteadyLine
  intro a s hp
  obtain ⟨tmp, h⟩ := uBusRbyte_runs a s
  rw [← bitOperand_eq_decide]
  exact ⟨⟨_, execTimes_of_runs rfl h hp rfl, rfl⟩, rfl⟩

/-- Settles O38: round k stores the slave's bit in bit k of r. -/
theorem readByteReconstructsPattern : Obligations.ReadByteReconstructsPattern := by
  unfold Obligations.ReadByteReconstructsPattern
  intro p a s rest hc hp hs
  rw [← bitOperand_eq_decide]
  exact ⟨_, runSteps_of_plays rfl (fun q r => uBusRbyte_commutes (busSafe_setSeq_setSched q r) a)
    (uBusRbyte_plays p a s true) hc hp hs rfl, rfl⟩

/-- Settles O40: the four calls and the latch, played against the slave. -/
theorem temperatureReadRuns : Obligations.TemperatureReadRuns := by
  unfold Obligations.TemperatureReadRuns
  intro s hp
  obtain ⟨tmp, h⟩ := uTempRead_runs s
  refine ⟨⟨_, execTimes_of_runs rfl h hp rfl, rfl⟩, fun ack p rest hc hs => ?_, rfl, ?_⟩
  · obtain ⟨tmp, h⟩ := uTempRead_plays s ack true p true
    exact ⟨_, runSteps_of_plays rfl (fun q r => uTempRead_commutes (busSafe_setSeq_setSched q r)) h hc hp hs rfl, rfl⟩
  · simp [readTrace, startTrace, stopTrace, wbyteTrace, rbyteTrace, bitsMsbFirst, count_delay_wbitTrace, count_delay_rbitTrace]

end Sys2Proof.Machine
end

