-- ==== Sys2Proof/Proofs/Composites.lean ====
section
/-! PROOFS. The composite operations (30_encoding.md R97): a micro-step of one is its callee's micro-step in place, as
`exec` shows both. -/

namespace Sys2Proof.Machine

/-! ### A call, seen through exec -/

/-- What the sequencer makes of a micro-step (R221). -/
def MicroResult.result : MicroResult → Result
  | .more p s => .next (s.goesTo p)
  | .done s => .next s.finished
  | .refuse r => .refused r
  | .stray => .fault .strayMicroStep

theorem runFg_eq_result (m : Micro) (s : State) : runFg m s = (m s.seq.ustep s).result := by
  unfold runFg
  cases m s.seq.ustep s <;> rfl

/-- A callee's step seen from the call at micro-step k: while the callee goes on, its position is put after the caller's; when it is
done, the caller goes on as `after` says. -/
def inCall (k : Nat) (s : State) (after : State → Result) : Result → Result
  | .next t => if t.seq.pc = s.seq.pc then .next (t.goesTo (k :: t.seq.ustep)) else after t
  | .fault f => .fault f
  | .refused r => .refused r

theorem inCall_asCall (n len : Nat) (s : State) : asCall n len s = inCall n s fun t =>
    if n = len then .next t else .next { t with seq := { pc := s.seq.pc, ustep := [n + 1] } } := by
  funext r
  cases r <;> rfl

theorem inCall_asLoopCall (n : Nat) (body : State → State) (s : State) : asLoopCall n body s = inCall n s fun t =>
    if t.tmp.i = 0#3 then .next { body t with seq := { pc := s.seq.pc, ustep := [n + 1] } }
    else .next { body t with
      tmp := { (body t).tmp with i := t.tmp.i - 1#3 }, seq := { pc := s.seq.pc, ustep := [n, 1] } } := by
  funext r
  cases r <;> rfl

section Call

variable {caller c : Instr} {M m : Micro} {s : State} {k : Nat} {p q : List Nat} {cont : State → MicroResult}
  {after : State → Result}

/-- A micro-step of a caller that is a call, through exec: no operation reads the sequencer's registers, so the callee does at its
own position what it does inside the caller. -/
theorem exec_call (hM : microOf caller = some M) (hm : microOf c = some m) (hq : (if p = [] then [1] else p) = q)
    (h : M (k :: p) (s.goesTo (k :: p)) = callAt k p m (s.goesTo (k :: p)) cont)
    (hcont : ∀ t : State, (cont (t.setSeq { pc := s.seq.pc, ustep := k :: p })).result =
      after (t.setSeq { pc := s.seq.pc + 1#8, ustep := [1] })) :
    exec caller (s.goesTo (k :: p)) = inCall k s after (exec c (s.goesTo q)) := by
  have hfree := microOf_seqFree hm
  rw [exec_eq_runFg hM, exec_eq_runFg hm, runFg_eq_result, runFg_eq_result]
  change (M (k :: p) (s.goesTo (k :: p))).result = inCall k s after
    (m q (s.setSeq { pc := s.seq.pc, ustep := q })).result
  rw [h, hfree]
  change (callAt k p m (s.setSeq { pc := s.seq.pc, ustep := k :: p }) cont).result = _
  rw [callAt, hq, hfree]
  cases m q s with
  | more q' t => exact (if_pos rfl).symm
  | done t =>
    have hpc : s.seq.pc + 1#8 ≠ s.seq.pc := by
      intro e
      simp at e
    exact (hcont t).trans (if_neg hpc).symm
  | refuse r => rfl
  | stray => rfl

/-- Two positions from which an operation does the same micro-step. -/
theorem exec_congr {s' : State} (hM : microOf caller = some M) (h : M p s = M q s') (hpc : s'.seq.pc = s.seq.pc) :
    exec caller (s.goesTo p) = exec caller (s'.goesTo q) := by
  have hfree := microOf_seqFree hM
  rw [exec_eq_runFg hM, exec_eq_runFg hM, runFg_eq_result, runFg_eq_result]
  change (M p (s.setSeq { pc := s.seq.pc, ustep := p })).result = (M q (s'.setSeq { pc := s'.seq.pc, ustep := q })).result
  rw [hfree, hfree, h, hpc]
  cases M q s' <;> rfl

/-- A micro-step of an operation that is a list of calls. -/
theorem exec_calls {is : List Instr} (ms : List Micro) (rest : List (Option Micro)) {n : Nat} (hM : microOf caller = some M)
    (hms : ms.map some = is.map microOf ++ rest) (h : M ((n + 1) :: p) (s.goesTo ((n + 1) :: p)) =
      calls ms ((n + 1) :: p) (s.goesTo ((n + 1) :: p))) (hn : is[n]? = some c) :
    exec caller (s.goesTo ((n + 1) :: p)) =
      asCall (n + 1) ms.length s (exec c (s.goesTo (if p = [] then [1] else p))) := by
  obtain ⟨hlt, -⟩ := List.getElem?_eq_some_iff.mp hn
  have hget : (ms.map some)[n]? = some (microOf c) := by
    rw [hms, List.getElem?_append_left (by simpa using hlt), List.getElem?_map, hn, Option.map_some]
  rw [List.getElem?_map, Option.map_eq_some_iff] at hget
  obtain ⟨m, hm, hmc⟩ := hget
  rw [inCall_asCall]
  refine exec_call hM hmc.symm rfl (h.trans (by rw [calls, hm])) fun t => ?_
  split <;> rfl

end Call

/-! ### The bit of a byte (R160 u2) -/

theorem withBit_eq (r x : Byte) (i : BitVec 3) :
    withBit r i (x.getLsbD 0) = r &&& ~~~(1#8 <<< i.toNat) ||| (x &&& 1#8) <<< i.toNat := by
  have hset : ∀ m : Byte, r &&& ~~~m ||| m = r ||| m := fun m => BitVec.eq_of_getLsbD_eq fun j hj => by
    cases h : m[j] <;> simp [h, hj]
  rw [BitVec.and_one_eq_setWidth_ofBool_getLsbD]
  cases x.getLsbD 0 with
  | false => simp [withBit, bitMask]
  | true => exact (hset (bitMask i)).symm

theorem storeBit_eq : storeBit = fun t => { t with tmp := { t.tmp with
    r := t.tmp.r &&& ~~~(1#8 <<< t.tmp.i.toNat) ||| (t.lat.res &&& 1#8) <<< t.tmp.i.toNat } } := by
  funext t
  rw [storeBit, withBit_eq]
  rfl

theorem byteOfBool_bitOperand (a : Byte) : byteOfBool (bitOperand a) = if a = 0#8 then 0#8 else 1#8 := by
  by_cases h : a = 0#8 <;> simp [byteOfBool, bitOperand, h]

/-- The sending micro-step of `CTL.STATUS` is a `UART.SEND` of the line's first byte (R216 u2). -/
theorem uCtlStatus_send {s : State} {c : Byte} {rest : List Byte} (p : List Nat) (h : s.tmp.line = c :: rest) :
    uCtlStatus (2 :: p) s = callAt 2 p (uUartSend c) s fun t =>
      if rest = [] then .done (t.setTmp { t.tmp with line := rest })
      else .more [2, 1] (t.setTmp { t.tmp with line := rest }) := by
  simp only [uCtlStatus, h]

/-! ### The obligations -/

/-- Settles O50: the lists of calls by `exec_calls`; the loops of the byte operations by `exec_call`, a round's rest being the loop's
bookkeeping. -/
theorem compositeOperationsRunTheirCalls : Obligations.CompositeOperationsRunTheirCalls := by
  unfold Obligations.CompositeOperationsRunTheirCalls
  intro s n c p
  refine ⟨fun hn => exec_calls [uCtlSetpt, uTempRead, uTempSmoothr, uCtlOvr, uCtlHyst, uCtlStatus, uCtlSleep] [] rfl rfl rfl hn,
    fun hn => exec_calls [uUartInit, uBusInit, uTempRead, uTempPreloadr] [] rfl rfl rfl hn,
    fun hn => exec_calls
      [uBusStart, uBusWbyte s.cfg.slaveReadAddr, uBusRbyte 1#8, uBusStop, once fun t => .done (latchRaw t)] [_] rfl rfl rfl hn,
    exec_of_done (t := latchRaw (s.goesTo [5])) rfl rfl rfl,
    exec_calls (is := [.tempSmooth s.lat.raw]) [uTempSmooth s.lat.raw] [] (n := 0) rfl rfl rfl rfl,
    exec_calls (is := [.tempPreload s.lat.raw]) [uTempPreload s.lat.raw] [] (n := 0) rfl rfl rfl rfl, 
    fun v => ⟨exec_congr (s' := startBits s) rfl rfl rfl, fun hp => ?wround, ?ack⟩,
    fun a => ⟨exec_of_more (t := (s.goesTo [1]).setTmp { s.tmp with r := 0#8 }) rfl rfl rfl,
      exec_congr (s' := startBits s) rfl rfl rfl, fun hp => ?rround, ?bit,
      exec_of_done (t := (s.goesTo [4]).setRes s.tmp.r) rfl rfl rfl⟩⟩
  case wround =>
    rw [inCall_asLoopCall]
    exact exec_call rfl rfl (if_neg hp) (uBusWbyte_round v s.tmp.i p _ hp rfl) fun t => apply_ite MicroResult.result _ _ _
  case ack =>
    rw [inCall_asCall]
    exact exec_call rfl rfl rfl rfl fun t => rfl
  case rround =>
    rw [← storeBit_eq, inCall_asLoopCall]
    exact exec_call rfl rfl (if_neg hp) (uBusRbyte_round a p _ hp trivial) fun t => apply_ite MicroResult.result _ _ _
  case bit =>
    rw [inCall_asCall, ← byteOfBool_bitOperand]
    exact exec_call rfl rfl rfl rfl fun t => rfl

/-- Settles O48: u2 is a call, and what follows it drops the byte. -/
theorem statusMicroSteps : Obligations.StatusMicroSteps := by
  unfold Obligations.StatusMicroSteps
  intro s
  refine ⟨fun hp => exec_of_more rfl hp rfl, fun c rest p hline => ?_⟩
  rw [exec_call (caller := .ctlStatus) (c := .uartSend c) (k := 2) (after := fun t =>
    if rest = [] then .next { t with tmp := { t.tmp with line := [] } }
    else .next { t with tmp := { t.tmp with line := rest }, seq := { pc := s.seq.pc, ustep := [2, 1] } }) rfl rfl rfl
    (uCtlStatus_send p (s := s.goesTo _) hline) fun t => ?cont]
  case cont =>
    split
    next h => subst h; rfl
    next => rfl
  cases exec (.uartSend c) (s.goesTo (if p = [] then [1] else p)) <;> rfl

/-! ### Whole runs of the composites -/

/-- What a whole `TEMP.SMOOTH x` leaves. -/
theorem uTempSmooth_runs (x : Byte) (s : State) : (uTempSmooth x).Runs [1] s 4 (s.smoothed x) := by
  refine straight_runs_of_foldl (by simp) ?_
  have hmean : (BitVec.ofNat 16 ((s.smooth.insert x).buf.sumTo .smoothBuf smoothDepth)).toNat / 16 = meanAfter s x := by
    rw [toNat_ofNat_sumTo_smoothDepth, meanAfter_eq]
  simp only [List.foldl_cons, List.foldl_nil, latchMean_eq, State.smoothed, ← hmean]
  rfl

theorem uTempSmoothr_runs (s : State) : uTempSmoothr.Runs [1] s 4 (s.smoothed s.lat.raw) := by
  refine .ofSame (q := [1, 1]) rfl ?_
  refine (uTempSmooth_runs s.lat.raw s).inLastCall (I := fun t => t.lat.raw = s.lat.raw) (fun q t _ ht => by rw [← ht]; rfl)
    (straight_keeps fun u hu t ht => ?_) (straight_begins _) rfl rfl
  simp only [List.mem_cons, List.not_mem_nil, or_false] at hu
  rcases hu with rfl | rfl | rfl | rfl <;> exact ht

theorem uTempPreloadr_runs (s : State) : uTempPreloadr.Runs [1] s 1 (fillWindow s.lat.raw s) := .last rfl

theorem fillWindow_eq (x : Byte) (s : State) : ∃ m, fillWindow x s =
    { s with smooth := { s.smooth with buf := m }, tmp := { s.tmp with k := lastSlot } } := by
  unfold fillWindow
  generalize s.smooth.buf.fill smoothDepth x = m
  exact ⟨m, rfl⟩

theorem fillWindow_read (x : Byte) (s : State) (k : Nat) :
    (fillWindow x s).smooth.buf.read .smoothBuf k = if k < 16 then x else s.smooth.buf.read .smoothBuf k := by
  rw [fillWindow, State.setTmp_smooth, State.setSmooth_smooth, Memory.read_fill, smoothDepth]

/-- Settles O43: a fill writes the slots below 16, and the latch forms are calls with `RAW`. -/
theorem preloadAndLatchForms : Obligations.PreloadAndLatchForms := by
  unfold Obligations.PreloadAndLatchForms
  refine ⟨⟨rfl, rfl, fun x => decode_or_opd 3 2 (fun _ => rfl) x⟩, fun x s hp =>
    ⟨(fillWindow x s).finished, exec_of_done rfl hp rfl, ?_, fun k hk => ?_, fun k hk => ?_⟩,
    fun s hp => ?_, fun s hp => ?_⟩
  · obtain ⟨m, hm⟩ := fillWindow_eq x s
    rw [hm]
    rfl
  · rw [State.finished_smooth, fillWindow_read, if_pos hk]
  · rw [State.finished_smooth, fillWindow_read, if_neg (Nat.not_lt.mpr hk)]
  · exact (exec_of_done (m := uTempPreloadr) rfl hp rfl).trans (exec_of_done (m := uTempPreload s.lat.raw) rfl hp rfl).symm
  · rw [execTimes_of_runs rfl (uTempSmoothr_runs s) hp rfl, execTimes_of_runs rfl (uTempSmooth_runs s.lat.raw s) hp rfl]

/-- The state a `TEMP.READ` on a steady line leaves. -/
def State.afterRead (s : State) (tmp : Temps) : State :=
  latchRaw (s.busRun { scl := true, sda := true } (readTrace s.cfg.slaveReadAddr s.env.sdaSlv (constantByte s.env.sdaSlv))
    (constantByte s.env.sdaSlv) s.env.sdaSlv tmp)

/-- The state a `BUS.INIT` leaves. -/
def State.afterBusInit (s : State) : State :=
  s.busRun { scl := true, sda := true } [.sdaLow, .sclLow, .delay, .sclRel, .sdaRel, .delay] s.lat.res s.env.sdaSlv s.tmp

/-- The four calls of `CTL.BOOT` (R219). -/
theorem uCtlBoot_runs (s : State) : ∃ tmp, uCtlBoot.Runs [1] s 127
    (fillWindow (constantByte s.env.sdaSlv) ((initTransport s).afterBusInit.afterRead tmp)) := by
  obtain ⟨tmp, hread⟩ := uTempRead_runs (initTransport s).afterBusInit
  refine ⟨tmp, .more (p' := [2]) rfl (.ofSame (q := [2, 1]) rfl ?_)⟩
  refine (uBusInit_runs (initTransport s)).inCall (I := fun _ => True) (p' := [3]) (n' := 120) (fun _ _ _ _ => rfl)
    (Micro.keeps_of_forall fun _ _ => id) (straight_begins _) trivial rfl (.ofSame (q := [3, 1]) rfl ?_)
  exact hread.inCall (I := fun _ => True) (n' := 1) (fun _ _ _ _ => rfl) (Micro.keeps_of_forall fun _ _ => id) (fun _ => rfl)
    trivial rfl (.last rfl)

/-- Settles O51: the four calls, one after the other. -/
theorem bootLeavesInitialisedMachine : Obligations.BootLeavesInitialisedMachine := by
  unfold Obligations.BootLeavesInitialisedMachine
  intro s hp
  obtain ⟨tmp, h⟩ := uCtlBoot_runs s
  refine ⟨_, execTimes_of_runs rfl h hp rfl, ?_, fun k hk => by rw [State.finished_smooth, fillWindow_read, if_pos hk]⟩
  obtain ⟨m, hm⟩ := fillWindow_eq (constantByte s.env.sdaSlv) ((initTransport s).afterBusInit.afterRead tmp)
  rw [hm]
  rfl

end Sys2Proof.Machine
end

