-- ==== Sys2Proof/Proofs/Iteration.lean ====
section
/-! PROOFS. One iteration of the control loop (43_thermostat_control.md R218): the status line is queued whole, and the micro-steps
before it latch the inputs, the reading and the mean and drive the coil. -/

namespace Sys2Proof.Machine

/-! ### Queueing a line (R216) -/

/-- A line pushed on a ring, byte by byte. -/
def Ring.pushAll (C : Nat) (line : List Byte) (r : Ring) : Ring := line.foldl (fun r c => r.push C c) r

section PushAll

variable {C : Nat} {r : Ring}

@[simp] theorem Ring.pushAll_nil : r.pushAll C [] = r := rfl
@[simp] theorem Ring.pushAll_cons (c : Byte) (line : List Byte) : r.pushAll C (c :: line) = (r.push C c).pushAll C line := rfl

theorem Ring.pushAll_tail (line : List Byte) : (r.pushAll C line).tail = r.tail := by
  induction line generalizing r with
  | nil => rfl
  | cons c line ih => rw [pushAll_cons, ih, push_tail]

/-- Below `C - 1` queued bytes there is room for one more. -/
theorem Ring.room_of_queue_lt (id : MemId) (hC : IsCapacity C) (hr : r.InRange C) (h : (r.queue id C).length < C - 1) :
    maskedNext C r.head ≠ r.tail := fun hfull => by
  rw [queue_length, (ringCount_eq_pred_iff hC hr).mpr hfull] at h
  exact Nat.lt_irrefl _ h

theorem Ring.queue_pushAll (id : MemId) (hC : IsCapacity C) (hr : r.InRange C) (line : List Byte)
    (h : (r.queue id C).length + line.length ≤ C - 1) : (r.pushAll C line).queue id C = r.queue id C ++ line := by
  induction line generalizing r with
  | nil => simp
  | cons c line ih =>
    rw [List.length_cons] at h
    have hpush := queue_push id hC hr (room_of_queue_lt id hC hr (by omega)) c
    have hfit : ((r.push C c).queue id C).length + line.length ≤ C - 1 := by
      rw [hpush, List.length_append, List.length_singleton]
      omega
    rw [pushAll_cons, ih (hr.push hC c) hfit, hpush, List.append_assoc, List.singleton_append]

end PushAll

section Status

variable {s : State}

/-- What sending a line leaves: it is queued, and the interrupt is armed. -/
def State.queued (s : State) (line : List Byte) (tmp : Temps) : State :=
  { s with tx := s.tx.pushAll s.cfg.txCap line, ctl := { s.ctl with txie := true }, tmp := tmp }

theorem uUartSend_runs (c : Byte) (htx : s.ctl.txen = true) (hroom : maskedNext s.cfg.txCap s.tx.head ≠ s.tx.tail) :
    (uUartSend c).Runs [1] s 5 (s.queued [c] { s.tmp with h1 := maskedNext s.cfg.txCap s.tx.head }) :=
  .more (if_pos htx) (.more (if_neg hroom) (.more rfl (.more rfl (.last rfl))))

theorem uUartSend_keeps_line (c : Byte) (line : List Byte) :
    (uUartSend c).Keeps fun s t => s.tmp.line = line → t.tmp.line = line := by
  intro pos s
  unfold uUartSend
  split
  · split
    · exact id
    · trivial
  · split <;> exact id
  all_goals first | exact id | trivial

theorem uUartSend_begins (c : Byte) : (uUartSend c).Begins := fun _ => rfl

/-- A line that fits is queued in five micro-steps a byte. -/
theorem uCtlStatus_runs (c : Byte) (line : List Byte) : ∀ s : State, s.tmp.line = c :: line → s.ctl.txen = true →
    s.tx.InRange s.cfg.txCap → s.txQueue.length + (c :: line).length ≤ s.cfg.txCap - 1 →
    ∃ tmp, uCtlStatus.Runs [2, 1] s (5 * (c :: line).length) (s.queued (c :: line) tmp) := by
  induction line generalizing c with
  | nil =>
    intro s hline htx hr hfit
    have hroom := Ring.room_of_queue_lt .txBuf (txCap_isCapacity s.cfg) hr (by rw [List.length_singleton] at hfit; exact hfit)
    exact ⟨_, (uUartSend_runs c htx hroom).inLastCall (I := fun t => t.tmp.line = [c]) (fun q t _ ht => uCtlStatus_send q ht)
      (uUartSend_keeps_line c _) (uUartSend_begins c) hline rfl⟩
  | cons d line ih =>
    intro s hline htx hr hfit
    have hC := txCap_isCapacity s.cfg
    have hfit' : (s.tx.queue .txBuf s.cfg.txCap).length + (line.length + 2) ≤ s.cfg.txCap - 1 := hfit
    have hroom := Ring.room_of_queue_lt .txBuf hC hr (by omega)
    have hnext : ((s.tx.push s.cfg.txCap c).queue .txBuf s.cfg.txCap).length + (d :: line).length ≤ s.cfg.txCap - 1 := by
      rw [Ring.queue_push .txBuf hC hr hroom c, List.length_append, List.length_singleton, List.length_cons]
      omega
    obtain ⟨tmp, hruns⟩ := ih d
      (s.queued [c] { s.tmp with h1 := maskedNext s.cfg.txCap s.tx.head, line := d :: line }) rfl htx (hr.push hC c) hnext
    exact ⟨tmp, (uUartSend_runs c htx hroom).inCall (I := fun t => t.tmp.line = c :: d :: line) (p' := [2, 1])
      (n' := 5 * (d :: line).length) (fun q t _ ht => uCtlStatus_send q ht)
      (uUartSend_keeps_line c _) (uUartSend_begins c) hline rfl hruns⟩

/-- From the sending micro-step a line that fits is queued whole, and an empty line takes one micro-step (log 18). -/
theorem uCtlStatus_runs_of_fits (hs : DataInv s) (htx : s.ctl.txen = true)
    (hfit : s.txQueue.length + s.tmp.line.length ≤ s.cfg.txCap - 1) : ∃ tmp, uCtlStatus.Runs [2] s (statusSteps s.tmp.line)
      { s with
        tx := s.tx.pushAll s.cfg.txCap s.tmp.line
        ctl := { s.ctl with txie := if s.tmp.line = [] then s.ctl.txie else true }
        tmp := tmp } := by
  cases hline : s.tmp.line with
  | nil => exact ⟨s.tmp, .last (by simp only [uCtlStatus, hline]; rfl)⟩
  | cons c line =>
    rw [hline] at hfit
    obtain ⟨tmp, h⟩ := uCtlStatus_runs c line s hline htx hs.tx_inRange hfit
    exact ⟨tmp, .ofSame (by rw [uCtlStatus_send [] hline, uCtlStatus_send [1] hline]; rfl) h⟩

end Status

/-! ### The micro-steps before the line -/

/-- The hysteresis state machine writes the coil and its trace only, and on a transition only (R213). -/
theorem hysteresis_eq (s : State) : hysteresis s = { s with
    coil := (hysteresis s).coil
    trace := { s.trace with
      coil := s.trace.coil ++ if (hysteresis s).coil = s.coil then [] else [(hysteresis s).coil] } } := by
  have kept : ∀ h : hysteresis s = s, hysteresis s = { s with
      coil := (hysteresis s).coil
      trace := { s.trace with
        coil := s.trace.coil ++ if (hysteresis s).coil = s.coil then [] else [(hysteresis s).coil] } } := fun h => by
    rw [h, if_pos rfl, List.append_nil]
  cases hc : s.coil with
  | false =>
    by_cases h : turnsOn s.lat = true
    · rw [hysteresis_of_turnsOn hc h]; rfl
    · rw [← hc]; exact kept (hysteresis_of_not_turnsOn hc h)
  | true =>
    by_cases h : turnsOff s.cfg.hyst.val s.lat = true
    · rw [hysteresis_of_turnsOff hc h]; rfl
    · rw [← hc]; exact kept (hysteresis_of_not_turnsOff hc h)

section Prefix

variable {i : Instr} {M m : Micro} {p p' : List Nat} {s t t' : State} {k n : Nat} {cont : State → MicroResult}

theorem execTimes_more (hi : microOf i = some M) (h : M p s = .more p' t) (j : Nat) (pc : BitVec 8) :
    execTimes (j + 1) i (s.setSeq { pc := pc, ustep := p }) = execTimes j i (t.setSeq { pc := pc, ustep := p' }) := by
  have hx := microOf_seqFree hi { pc := pc, ustep := p } p s
  rw [h] at hx
  exact execTimes_succ j ((exec_eq_runFg hi _).trans (runFg_of_more hx))

/-- The caller's micro-steps while a call of it runs, and on to where it goes on. -/
theorem execTimes_inCall (hi : microOf i = some M) (hM : ∀ q s, M (k :: q) s = callAt k q m s cont) (hm : m.Begins)
    (h : m.Runs p s n t) (hk : cont t = .more p' t') (j : Nat) (pc : BitVec 8) :
    execTimes (j + n) i (s.setSeq { pc := pc, ustep := k :: p }) = execTimes j i (t'.setSeq { pc := pc, ustep := p' }) := by
  induction h with
  | @last p s t e =>
    have hp : p ≠ [] := (Micro.Runs.last e).pos_ne hm
    exact execTimes_more hi (by rw [hM p s, callAt, if_neg hp, e]; exact hk) j pc
  | @more p q s s' t n e h ih =>
    have hp : p ≠ [] := (Micro.Runs.more e h).pos_ne hm
    exact (execTimes_more hi (by rw [hM p s, callAt, if_neg hp, e]) (j + n) pc).trans (ih hk)

/-- The same from the caller's own position, where the callee begins. -/
theorem execTimes_call (hi : microOf i = some M) (hM : ∀ q s, M (k :: q) s = callAt k q m s cont) (hm : m.Begins)
    (h : m.Runs [1] s n t) (hk : cont t = .more p' t') (j : Nat) (pc : BitVec 8) :
    execTimes (j + n) i (s.setSeq { pc := pc, ustep := [k] }) = execTimes j i (t'.setSeq { pc := pc, ustep := p' }) := by
  generalize hp : [1] = p at h
  cases h with
  | last e => exact execTimes_more hi (by rw [hM [] s, callAt, if_pos rfl, hp, e]; exact hk) j pc
  | more e h =>
    exact (execTimes_more hi (by rw [hM [] s, callAt, if_pos rfl, hp, e]) (j + _) pc).trans (execTimes_inCall hi hM hm h hk j pc)

end Prefix

theorem meanAfter_congr {s t : State} (x : Byte) (h : t.smooth = s.smooth) : meanAfter t x = meanAfter s x := by
  simp only [meanAfter, windowAfter, h]

/-- The state after `CTL.SETPT` and a `TEMP.READ` of the byte raw. -/
def State.withReading (s : State) (raw : Byte) (tmp : Temps) : State :=
  { s with
    lat := { s.lat with res := raw, sp := setpointOf s.env.spN, raw := raw }
    bus := { scl := true, sda := true }
    trace := { s.trace with bus := s.trace.bus ++ readTrace s.cfg.slaveReadAddr s.env.sdaSlv raw }
    tmp := tmp }

theorem withReading_eq {s : State} {raw : Byte} {tmp : Temps} {acts : List BusAct}
    (h : acts = readTrace s.cfg.slaveReadAddr s.env.sdaSlv raw) :
    latchRaw ((s.setLat { s.lat with sp := setpointOf s.env.spN }).busRun { scl := true, sda := true } acts raw s.env.sdaSlv tmp) =
      s.withReading raw tmp := by
  rw [State.withReading, ← h]
  generalize setpointOf s.env.spN = sp
  rfl

/-- The state in which the coil is driven: the setpoint, the reading, the window, the mean and the override of this iteration. -/
def State.sensed (s : State) (raw sm : Byte) (window : Smoothing) (tmp : Temps) : State :=
  { s.withReading raw tmp with
    lat := { res := sm, sp := setpointOf s.env.spN, raw := raw, sm := sm, ov := overrideOf s.env.ovrN }
    smooth := window }

/-- The state in which the line is sent: the coil is driven, and the line formed. -/
def State.controlled (s : State) (raw sm : Byte) (window : Smoothing) (tmp : Temps) : State :=
  (hysteresis (s.sensed raw sm window tmp)).setTmp { tmp with line := statusLine (s.sensed raw sm window tmp).lat }

section Iteration

variable {s : State} {raw sm : Byte} {window : Smoothing}

theorem smoothed_eq (hsm : sm.toNat = meanAfter s raw) (hw : window = s.smooth.insert raw) : ∃ tmp, s.smoothed raw =
    { s with smooth := window, lat := { s.lat with sm := sm, res := sm }, tmp := tmp } := by
  have hsm' : BitVec.ofNat 8 (meanAfter s raw) = sm := by rw [← hsm, BitVec.ofNat_toNat, BitVec.setWidth_eq]
  rw [State.smoothed, hsm', ← hw]
  generalize BitVec.ofNat 16 _ = sum
  exact ⟨_, rfl⟩

theorem hysteresis_tmp (s : State) : (hysteresis s).tmp = s.tmp := by rw [hysteresis_eq]

theorem hysteresis_lat (s : State) : (hysteresis s).lat = s.lat := by rw [hysteresis_eq]

/-- An iteration up to the sending micro-step. -/
theorem execTimes_iter_controls (hp : s.seq.ustep = [1]) (hraw : raw = constantByte s.env.sdaSlv)
    (hsm : sm.toNat = meanAfter s raw) (hw : window = s.smooth.insert raw) :
    ∃ tmp, execTimes (1 + 119 + 4 + 1 + 1 + 1) .ctlIter s = .next ((s.controlled raw sm window tmp).goesTo [6, 2]) := by
  obtain ⟨tmp, hread⟩ := uTempRead_runs (s.setLat { s.lat with sp := setpointOf s.env.spN })
  rw [State.setLat_env, State.setLat_cfg, ← hraw, withReading_eq rfl] at hread
  obtain ⟨tmp', hsmoothed⟩ := smoothed_eq (s := s.withReading raw tmp)
    (hsm.trans (meanAfter_congr (t := s.withReading raw tmp) _ rfl).symm) hw
  have hsmooth := uTempSmoothr_runs (s.withReading raw tmp)
  change uTempSmoothr.Runs [1] _ 4 (State.smoothed raw _) at hsmooth
  rw [hsmoothed] at hsmooth
  have hi : microOf .ctlIter = some uCtlIter := rfl
  have hs : s.setSeq { pc := s.seq.pc, ustep := [1] } = s := s.goesTo_self hp
  have hsum : 1 + 119 + 4 + 1 + 1 + 1 = 0 + 1 + 1 + 1 + 4 + 119 + 1 := rfl
  refine ⟨tmp', (congrArg₂ (fun n s => execTimes n .ctlIter s) hsum hs.symm).trans ?_⟩
  rw [execTimes_more hi (p' := [2]) (t := s.setLat { s.lat with sp := setpointOf s.env.spN }) rfl,
    execTimes_call hi (fun _ _ => rfl) (fun _ => rfl) hread (p' := [3]) (t' := s.withReading raw tmp) rfl,
    execTimes_call hi (fun _ _ => rfl) (fun _ => rfl) hsmooth (p' := [4]) rfl,
    execTimes_more hi (p' := [5]) (t := s.sensed raw sm window tmp') rfl,
    execTimes_more hi (p' := [6]) (t := hysteresis (s.sensed raw sm window tmp')) rfl,
    execTimes_more hi (p' := [6, 2]) rfl]
  have hseq : (hysteresis (s.sensed raw sm window tmp')).seq = s.seq := (hysteresis_keeps _).seq
  rw [execTimes, State.controlled, State.goesTo, hysteresis_tmp, hysteresis_lat, State.setTmp_seq, hseq]
  rfl

/-- What the hysteresis state machine makes of the coil (R213, R214). -/
theorem hysteresis_coil (s : State) : (hysteresis s).coil = true ↔
    s.coil = false ∧ (s.lat.sm.toNat > s.lat.sp.toNat ∨ s.lat.ov = true) ∨
    s.coil = true ∧ ¬ (s.lat.ov = false ∧ (s.lat.sm.toNat : Int) ≤ (s.lat.sp.toNat : Int) - (s.cfg.hyst.val : Int)) := by
  cases hc : s.coil with
  | false => rw [hysteresis_coil_of_off hc, turnsOn_iff]; simp
  | true => rw [hysteresis_coil_of_on hc, ← turnsOff_iff]; simp

end Iteration

/-! ### The obligations -/

/-- Settles O49: byte by byte. -/
theorem statusLineIsQueued : Obligations.StatusLineIsQueued := by
  unfold Obligations.StatusLineIsQueued
  rintro s L hs hp htx rfl hfit
  obtain ⟨tmp, h⟩ := uCtlStatus_runs_of_fits hs htx hfit
  exact ⟨_, execTimes_of_runs rfl h hp rfl, Ring.queue_pushAll .txBuf (txCap_isCapacity s.cfg) hs.tx_inRange _ hfit,
    Ring.pushAll_tail _, rfl⟩

/-- Settles O52: the state in which the line is formed, read off field by field; then the line, and the sleep. -/
theorem iterationControlsTheCoil : Obligations.IterationControlsTheCoil := by
  unfold Obligations.IterationControlsTheCoil
  refine ⟨?senses, ?queues⟩
  case senses =>
    intro s raw sm sp ov hp hraw hsm hsp hov
    subst hsp hov
    obtain ⟨tmp, h⟩ := execTimes_iter_controls hp hraw hsm rfl
    have hlat : (s.sensed raw sm (s.smooth.insert raw) tmp).lat =
        { res := sm, sp := ~~~s.env.spN, raw := raw, sm := sm, ov := !s.env.ovrN } := by
      rw [← setpointOf_eq_not]
      rfl
    have hcoil := hysteresis_coil (s.sensed raw sm (s.smooth.insert raw) tmp)
    rw [hlat] at hcoil
    rw [State.controlled, hysteresis_eq, hlat] at h
    generalize (hysteresis (s.sensed raw sm (s.smooth.insert raw) tmp)).coil = coil at h hcoil
    exact ⟨_, h, rfl, hcoil, rfl, rfl, rfl, rfl, insert_read_eq_windowAfter raw s, rfl, rfl⟩
  case queues =>
    rintro s L hs hp htx rfl hfit
    obtain ⟨tmp, h⟩ := uCtlStatus_runs_of_fits hs htx hfit
    have hiter := h.inCall (M := uCtlIter) (k := 6) (I := fun _ => True) (p' := [7]) (n' := 1) (fun _ _ _ _ => rfl)
      (Micro.keeps_of_forall fun _ _ => id) (fun _ => rfl) trivial rfl (.last rfl)
    rw [Nat.add_comm]
    exact ⟨_, execTimes_of_runs rfl hiter hp rfl, Ring.queue_pushAll .txBuf (txCap_isCapacity s.cfg) hs.tx_inRange _ hfit,
      Ring.pushAll_tail _, rfl⟩

end Sys2Proof.Machine
end

