-- ==== Sys2Proof/Proofs/Ranks.lean ====
section
/-! PROOFS. The operations that never hold end (10_state.md R32): a rank of the position and of the bit counter, which no agent but
the foreground changes, falls with each of their micro-steps. -/

namespace Sys2Proof.Machine

/-- A rank of the position and the counter of the bit loops. -/
abbrev Rank := List Nat → BitVec 3 → Nat

/-- While m goes on, at a position, its rank falls. -/
def Micro.Descends (ρ : Rank) (m : Micro) : Prop :=
  ∀ p s p' t, m p s = .more p' t → p' ≠ [] ∧ ρ p' t.tmp.i < ρ p s.tmp.i

/-- A rank that does not depend on the counter where the operation begins. -/
def Rank.Starts (ρ : Rank) : Prop := ∀ i, ρ [1] i = ρ [1] 0#3

/-- The micro-steps left in a straight list of n. -/
def straightRank (n : Nat) : Rank
  | [k], _ => n - k
  | _, _ => 0

/-- The rank of an operation of one micro-step. -/
def onceRank : Rank := fun _ _ => 0

/-- The position inside a call. -/
def subPos (sub : List Nat) : List Nat := if sub = [] then [1] else sub

/-- A loop's rounds left, then the micro-steps left in this one, then the acknowledgment. -/
def wbyteRank : Rank
  | [1], _ => 100
  | 1 :: sub, i => 10 + 10 * i.toNat + straightRank 5 sub i
  | 2 :: sub, i => straightRank 7 (subPos sub) i
  | _, _ => 0

def rbyteRank : Rank
  | [1], _ => 201
  | [2], _ => 200
  | 2 :: sub, i => 10 + 10 * i.toNat + straightRank 7 sub i
  | 3 :: sub, i => 1 + straightRank 5 (subPos sub) i
  | _, _ => 0

/-- The calls not yet begun, then what is left of this one. -/
def callsRank (ρs : List Rank) : Rank
  | (n + 1) :: sub, i => ((ρs.drop (n + 1)).map fun ρ => ρ [1] 0#3 + 1).sum + (ρs[n]?.getD onceRank) (subPos sub) i
  | _, _ => 0

def readRank : Rank := callsRank [straightRank 4, wbyteRank, rbyteRank, straightRank 4, onceRank]

section Descends

variable {m : Micro} {ρ : Rank} {k n : Nat} {p p' sub : List Nat} {s t : State} {cont : State → MicroResult}

theorem straightRank_starts (n : Nat) : (straightRank n).Starts := fun _ => rfl
theorem onceRank_starts : onceRank.Starts := fun _ => rfl
theorem wbyteRank_starts : wbyteRank.Starts := fun _ => rfl
theorem rbyteRank_starts : rbyteRank.Starts := fun _ => rfl

theorem straightRank_le (n : Nat) (p : List Nat) (i : BitVec 3) : straightRank n p i ≤ n := by
  unfold straightRank
  split
  · exact Nat.sub_le _ _
  · exact Nat.zero_le n

theorem once_not_more {f : State → MicroResult} (hf : ∀ s p t, f s ≠ .more p t) : once f p s ≠ .more p' t := by
  unfold once
  split
  · exact hf _ _ _
  · exact nofun

theorem once_descends {f : State → MicroResult} (hf : ∀ s p t, f s ≠ .more p t) : (once f).Descends ρ :=
  fun _ _ _ _ h => absurd h (once_not_more hf)

theorem once_done_descends (f : State → State) : (once fun s => .done (f s)).Descends ρ :=
  once_descends fun _ _ _ h => nomatch h

theorem straight_descends (us : List (State → State)) (hn : us.length = n) : (straight us).Descends (straightRank n) := by
  subst hn
  intro p s p' t h
  unfold straight at h
  split at h
  next k =>
    split at h
    · cases h
    next u hu =>
      split at h
      · cases h
      next hlast =>
        cases h
        have hk : k < us.length := (List.getElem?_eq_some_iff.mp hu).1
        refine ⟨by simp, ?_⟩
        simp only [straightRank]
        omega
  · cases h

/-- Where a call goes on, its callee does, or what follows it. -/
theorem callAt_more (h : callAt k sub m s cont = .more p' t) :
    (∃ q, m (subPos sub) s = .more q t ∧ p' = k :: q) ∨ ∃ u, m (subPos sub) s = .done u ∧ cont u = .more p' t := by
  unfold callAt at h
  split at h
  next q u e => cases h; exact .inl ⟨q, e, rfl⟩
  next u e => exact .inr ⟨u, e, h⟩
  · cases h
  · cases h

theorem uBusWbit_counter (b : Byte) : (uBusWbit b).Keeps fun s t => t.tmp.i = s.tmp.i := by
  refine straight_keeps fun u hu s => ?_
  simp only [List.mem_cons, List.not_mem_nil, or_false] at hu
  rcases hu with rfl | rfl | rfl | rfl | rfl
  · rw [driveData_eq]; rfl
  all_goals rfl

theorem uBusRbit_counter : uBusRbit.Keeps fun s t => t.tmp.i = s.tmp.i := by
  refine straight_keeps fun u hu s => ?_
  simp only [List.mem_cons, List.not_mem_nil, or_false] at hu
  rcases hu with rfl | rfl | rfl | rfl | rfl | rfl | rfl <;> rfl

theorem toNat_sub_one_lt {i : BitVec 3} (h : i ≠ 0#3) : (i - 1#3).toNat + 1 = i.toNat := by
  obtain ⟨k, hk⟩ := Nat.exists_eq_succ_of_ne_zero (fun e => h (BitVec.eq_of_toNat_eq (y := 0#3) e))
  rw [(toNat_sub_one hk).2, hk]

/-- Where a straight list goes on, it is at one of its micro-steps. -/
theorem straight_more_pos {us : List (State → State)} (h : straight us p s = .more p' t) : ∃ k, p' = [k] := by
  unfold straight at h
  split at h
  · split at h
    · cases h
    · split at h <;> cases h
      exact ⟨_, rfl⟩
  · cases h

/-- Where a bit loop goes on: in the round or to the next one, and what is left of the rounds falls; or past the loop. -/
theorem bitLoop_more {w : State → State} {c q : Nat} (hm : m.Keeps fun s t => t.tmp.i = s.tmp.i)
    (hw : ∀ s, (w s).tmp.i = s.tmp.i) (hd : m.Descends (straightRank c)) (hpos : ∀ p s p' t, m p s = .more p' t → ∃ k, p' = [k])
    (hc : c ≤ 10) (h : bitLoop n sub m w s (.more [q]) = .more p' t) :
    (∃ k, p' = [n, k] ∧
      10 * t.tmp.i.toNat + straightRank c [k] t.tmp.i < 10 * s.tmp.i.toNat + straightRank c (subPos sub) s.tmp.i) ∨ p' = [q] := by
  have hkeep := hm (subPos sub) s
  rcases callAt_more h with ⟨q', e, rfl⟩ | ⟨u, e, hu⟩
  · rw [e] at hkeep
    obtain ⟨k, rfl⟩ := hpos _ _ _ _ e
    obtain ⟨-, hlt⟩ := hd _ _ _ _ e
    rw [MicroResult.sat_more] at hkeep
    exact .inl ⟨k, rfl, by rw [hkeep] at hlt ⊢; omega⟩
  · rw [e] at hkeep
    have hi : (w u).tmp.i = s.tmp.i := (hw u).trans hkeep
    dsimp only at hu
    split at hu
    · cases hu; exact .inr rfl
    next hne =>
      cases hu
      have hlt := toNat_sub_one_lt (hi ▸ hne)
      refine .inl ⟨1, rfl, ?_⟩
      simp only [State.setTmp_tmp, hi, straightRank]
      omega

theorem callsRank_starts {ρs : List Rank} (h : ∀ ρ ∈ ρs, Rank.Starts ρ) : (callsRank ρs).Starts := by
  intro i
  cases ρs with
  | nil => rfl
  | cons ρ ρs => exact congrArg (_ + ·) (h ρ List.mem_cons_self i)

/-- In a list of calls the rank falls where it falls in the call. -/
theorem calls_descends_at {ms : List Micro} {ρs : List Rank} (hlen : ρs.length = ms.length) (hstart : ∀ ρ ∈ ρs, Rank.Starts ρ)
    (hm : ms[n]? = some m) (hρ : ρs[n]? = some ρ) (hd : m.Descends ρ) (h : calls ms ((n + 1) :: sub) s = .more p' t) :
    callsRank ρs p' t.tmp.i < callsRank ρs ((n + 1) :: sub) s.tmp.i ∧
      ((∃ q, p' = (n + 1) :: q) ∨ p' = [n + 2] ∧ n + 1 < ms.length) := by
  simp only [calls, hm] at h
  rcases callAt_more h with ⟨q, e, rfl⟩ | ⟨u, e, hu⟩
  · obtain ⟨hne, hlt⟩ := hd _ _ _ _ e
    have hq : subPos q = q := if_neg hne
    simp only [callsRank, hρ, Option.getD_some, hq]
    exact ⟨by omega, .inl ⟨q, rfl⟩⟩
  · split at hu
    · cases hu
    next hlast =>
      cases hu
      have hn : n < ms.length := (List.getElem?_eq_some_iff.mp hm).1
      have hn' : n + 1 < ρs.length := by omega
      refine ⟨?_, .inr ⟨rfl, by omega⟩⟩
      simp only [callsRank, List.drop_eq_getElem_cons hn', List.map_cons, List.sum_cons, List.getElem?_eq_getElem hn',
        Option.getD_some, subPos, if_pos]
      have := hstart _ (List.getElem_mem hn') t.tmp.i
      omega

end Descends

section Operations

variable {p p' sub : List Nat} {s t : State}

theorem uBusWbit_descends (b : Byte) : (uBusWbit b).Descends (straightRank 5) := straight_descends _ rfl
theorem uBusRbit_descends : uBusRbit.Descends (straightRank 7) := straight_descends _ rfl

/-- The loop of `BUS.WBYTE`, from the round's position. -/
theorem wbyteLoop_more {v : Byte} (h : bitLoop 1 sub (wbyteBit v) id s (.more [2]) = .more p' t) :
    p' ≠ [] ∧ wbyteRank p' t.tmp.i < 10 + 10 * s.tmp.i.toNat + straightRank 5 (subPos sub) s.tmp.i := by
  rcases bitLoop_more (c := 5) (fun p s => uBusWbit_counter _ p s) (fun _ => rfl)
    (fun p s p' t h => uBusWbit_descends _ p s p' t h) (fun p s p' t h => straight_more_pos h) (by decide) h
    with ⟨k, rfl, hlt⟩ | rfl
  · refine ⟨by simp, ?_⟩
    simp only [wbyteRank]
    omega
  · refine ⟨by simp, ?_⟩
    simp only [wbyteRank, subPos, if_pos, straightRank]
    omega

theorem uBusWbyte_descends (v : Byte) : (uBusWbyte v).Descends wbyteRank := by
  intro p s p' t h
  unfold uBusWbyte at h
  split at h
  · exact (wbyteLoop_more h).imp_right fun hlt => hlt.trans_le (show 84 ≤ 100 by decide)
  next sub hsub =>
    have hne : sub ≠ [] := fun e => hsub (by rw [e])
    have hlt := wbyteLoop_more h
    rw [subPos, if_neg hne] at hlt
    rwa [wbyteRank]
    exact hsub
  · rcases callAt_more h with ⟨q, e, rfl⟩ | ⟨u, -, hu⟩
    · obtain ⟨k, rfl⟩ := straight_more_pos e
      exact ⟨by simp, (uBusRbit_descends _ _ _ _ e).2⟩
    · cases hu
  · cases h

/-- The loop of `BUS.RBYTE`. -/
theorem rbyteLoop_more (h : bitLoop 2 sub uBusRbit storeBit s (.more [3]) = .more p' t) :
    p' ≠ [] ∧ rbyteRank p' t.tmp.i < 10 + 10 * s.tmp.i.toNat + straightRank 7 (subPos sub) s.tmp.i := by
  have hstore : ∀ s, (storeBit s).tmp.i = s.tmp.i := fun _ => rfl
  rcases bitLoop_more (c := 7) uBusRbit_counter hstore uBusRbit_descends (fun p s p' t h => straight_more_pos h) (by decide) h
    with ⟨k, rfl, hlt⟩ | rfl
  · refine ⟨by simp, ?_⟩
    simp only [rbyteRank]
    omega
  · refine ⟨by simp, ?_⟩
    simp only [rbyteRank, subPos, if_pos, straightRank]
    omega

theorem uBusRbyte_descends (a : Byte) : (uBusRbyte a).Descends rbyteRank := by
  intro p s p' t h
  unfold uBusRbyte at h
  split at h
  · cases h; exact ⟨by simp, Nat.lt_succ_self 200⟩
  · exact (rbyteLoop_more h).imp_right fun hlt => hlt.trans_le (show 86 ≤ 200 by decide)
  next sub hsub =>
    have hne : sub ≠ [] := fun e => hsub (by rw [e])
    have hlt := rbyteLoop_more h
    rw [subPos, if_neg hne] at hlt
    rwa [rbyteRank]
    exact hsub
  next sub =>
    rcases callAt_more h with ⟨q, e, rfl⟩ | ⟨u, -, hu⟩
    · obtain ⟨k, rfl⟩ := straight_more_pos e
      exact ⟨by simp, Nat.add_lt_add_left (uBusWbit_descends _ _ _ _ _ e).2 1⟩
    · cases hu
      exact ⟨by simp, Nat.lt_add_right _ (show 0 < 1 by decide)⟩
  · cases h
  · cases h

theorem callsRank_descends {ms : List Micro} {ρs : List Rank} (hlen : ρs.length = ms.length)
    (hstart : ∀ ρ ∈ ρs, Rank.Starts ρ) (hd : ∀ c ∈ ms.zip ρs, c.1.Descends c.2) : (calls ms).Descends (callsRank ρs) := by
  intro p s p' t h
  have hcalls := h
  unfold calls at h
  split at h
  next n sub =>
    split at h
    · cases h
    next m hm =>
      have hn : n < ρs.length := hlen ▸ (List.getElem?_eq_some_iff.mp hm).1
      have hρ := List.getElem?_eq_getElem hn
      have hmem : (m, ρs[n]) ∈ ms.zip ρs := List.mem_of_getElem? (List.getElem?_zip_eq_some.mpr ⟨hm, hρ⟩)
      obtain ⟨hlt, ⟨q, rfl⟩ | ⟨rfl, -⟩⟩ := calls_descends_at hlen hstart hm hρ (hd _ hmem) hcalls
      · exact ⟨by simp, hlt⟩
      · exact ⟨by simp, hlt⟩
  · cases h

theorem uTempRead_descends : uTempRead.Descends readRank := by
  intro p s
  refine callsRank_descends (ms := [uBusStart, uBusWbyte s.cfg.slaveReadAddr, uBusRbyte 1#8, uBusStop,
    once fun s => .done (latchRaw s)]) rfl ?_ ?_ p s
  · simp [straightRank_starts, wbyteRank_starts, rbyteRank_starts, onceRank_starts]
  · simp only [List.zip_cons_cons, List.zip_nil_right, List.mem_cons, List.not_mem_nil, or_false]
    rintro c (rfl | rfl | rfl | rfl | rfl)
    · exact straight_descends _ rfl
    · exact uBusWbyte_descends _
    · exact uBusRbyte_descends _
    · exact straight_descends _ rfl
    · exact once_done_descends _

/-- The rank of the one call of `TEMP.SMOOTHR`. -/
def smoothrRank : Rank := callsRank [straightRank 4]

theorem uTempSmoothr_descends : uTempSmoothr.Descends smoothrRank := by
  intro p s
  refine callsRank_descends (ms := [uTempSmooth s.lat.raw]) rfl ?_ ?_ p s
  · simp [straightRank_starts]
  · simp only [List.zip_cons_cons, List.zip_nil_right, List.mem_singleton]
    rintro c rfl
    exact straight_descends _ rfl

theorem readRank_starts : readRank.Starts :=
  callsRank_starts (by simp [straightRank_starts, wbyteRank_starts, rbyteRank_starts, onceRank_starts])

theorem smoothrRank_starts : smoothrRank.Starts := callsRank_starts (by simp [straightRank_starts])

/-- The rank of the calls of `CTL.ITER`; it says nothing of the sends. -/
def iterRank : Rank := callsRank [onceRank, readRank, smoothrRank, onceRank, onceRank, onceRank, onceRank]

/-- Before its status line `CTL.ITER` goes on in those calls with less rank, or to the line. -/
theorem uCtlIter_descends {n : Nat} (hn : n < 5) (h : uCtlIter ((n + 1) :: sub) s = .more p' t) :
    (∃ n' q, n' < 5 ∧ p' = (n' + 1) :: q ∧ iterRank p' t.tmp.i < iterRank ((n + 1) :: sub) s.tmp.i) ∨ p' = [6] := by
  have key : ∀ {m ρ}, [uCtlSetpt, uTempRead, uTempSmoothr, uCtlOvr, uCtlHyst, uCtlStatus, uCtlSleep][n]? = some m →
      [onceRank, readRank, smoothrRank, onceRank, onceRank, onceRank, onceRank][n]? = some ρ → m.Descends ρ →
      (∃ n' q, n' < 5 ∧ p' = (n' + 1) :: q ∧ iterRank p' t.tmp.i < iterRank ((n + 1) :: sub) s.tmp.i) ∨ p' = [6] := by
    intro m ρ hm hρ hd
    obtain ⟨hlt, ⟨q, rfl⟩ | ⟨rfl, -⟩⟩ := calls_descends_at rfl
      (by simp [onceRank_starts, readRank_starts, smoothrRank_starts]) hm hρ hd h
    · exact .inl ⟨n, q, hn, rfl, hlt⟩
    · rcases Nat.lt_succ_iff_lt_or_eq.mp hn with hn | rfl
      · exact .inl ⟨n + 1, [], by omega, rfl, hlt⟩
      · exact .inr rfl
  match n with
  | 0 => exact key rfl rfl (once_done_descends _)
  | 1 => exact key rfl rfl uTempRead_descends
  | 2 => exact key rfl rfl uTempSmoothr_descends
  | 3 => exact key rfl rfl (once_done_descends _)
  | 4 => exact key rfl rfl (once_done_descends _)

/-- Before its status line `CTL.ITER` is not done. -/
theorem uCtlIter_not_done {n : Nat} (hn : n < 5) : uCtlIter ((n + 1) :: sub) s ≠ .done t := by
  intro h
  simp only [uCtlIter, calls] at h
  split at h
  · cases h
  · unfold callAt at h
    split at h
    · cases h
    · split at h
      next hlast =>
        simp only [List.length_cons, List.length_nil] at hlast
        omega
      · cases h
    · cases h
    · cases h

end Operations

end Sys2Proof.Machine
end

