-- ==== Sys2Proof/Proofs/Runs.lean ====
section
/-! PROOFS. The steps of a run (R9, R287): what each of them keeps where the transmitter is on, what only the foreground moves, and
the instant of the foreground's next step in a fair run. -/

namespace Sys2Proof.Machine

section Steps

variable {it : SchedItem} {i : Instr} {m : Micro} {s t u : State}

/-- What a run keeps once the transmitter is on. -/
structure RunInv (s : State) : Prop where
  data : DataInv s
  send : SendInv s
  noStranded : NoStrandedByte s
  legal : PosLegal s
  txen : s.ctl.txen = true

theorem DataInv.setSched (h : DataInv s) (l : List SchedItem) : DataInv (s.setSched l) :=
  ⟨h.rxHead, h.rxTail, h.txHead, h.txTail, h.h1, h.t1, h.rxBuf, h.txBuf, h.smoothBuf, h.tickMs⟩

theorem RunInv.setSched (h : RunInv s) (l : List SchedItem) : RunInv (s.setSched l) :=
  ⟨h.data.setSched l, h.send, h.noStranded, h.legal, h.txen⟩

/-- Nothing switches the transmitter off again. -/
theorem step_txen (h : step s = .next t) (htx : s.ctl.txen = true) : t.ctl.txen = true := by
  have kept : ∀ {j : Instr}, atInit j s = false → exec j (s.setSched s.sched.tail) = .next t → t.ctl.txen = true :=
    fun ha hx => by rw [exec_ctl (s := s.setSched s.sched.tail) hx ha]; exact htx
  rcases step_next h with ⟨i, -, -, -, hx⟩ | ⟨w, i, -, -, hi, hx⟩ | ⟨e, -, rfl⟩
  · cases ha : atInit i s with
    | false => exact kept ha hx
    | true =>
      obtain ⟨q, rfl, -⟩ := exec_of_atInit (s := s.setSched s.sched.tail) ha hx
      rfl
  · exact kept (atInit_of_isEvent hi s) hx
  · rw [envStep_frame]
    exact htx

theorem RunInv.step (hs : RunInv s) (h : step s = .next t) : RunInv t where
  data := hs.data.step h
  send := sendUnderWayKeepsItsSlot s t hs.data hs.send h
  noStranded := noByteIsEverStranded s t hs.noStranded h
  legal := (positionStaysLegal s hs.legal).2.2 t h
  txen := step_txen h hs.txen

theorem RunInv.agentStep (hs : RunInv s) (h : AgentStep it s t) : RunInv t := (hs.setSched [it]).step h

/-- What the other agents leave to the foreground. -/
structure FgSame (s t : State) : Prop where
  cfg : t.cfg = s.cfg
  prog : t.prog = s.prog
  seq : t.seq = s.seq
  tmp : t.tmp = s.tmp
  head : t.tx.head = s.tx.head

theorem FgSame.refl (s : State) : FgSame s s := ⟨rfl, rfl, rfl, rfl, rfl⟩

theorem FgSame.trans (h : FgSame s t) (k : FgSame t u) : FgSame s u :=
  ⟨k.cfg.trans h.cfg, k.prog.trans h.prog, k.seq.trans h.seq, k.tmp.trans h.tmp, k.head.trans h.head⟩

theorem FgSame.command (h : FgSame s t) : fgCommand t = fgCommand s := fgCommand_congr h.prog (congrArg Sequencer.pc h.seq)

theorem FgSame.sendAt (h : FgSame s t) : sendAt t = sendAt s := sendAt_congr h.prog h.seq (congrArg Temps.line h.tmp)

theorem agentStep_fgSame (hit : it ≠ .fg) (h : AgentStep it s t) : FgSame s t := by
  rcases step_next h with ⟨i, hs, -, -, -⟩ | ⟨w, i, -, -, hi, hx⟩ | ⟨e, -, rfl⟩
  · rcases hs with hs | hs <;> cases hs
    exact absurd rfl hit
  · rw [exec_event_frame hi hx]
    exact ⟨rfl, rfl, rfl, rfl, rfl⟩
  · rw [envStep_frame]
    exact ⟨rfl, rfl, rfl, rfl, rfl⟩

theorem agentStep_fg (hc : fgCommand s = some i) : AgentStep .fg s t ↔ exec i (s.setSched []) = .next t := by
  rw [AgentStep, step_of_fg (s := s.setSched [.fg]) (.inr rfl) hc]
  rfl

/-- A sending operation refuses only where the transmitter is off. -/
theorem microOf_legal_of_sends (hi : sendsBytes i = true) (hm : microOf i = some m) :
    m.Legal (fun s => s.ctl.txen = false) (legalPos i) := by
  cases i <;> simp only [sendsBytes, Bool.false_eq_true] at hi
  case uartSend b => cases hm; exact uUartSend_legal (fun _ h => h) b
  case ctlStatus => cases hm; exact uCtlStatus_legal fun _ h => h
  case ctlIter => cases hm; exact uCtlIter_legal fun _ h => h

theorem exists_micro_of_sends (hi : sendsBytes i = true) : ∃ m, microOf i = some m := by
  cases i <;> simp only [sendsBytes, Bool.false_eq_true] at hi
  case uartSend b => exact ⟨_, rfl⟩
  case ctlStatus => exact ⟨_, rfl⟩
  case ctlIter => exact ⟨_, rfl⟩

/-- A sending operation has a next step. -/
theorem RunInv.fg_answers (h : RunInv s) (hc : fgCommand s = some i) (hi : sendsBytes i = true) : ∃ t, AgentStep .fg s t := by
  obtain ⟨m, hm⟩ := exists_micro_of_sends hi
  have hl := (microOf_legal_of_sends hi hm).move _ (s.setSched []) ((posLegal_of_command hc).mp h.legal)
  simp only [agentStep_fg hc]
  rw [exec_eq_runFg hm]
  cases e : m s.seq.ustep (s.setSched []) with
  | more p u => exact ⟨_, runFg_of_more e⟩
  | done u => exact ⟨_, runFg_of_done e⟩
  | refuse r =>
    rw [e] at hl
    exact absurd (h.txen.symm.trans hl) (by decide)
  | stray =>
    rw [e] at hl
    exact hl.elim

end Steps

/-! ### Fair runs -/

/-- A run that is fair to all (R287). -/
structure FairRun (who : Nat → SchedItem) (r : Nat → State) : Prop where
  run : IsRun who r
  evt : EvtFair who r
  tx : TxFair who r
  fg : FgFair who r

section Runs

variable {who : Nat → SchedItem} {r : Nat → State} {n m : Nat} {i : Instr}

theorem RunInv.later (h : RunInv (r n)) (hrun : IsRun who r) (hm : n ≤ m) : RunInv (r m) := by
  induction m, hm using Nat.le_induction with
  | base => exact h
  | succ m _ ih => exact ih.agentStep (hrun m)

theorem fgSame_of_no_fg (hrun : IsRun who r) (hm : n ≤ m) (hno : ∀ j, n ≤ j → j < m → who j ≠ .fg) : FgSame (r n) (r m) := by
  induction m, hm using Nat.le_induction with
  | base => exact .refl _
  | succ m hm ih =>
    exact (ih fun j hj hlt => hno j hj (hlt.trans m.lt_succ_self)).trans
      (agentStep_fgSame (hno m hm m.lt_succ_self) (hrun m))

/-- In a sending operation the foreground moves again, and until then it stands. -/
theorem FairRun.next_fg (H : FairRun who r) (h : RunInv (r n)) (hc : fgCommand (r n) = some i) (hi : sendsBytes i = true) :
    ∃ m, n ≤ m ∧ who m = .fg ∧ ∀ j, n ≤ j → j ≤ m → FgSame (r n) (r j) := by
  classical
  have hex : ∃ m, n ≤ m ∧ who m = .fg := by
    by_contra hno
    refine hno (H.fg n fun m hm => (h.later H.run hm).fg_answers ?_ hi)
    exact (fgSame_of_no_fg H.run hm fun j hj _ e => hno ⟨j, hj, e⟩).command.trans hc
  obtain ⟨hm, hw⟩ := Nat.find_spec hex
  exact ⟨Nat.find hex, hm, hw, fun j hj hjm => fgSame_of_no_fg H.run hj fun k hk hkj e =>
    Nat.find_min hex (hkj.trans_le hjm) ⟨hk, e⟩⟩

end Runs

end Sys2Proof.Machine
end

