-- ==== Sys2Proof/Proofs/Sends.lean ====
section
/-! PROOFS. A send under way in a fair run (R114, R124, R287): it goes on line by line, and a hold on a full ring lifts, for the
transmitter then is armed and in turn becomes ready, and its event moves the tail. -/

namespace Sys2Proof.Machine

section Steps

variable {i : Instr} {m : Micro} {s t : State} {b : Byte} {k : Nat}

theorem exists_command_of_sendAt (h : sendAt s = some (b, k)) : ∃ i, fgCommand s = some i ∧ sendsBytes i = true := by
  unfold sendAt at h
  split at h
  next hc _ => exact ⟨_, hc, rfl⟩
  next hc _ => exact ⟨_, hc, rfl⟩
  next hc _ => exact ⟨_, hc, rfl⟩
  next hc _ => exact ⟨_, hc, rfl⟩
  next hc _ => exact ⟨_, hc, rfl⟩
  · cases h

theorem atInit_of_sends (hi : sendsBytes i = true) (s : State) : atInit i s = false := by
  cases i <;> first | rfl | cases hi

/-! ### A send's line -/

/-- Where m goes on, it leaves the line, or no send there has begun. -/
def Micro.KeepsLine (σ : List Nat → List Byte → Option (Byte × Nat)) (m : Micro) : Prop :=
  ∀ p s q t, m p s = .more q t → t.tmp.line = s.tmp.line ∨ FreshSend (σ q t.tmp.line)

theorem uCtlStatus_keepsLine : uCtlStatus.KeepsLine statusSendPos := by
  intro p s q t h
  unfold uCtlStatus at h
  split at h
  · cases h
    exact .inr (freshSend_map _)
  · split at h
    · cases h
    · rcases callAt_more h with ⟨q', e, rfl⟩ | ⟨u, -, hu⟩
      · exact .inl (uUartSend_more e).2
      · dsimp only at hu
        split at hu <;> cases hu
        exact .inr (freshSend_map _)
  · cases h

theorem uCtlIter_keepsLine : uCtlIter.KeepsLine iterSendPos := by
  intro p s q t h
  unfold uCtlIter calls at h
  split at h
  next n sub =>
    split at h
    · cases h
    next m hm =>
      rcases callAt_more h with ⟨q', e, rfl⟩ | ⟨u, -, hu⟩
      · by_cases hn : n = 5
        · subst hn
          cases hm
          exact uCtlStatus_keepsLine _ _ _ _ e
        · refine .inr ?_
          unfold iterSendPos
          split
          next heq =>
            cases heq
            exact absurd rfl hn
          · exact freshSend_none
      · split at hu <;> cases hu
        refine .inr ?_
        unfold iterSendPos
        split
        next heq => cases heq; exact freshSend_none
        · exact freshSend_none
  · cases h

theorem microOf_keepsLine (hi : sendsBytes i = true) (hm : microOf i = some m) : m.KeepsLine (sendPosOf i) := by
  cases i <;> simp only [sendsBytes, Bool.false_eq_true] at hi
  case uartSend b => cases hm; exact fun _ _ _ _ h => .inl (uUartSend_more h).2
  case ctlStatus => cases hm; exact uCtlStatus_keepsLine
  case ctlIter => cases hm; exact uCtlIter_keepsLine

/-- After a step into a send that has begun the command and the line are what they were. -/
theorem exec_send_same (hc : fgCommand s = some i) (hi : sendsBytes i = true) (h : exec i s = .next t)
    (hb : ¬ FreshSend (sendAt t)) : t.seq.pc = s.seq.pc ∧ t.tmp.line = s.tmp.line := by
  obtain ⟨m, hm⟩ := exists_micro_of_sends hi
  have hprog := (exec_fixed h).2.1
  rw [exec_eq_runFg hm] at h
  rcases runFg_next h with ⟨q, u, e, rfl⟩ | ⟨u, -, rfl⟩
  · have hpc : (u.goesTo q).seq.pc = s.seq.pc := by
      have hk := microOf_keeps hm s.seq.ustep s
      rw [e] at hk
      rw [State.goesTo_seq, hk.seq]
    refine ⟨hpc, (microOf_keepsLine hi hm _ _ _ _ e).resolve_right fun hf => hb ?_⟩
    rw [sendAt_of_command ((fgCommand_congr hprog hpc).trans hc)]
    exact hf
  · exact absurd (freshSend_of_start rfl) hb

/-! ### A send's steps -/

/-- The foreground's step from micro-step k of a send of b, short of its last one: a hold on a full ring, or the next line. -/
structure SendGoes (b : Byte) (k : Nat) (s t : State) : Prop where
  pc : t.seq.pc = s.seq.pc
  line : t.tmp.line = s.tmp.line
  move : k = 2 ∧ s.tmp.h1 = s.tx.tail ∧ t.txView = s.txView ∨ (k = 2 → s.tmp.h1 ≠ s.tx.tail) ∧ sendAt t = some (b, k + 1)

theorem fg_sendMove (hs : sendAt s = some (b, k)) (h : AgentStep .fg s t) : SendMove s.cfg.txCap s.txView t.txView := by
  obtain ⟨i, hc, hi⟩ := exists_command_of_sendAt hs
  exact exec_sendMove (s := s.setSched []) hc (atInit_of_sends hi _) ((agentStep_fg hc).mp h)

theorem fg_sendGoes (hs : sendAt s = some (b, k)) (h : AgentStep .fg s t) :
    k = 5 ∧ t.ctl.txie = true ∨ k ≤ 4 ∧ SendGoes b k s t := by
  obtain ⟨i, hc, hi⟩ := exists_command_of_sendAt hs
  have same : ∀ {k'}, sendAt t = some (b, k') → k' ≠ 1 → t.seq.pc = s.seq.pc ∧ t.tmp.line = s.tmp.line :=
    fun ht hk' => exec_send_same (s := s.setSched []) hc hi ((agentStep_fg hc).mp h) fun hf => hk' (hf _ _ ht)
  have next : ∀ {k'}, k' = k + 1 → k' ≠ 1 → k ≤ 4 → (k = 2 → s.tmp.h1 ≠ s.tx.tail) → sendAt t = some (b, k') →
      k ≤ 4 ∧ SendGoes b k s t := by
    rintro k' rfl hk' hk hroom ht
    obtain ⟨hpc, hline⟩ := same ht hk'
    exact ⟨hk, hpc, hline, .inr ⟨hroom, ht⟩⟩
  have hm := fg_sendMove hs h
  have hs' : s.txView.send = some (b, k) := hs
  generalize hw : t.txView = w at hm
  have ht : sendAt t = w.send := congrArg TxView.send hw
  cases hm with
  | @hold c hc2 hfull =>
    cases hs'.symm.trans hc2
    obtain ⟨hpc, hline⟩ := same (ht.trans hc2) (by decide)
    exact .inr ⟨by decide, hpc, hline, .inl ⟨rfl, hfull, hw⟩⟩
  | other hnone => cases hs'.symm.trans hnone
  | claim hc1 =>
    cases hs'.symm.trans hc1
    exact .inr (next rfl (by decide) (by decide) nofun ht)
  | room hc2 hroom =>
    cases hs'.symm.trans hc2
    exact .inr (next rfl (by decide) (by decide) (fun _ => hroom) ht)
  | store hc3 =>
    cases hs'.symm.trans hc3
    exact .inr (next rfl (by decide) (by decide) nofun ht)
  | publish hc4 =>
    cases hs'.symm.trans hc4
    exact .inr (next rfl (by decide) (by decide) nofun ht)
  | arm hc5 _ =>
    cases hs'.symm.trans hc5
    exact .inl ⟨rfl, congrArg TxView.armed hw⟩

end Steps

/-! ### The transmitter's part -/

section Transmitter

variable {it : SchedItem} {s t : State} {b : Byte}

/-- Only a byte handed over makes the transmitter busy. -/
theorem step_txHwReady (h : step s = .next t) (hr : s.ser.txHwReady = true) :
    t.ser.txHwReady = true ∨ t.tx.tail = maskedNext s.cfg.txCap s.tx.tail := by
  have kept : ∀ {j : Instr}, j ≠ .evtTxr → exec j (s.setSched s.sched.tail) = .next t → t.ser.txHwReady = true :=
    fun hj hx => (exec_txWire (s := s.setSched s.sched.tail) hx hj).2.trans hr
  rcases step_next h with ⟨i, -, -, hi, hx⟩ | ⟨w, i, -, -, hi, hx⟩ | ⟨e, -, rfl⟩
  · exact .inl (kept (by rintro rfl; cases hi) hx)
  · rcases exec_event_next hi hx with rfl | ⟨d, rfl, -⟩ | ⟨-, rfl⟩ | ⟨rfl, -⟩
    · exact .inl hr
    · exact .inl (kept (j := .evtRxc d) nofun hx)
    · by_cases hempty : s.tx.head = s.tx.tail
      · rw [txrHandler_of_empty (s := s.setSched s.sched.tail) hempty]
        exact .inl hr
      · rw [txrHandler_of_nonempty (s := s.setSched s.sched.tail) hempty]
        exact .inr rfl
    · exact .inl (kept (j := .evtTick) nofun hx)
  · cases e
    case rxByte d =>
      refine .inl ?_
      unfold envStep
      dsimp only
      split <;> exact hr
    case txReady => exact .inl rfl
    all_goals exact .inl hr

theorem agentStep_evtTxr (h : AgentStep (.event (encode .evtTxr)) s t) (he : eventEnabled .evtTxr s = true)
    (hne : s.tx.head ≠ s.tx.tail) : t.tx.tail = maskedNext s.cfg.txCap s.tx.tail := by
  rw [AgentStep, step_of_event (s := s.setSched _) rfl (decode_encode .evtTxr) rfl] at h
  have hx : exec .evtTxr (s.setSched []) = .next (txrHandler (s.setSched [])) := exec_evtTxr he
  cases hx.symm.trans h
  rw [txrHandler_of_nonempty (s := s.setSched []) hne]
  rfl

theorem fgNext_of_not_fg (hit : it ≠ .fg) : fgNext (s.setSched [it]) = none := by
  cases it
  case fg => exact absurd rfl hit
  all_goals rfl

/-- A byte handed over leaves the slot that a send has claimed: room, once there, stays. -/
theorem room_of_not_fg (hs : RunInv s) (h : AgentStep it s t) (hit : it ≠ .fg) (hsend : sendAt s = some (b, 2))
    (hroom : s.tmp.h1 ≠ s.tx.tail) : t.tmp.h1 ≠ t.tx.tail := by
  have hnone := fgNext_of_not_fg (s := s) hit
  have of_view : ∀ {v : TxView}, t.txView = v → v.h1 ≠ v.ring.tail → t.tmp.h1 ≠ t.tx.tail := by
    rintro _ rfl hne
    exact hne
  cases step_tx h with
  | still _ e => exact of_view e hroom
  | disarm _ _ e => exact of_view e hroom
  | handOver _ hne e =>
    refine of_view e fun (heq : s.tmp.h1 = maskedNext s.cfg.txCap s.tx.tail) => hne ?_
    have hh1 := (hs.send b 2 hsend).1 le_rfl (by decide)
    exact (txCap_isCapacity s.cfg).maskedNext_inj hs.data.txHead hs.data.txTail (hh1.symm.trans heq)
  | fg hsome => cases hnone.symm.trans hsome
  | init hsome => cases hnone.symm.trans hsome

end Transmitter

/-! ### Holds lift -/

section Runs

variable {who : Nat → SchedItem} {r : Nat → State} {n m : Nat} {b : Byte} {k : Nat}

/-- While the transmitter is armed over a ring that is not empty, the tail moves on. -/
theorem FairRun.tail_moves (H : FairRun who r) (h : RunInv (r n)) (hne : ∀ j, n ≤ j → (r j).tx.head ≠ (r j).tx.tail)
    (hie : ∀ j, n ≤ j → (r j).ctl.txie = true) : ∃ j, n ≤ j ∧ (r (j + 1)).tx.tail ≠ (r j).tx.tail := by
  by_contra hno
  have next_ne : ∀ {j}, n ≤ j → maskedNext (r j).cfg.txCap (r j).tx.tail ≠ (r j).tx.tail := fun hj =>
    (txCap_isCapacity _).maskedNext_ne (h.later H.run hj).data.txTail
  obtain ⟨j0, hj0, hr⟩ : ∃ j, n ≤ j ∧ (r j).ser.txHwReady = true := by
    cases hr : (r n).ser.txHwReady with
    | true => exact ⟨n, le_rfl, hr⟩
    | false =>
      obtain ⟨m, hm, hw⟩ := H.tx n hr
      have hstep := H.run m
      rw [hw, AgentStep, step_of_env (s := (r m).setSched _) rfl] at hstep
      refine ⟨m + 1, hm.trans m.le_succ, ?_⟩
      rw [← Host.Outcome.next.inj hstep]
      rfl
  have ready : ∀ j, j0 ≤ j → (r j).ser.txHwReady = true := by
    intro j hj
    induction j, hj using Nat.le_induction with
    | base => exact hr
    | succ j hj ih =>
      refine (step_txHwReady (H.run j) ih).resolve_right fun e => hno ⟨j, hj0.trans hj, ?_⟩
      rw [e]
      exact next_ne (hj0.trans hj)
  have enabled : ∀ j, j0 ≤ j → eventEnabled .evtTxr (r j) = true := fun j hj =>
    eventEnabled_evtTxr_iff.mpr ⟨(h.later H.run (hj0.trans hj)).txen, hie j (hj0.trans hj), ready j hj⟩
  obtain ⟨m, hm, hw⟩ := H.evt .evtTxr rfl j0 enabled
  refine hno ⟨m, hj0.trans hm, ?_⟩
  rw [agentStep_evtTxr (hw ▸ H.run m) (enabled m hm) (hne m (hj0.trans hm))]
  exact next_ne (hj0.trans hm)

/-- The send under way in s, with its command, its line and its slot, stands in t as it did. -/
structure Held (s t : State) : Prop where
  send : sendAt t = sendAt s
  pc : t.seq.pc = s.seq.pc
  line : t.tmp.line = s.tmp.line
  h1 : t.tmp.h1 = s.tmp.h1
  head : t.tx.head = s.tx.head

theorem Held.trans {s t u : State} (h : Held s t) (k : Held t u) : Held s u :=
  ⟨k.send.trans h.send, k.pc.trans h.pc, k.line.trans h.line, k.h1.trans h.h1, k.head.trans h.head⟩

theorem FgSame.held {s t : State} (h : FgSame s t) : Held s t :=
  ⟨h.sendAt, congrArg Sequencer.pc h.seq, congrArg Temps.line h.tmp, congrArg Temps.h1 h.tmp, h.head⟩

/-- While the foreground finds the ring full, the send stands. -/
theorem held_of_full (hrun : IsRun who r) (hs : sendAt (r n) = some (b, 2)) (hm : n ≤ m)
    (hfull : ∀ j, n ≤ j → j < m → who j = .fg → (r j).tmp.h1 = (r j).tx.tail) : Held (r n) (r m) := by
  induction m, hm using Nat.le_induction with
  | base => exact (FgSame.refl _).held
  | succ m hm ih =>
    have hm' := ih fun j hj hlt => hfull j hj (hlt.trans m.lt_succ_self)
    refine hm'.trans ?_
    by_cases hw : who m = .fg
    · obtain ⟨⟨⟩, -⟩ | ⟨-, hpc, hline, ⟨-, -, hview⟩ | ⟨hroom, -⟩⟩ := fg_sendGoes (hm'.send.trans hs) (hw ▸ hrun m)
      · exact ⟨congrArg TxView.send hview, hpc, hline, congrArg TxView.h1 hview, congrArg (·.ring.head) hview⟩
      · exact absurd (hfull m hm m.lt_succ_self hw) (hroom rfl)
    · exact (agentStep_fgSame hw (hrun m)).held

/-- The foreground comes to find room. -/
theorem FairRun.exists_room (H : FairRun who r) (h : RunInv (r n)) (hs : sendAt (r n) = some (b, 2)) :
    ∃ m, n ≤ m ∧ who m = .fg ∧ (r m).tmp.h1 ≠ (r m).tx.tail := by
  by_contra hno
  have hfull : ∀ j, n ≤ j → who j = .fg → (r j).tmp.h1 = (r j).tx.tail := fun j hj hw => by_contra fun hne => hno ⟨j, hj, hw, hne⟩
  have held : ∀ j, n ≤ j → Held (r n) (r j) := fun j hj => held_of_full H.run hs hj fun k hk _ => hfull k hk
  have inv : ∀ j, n ≤ j → RunInv (r j) := fun j hj => h.later H.run hj
  have full : ∀ j, n ≤ j → (r j).tx.tail = (r n).tmp.h1 := by
    intro j hj
    rw [← (held j hj).h1]
    by_contra hne
    obtain ⟨i, hc, hi⟩ := exists_command_of_sendAt ((held j hj).send.trans hs)
    obtain ⟨m, hm, hw, -⟩ := H.next_fg (inv j hj) hc hi
    have room : ∀ j', j ≤ j' → (r j').tmp.h1 ≠ (r j').tx.tail := by
      intro j' hj'
      induction j', hj' using Nat.le_induction with
      | base => exact Ne.symm hne
      | succ j' hj' ih =>
        have hn := hj.trans hj'
        exact room_of_not_fg (inv j' hn) (H.run j') (fun hw => ih (hfull j' hn hw)) ((held j' hn).send.trans hs) ih
    exact room m hm (hfull m (hj.trans hm) hw)
  have hne : ∀ j, n ≤ j → (r j).tx.head ≠ (r j).tx.tail := by
    intro j hj e
    have hh1 := ((inv j hj).send b 2 ((held j hj).send.trans hs)).1 le_rfl (by decide)
    rw [(held j hj).h1, ← full j hj, ← e] at hh1
    exact (txCap_isCapacity _).maskedNext_ne (inv j hj).data.txHead hh1.symm
  have hie : ∀ j, n ≤ j → (r j).ctl.txie = true := fun j hj =>
    ((inv j hj).noStranded (hne j hj)).resolve_right fun ⟨c, hc⟩ => by cases hc.symm.trans ((held j hj).send.trans hs)
  obtain ⟨j, hj, hmove⟩ := H.tail_moves h hne hie
  exact hmove ((full (j + 1) (hj.trans j.le_succ)).trans (full j hj).symm)

/-- A send of b is under way in the command at pc with that line. -/
structure Sending (b : Byte) (pc : BitVec 8) (line : List Byte) (s : State) : Prop where
  send : ∃ k, sendAt s = some (b, k)
  pc : s.seq.pc = pc
  line : s.tmp.line = line

theorem Held.sending {s t : State} (h : Held s t) (hs : sendAt s = some (b, k)) : Sending b s.seq.pc s.tmp.line t :=
  ⟨⟨k, h.send.trans hs⟩, h.pc, h.line⟩

/-- From micro-step k the foreground comes to take it, past the hold. -/
theorem FairRun.send_ready (H : FairRun who r) (h : RunInv (r n)) (hs : sendAt (r n) = some (b, k)) :
    ∃ m, n ≤ m ∧ who m = .fg ∧ (∀ j, n ≤ j → j ≤ m → Held (r n) (r j)) ∧ (k = 2 → (r m).tmp.h1 ≠ (r m).tx.tail) := by
  classical
  by_cases hk : k = 2
  · subst hk
    have hex := H.exists_room h hs
    obtain ⟨hm, hw, hroom⟩ := Nat.find_spec hex
    refine ⟨Nat.find hex, hm, hw, fun j hj hjm => held_of_full H.run hs hj fun l hl hlj hwl => ?_, fun _ => hroom⟩
    exact by_contra fun hne => Nat.find_min hex (hlj.trans_le hjm) ⟨hl, hwl, hne⟩
  · obtain ⟨i, hc, hi⟩ := exists_command_of_sendAt hs
    obtain ⟨m, hm, hw, hsame⟩ := H.next_fg h hc hi
    exact ⟨m, hm, hw, fun j hj hjm => (hsame j hj hjm).held, fun e => absurd e hk⟩

/-- A send under way comes to its last micro-step, which arms the interrupt. -/
theorem FairRun.send_completes (H : FairRun who r) (d : Nat) : ∀ {n k}, RunInv (r n) → sendAt (r n) = some (b, k) → 5 - k = d →
    ∃ m, n ≤ m ∧ who m = .fg ∧ sendAt (r m) = some (b, 5) ∧
      (∀ j, n ≤ j → j ≤ m → Sending b (r n).seq.pc (r n).tmp.line (r j)) ∧ (r (m + 1)).ctl.txie = true := by
  induction d with
  | zero =>
    intro n k h hs hd
    obtain ⟨m, hm, hw, hheld, -⟩ := H.send_ready h hs
    have hsm := (hheld m hm le_rfl).send.trans hs
    obtain ⟨rfl, hie⟩ | ⟨hk, -⟩ := fg_sendGoes hsm (hw ▸ H.run m)
    · exact ⟨m, hm, hw, hsm, fun j hj hjm => (hheld j hj hjm).sending hs, hie⟩
    · omega
  | succ d ih =>
    intro n k h hs hd
    obtain ⟨m, hm, hw, hheld, hroom⟩ := H.send_ready h hs
    have hheldm := hheld m hm le_rfl
    obtain ⟨rfl, -⟩ | ⟨-, hpc, hline, ⟨rfl, hfull, -⟩ | ⟨-, hnext⟩⟩ := fg_sendGoes (hheldm.send.trans hs) (hw ▸ H.run m)
    · omega
    · exact absurd hfull (hroom rfl)
    · obtain ⟨m', hm', hw', hs', hsending, hie⟩ := ih (h.later H.run (hm.trans m.le_succ)) hnext (by omega)
      refine ⟨m', hm.trans (m.le_succ.trans hm'), hw', hs', fun j hj hjm => ?_, hie⟩
      rcases Nat.lt_or_ge m j with hlt | hge
      · have hj := hsending j hlt hjm
        rwa [hpc, hline, hheldm.pc, hheldm.line] at hj
      · exact (hheld j hj hge).sending hs

end Runs

end Sys2Proof.Machine
end

