-- ==== Sys2Proof/Proofs/Fairness.lean ====
section
/-! PROOFS. Under fairness the sending commands end (R287, 70_reset_and_hazards.md section 3): their sends complete, a status line
gets shorter with each of them, and what comes before it falls in rank. -/

namespace Sys2Proof.Machine

section Positions

variable {i : Instr} {M : Micro} {s t : State} {pc : BitVec 8} {p sub : List Nat} {line rest : List Byte} {b c : Byte}

/-- The foreground is in command i, the one at pc, and p is its next micro-step. -/
structure Stands (i : Instr) (pc : BitVec 8) (p : List Nat) (s : State) : Prop where
  command : fgCommand s = some i
  seq : s.seq = { pc := pc, ustep := p }

/-- What the micro-step of M at p in s makes of the foreground, at t. -/
def Moved (i : Instr) (M : Micro) (pc : BitVec 8) (p : List Nat) (s t : State) : Prop :=
  (∃ q u, M p s = .more q u ∧ Stands i pc q t ∧ t.tmp = u.tmp) ∨
    ∃ u, M p s = .done u ∧ t.seq = { pc := pc + 1#8, ustep := [1] }

theorem Stands.moved (hs : Stands i pc p s) (hM : microOf i = some M) (h : AgentStep .fg s t) :
    Moved i M pc p (s.setSched []) t := by
  have hx := (agentStep_fg hs.command).mp h
  have hkeep := microOf_keeps hM p (s.setSched [])
  rw [exec_eq_runFg hM] at hx
  have hp : (s.setSched []).seq = { pc := pc, ustep := p } := hs.seq
  have hx := runFg_next hx
  rw [hp] at hx
  obtain ⟨q, u, e, rfl⟩ | ⟨u, e, rfl⟩ := hx <;> rw [e] at hkeep
  · have hseq : (u.goesTo q).seq = { pc := pc, ustep := q } := by rw [State.goesTo_seq, hkeep.seq, hp]
    refine .inl ⟨q, u, e, ⟨?_, hseq⟩, rfl⟩
    rw [← hs.command]
    exact fgCommand_congr hkeep.prog (by rw [hseq, hs.seq])
  · exact .inr ⟨u, e, by rw [State.finished_seq, hkeep.seq, hp]⟩

theorem Moved.of_more {q : List Nat} {u : State} (h : Moved i M pc p s t) (e : M p s = .more q u) :
    Stands i pc q t ∧ t.tmp = u.tmp := by
  rcases h with ⟨q', u', e', h⟩ | ⟨u', e', -⟩
  · cases e.symm.trans e'
    exact h
  · cases e.symm.trans e'

theorem Moved.of_done {u : State} (h : Moved i M pc p s t) (e : M p s = .done u) : t.seq = { pc := pc + 1#8, ustep := [1] } := by
  rcases h with ⟨q', u', e', -⟩ | ⟨u', -, h⟩
  · cases e.symm.trans e'
  · exact h

/-! ### Where a sending command sends -/

/-- The position of the call of `UART.SEND` in a command that sends. -/
def sendPrefix : Instr → List Nat
  | .ctlStatus => [2]
  | .ctlIter => [6, 2]
  | _ => []

theorem pos_of_last_send (hi : sendsBytes i = true) (h : sendPosOf i p line = some (b, 5)) : p = sendPrefix i ++ [5] := by
  have status : ∀ {p}, statusSendPos p line = some (b, 5) → p = [2, 5] := by
    intro p h
    unfold statusSendPos at h
    split at h
    · exact absurd (freshSend_map _ _ _ h) (by decide)
    · obtain ⟨c, -, hc⟩ := Option.map_eq_some_iff.mp h
      cases hc
      rfl
    · cases h
  cases i <;> simp only [sendsBytes, Bool.false_eq_true] at hi
  case uartSend b' =>
    simp only [sendPosOf, sendPos] at h
    split at h <;> cases h
    rfl
  case ctlStatus => exact status h
  case ctlIter =>
    simp only [sendPosOf, iterSendPos] at h
    split at h
    · rw [status h]
      rfl
    · cases h

/-- At the sending micro-step of a line the send of its first byte is under way. -/
theorem send_of_line (hi : i = .ctlStatus ∨ i = .ctlIter) (hl : legalPos i (sendPrefix i ++ sub) = true) (c : Byte)
    (rest : List Byte) : ∃ k, sendPosOf i (sendPrefix i ++ sub) (c :: rest) = some (c, k) := by
  have hsub : legalInCall (legalStraight 5) sub = true := by
    rcases hi with rfl | rfl
    · exact hl
    · simpa [legalPos, sendPrefix, legalCalls, legalInCall, legalStatus] using hl
  obtain ⟨k, hk⟩ : ∃ k, subPos sub = [k] := by
    unfold subPos
    split
    · exact ⟨1, rfl⟩
    next hne =>
      obtain ⟨k, -, rfl⟩ := legalStraight_iff.mp (by simpa [legalInCall, hne] using hsub)
      exact ⟨k + 1, rfl⟩
  refine ⟨k, ?_⟩
  rcases hi with rfl | rfl <;> exact statusSendPos_call c rest hk

/-- What follows the end of a status line. -/
def afterLine : Instr → State → MicroResult
  | .ctlIter, s => .more [7] s
  | _, s => .done s

/-- The last two calls of `CTL.ITER` (R218). -/
theorem uCtlIter_status (sub : List Nat) (s : State) : uCtlIter (6 :: sub) s = callAt 6 sub uCtlStatus s (.more [7]) := rfl

theorem uCtlIter_sleep (sub : List Nat) (s : State) : uCtlIter (7 :: sub) s = callAt 7 sub uCtlSleep s .done := rfl

theorem micro_line_nil (hi : i = .ctlStatus ∨ i = .ctlIter) (hM : microOf i = some M) (h : s.tmp.line = []) :
    M (sendPrefix i ++ sub) s = afterLine i s := by
  have status : uCtlStatus (2 :: sub) s = .done s := by simp only [uCtlStatus, h]
  rcases hi with rfl | rfl <;> cases hM
  · exact status
  · change uCtlIter (6 :: 2 :: sub) s = _
    rw [uCtlIter_status, callAt, if_neg (List.cons_ne_nil _ _), status]
    rfl

/-- The state after the last micro-step of a byte's send, with rest of the line still to be sent. -/
def State.byteSent (s : State) (rest : List Byte) : State :=
  (s.setCtl { s.ctl with txie := true }).setTmp { s.tmp with line := rest }

/-- The last micro-step of a byte's send in a status line: the line ends or its next byte's send begins. -/
theorem micro_line_cons (hi : i = .ctlStatus ∨ i = .ctlIter) (hM : microOf i = some M) (h : s.tmp.line = c :: rest) :
    M (sendPrefix i ++ [5]) s =
      if rest = [] then afterLine i (s.byteSent rest) else .more (sendPrefix i ++ [1]) (s.byteSent rest) := by
  have status : uCtlStatus [2, 5] s = if rest = [] then .done (s.byteSent rest) else .more [2, 1] (s.byteSent rest) :=
    uCtlStatus_send [5] h
  rcases hi with rfl | rfl <;> cases hM
  · exact status
  · change uCtlIter [6, 2, 5] s = _
    rw [uCtlIter_status, callAt, if_neg (List.cons_ne_nil _ _), status]
    by_cases hr : rest = []
    · rw [if_pos hr, if_pos hr]
      rfl
    · rw [if_neg hr, if_neg hr]
      rfl

/-- The status line is sent: `CTL.STATUS` is done, `CTL.ITER` is past it. -/
def LineSent (i : Instr) (pc : BitVec 8) (s : State) : Prop :=
  s.seq = { pc := pc + 1#8, ustep := [1] } ∨ i = .ctlIter ∧ Stands i pc [7] s

theorem Moved.lineSent {u : State} (h : Moved i M pc p s t) (hi : i = .ctlStatus ∨ i = .ctlIter) (e : M p s = afterLine i u) :
    LineSent i pc t := by
  rcases hi with rfl | rfl
  · exact .inl (h.of_done e)
  · exact .inr ⟨rfl, (h.of_more e).1⟩

end Positions

section Runs

variable {who : Nat → SchedItem} {r : Nat → State} {n m k : Nat} {i : Instr} {M : Micro} {pc : BitVec 8} {p sub : List Nat} {b : Byte}

theorem run_prog (hrun : IsRun who r) (hm : n ≤ m) : (r m).prog = (r n).prog := by
  induction m, hm using Nat.le_induction with
  | base => rfl
  | succ m _ ih => exact (step_cfg_prog (hrun m)).2.trans ih

/-- In a sending command the foreground takes its next micro-step. -/
theorem FairRun.next_move (H : FairRun who r) (h : RunInv (r n)) (hst : Stands i pc p (r n)) (hi : sendsBytes i = true)
    (hM : microOf i = some M) : ∃ m s, n ≤ m ∧ s.tmp = (r n).tmp ∧ Moved i M pc p s (r (m + 1)) := by
  obtain ⟨m, hm, hw, hsame⟩ := H.next_fg h hst.command hi
  have hsame := hsame m hm le_rfl
  have hst' : Stands i pc p (r m) := ⟨hsame.command.trans hst.command, hsame.seq.trans hst.seq⟩
  exact ⟨m, (r m).setSched [], hm, hsame.tmp, hst'.moved hM (hw ▸ H.run m)⟩

/-- A send under way comes to its last micro-step, and takes it. -/
theorem FairRun.last_move (H : FairRun who r) (h : RunInv (r n)) (hst : Stands i pc p (r n)) (hi : sendsBytes i = true)
    (hM : microOf i = some M) (hs : sendAt (r n) = some (b, k)) :
    ∃ m s, n ≤ m ∧ s.tmp.line = (r n).tmp.line ∧ Moved i M pc (sendPrefix i ++ [5]) s (r (m + 1)) := by
  obtain ⟨m, hm, hw, hsm, hsending, -⟩ := H.send_completes _ h hs rfl
  obtain ⟨-, hpc, hline⟩ := hsending m hm le_rfl
  have hc : fgCommand (r m) = some i := (fgCommand_congr (run_prog H.run hm) hpc).trans hst.command
  have hp := pos_of_last_send hi ((sendAt_of_command hc).symm.trans hsm)
  have hst' : Stands i pc (sendPrefix i ++ [5]) (r m) := ⟨hc, by
    rw [← hp, show pc = (r m).seq.pc by rw [hpc, hst.seq]]⟩
  exact ⟨m, (r m).setSched [], hm, hline, hst'.moved hM (hw ▸ H.run m)⟩

/-- The command at pc ends after instant n. -/
def Completes (r : Nat → State) (n : Nat) (pc : BitVec 8) : Prop := ∃ m, n < m ∧ (r m).seq = { pc := pc + 1#8, ustep := [1] }

theorem Completes.of_le (h : Completes r m pc) (hm : n ≤ m) : Completes r n pc :=
  h.imp fun _ ⟨hlt, e⟩ => ⟨hm.trans_lt hlt, e⟩

theorem FairRun.uartSend_completes (H : FairRun who r) (h : RunInv (r n)) (hst : Stands (.uartSend b) pc p (r n)) :
    Completes r n pc := by
  have hl := (posLegal_of_command hst.command).mp h.legal
  rw [hst.seq] at hl
  obtain ⟨k, -, rfl⟩ := legalStraight_iff.mp hl
  have hs : sendAt (r n) = some (b, k + 1) := by
    rw [sendAt_of_command hst.command, hst.seq]
    rfl
  obtain ⟨m, s, hm, -, hmoved⟩ := H.last_move h hst rfl rfl hs
  exact ⟨m + 1, Nat.lt_succ_of_le hm, hmoved.of_done rfl⟩

/-- From its sending micro-step a status line is sent, byte by byte. -/
theorem FairRun.line_sent (H : FairRun who r) (hi : i = .ctlStatus ∨ i = .ctlIter) (line : List Byte) :
    ∀ {n sub}, RunInv (r n) → Stands i pc (sendPrefix i ++ sub) (r n) → (r n).tmp.line = line →
      ∃ m, n < m ∧ LineSent i pc (r m) := by
  have hsends : sendsBytes i = true := by rcases hi with rfl | rfl <;> rfl
  obtain ⟨M, hM⟩ := exists_micro_of_sends hsends
  induction line with
  | nil =>
    intro n sub h hst hline
    obtain ⟨m, s, hm, htmp, hmoved⟩ := H.next_move h hst hsends hM
    exact ⟨m + 1, Nat.lt_succ_of_le hm, hmoved.lineSent hi (micro_line_nil hi hM (by rw [htmp, hline]))⟩
  | cons c rest ih =>
    intro n sub h hst hline
    have hl := (posLegal_of_command hst.command).mp h.legal
    rw [hst.seq] at hl
    obtain ⟨k, hk⟩ := send_of_line hi hl c rest
    have hs : sendAt (r n) = some (c, k) := by rw [sendAt_of_command hst.command, hst.seq, hline, hk]
    obtain ⟨m, s, hm, hsline, hmoved⟩ := H.last_move h hst hsends hM hs
    have e := micro_line_cons hi hM (hsline.trans hline)
    split at e
    · exact ⟨m + 1, Nat.lt_succ_of_le hm, hmoved.lineSent hi e⟩
    · obtain ⟨hst', htmp⟩ := hmoved.of_more e
      obtain ⟨m', hm', hsent⟩ := ih (h.later H.run (hm.trans m.le_succ)) hst' (by rw [htmp]; rfl)
      exact ⟨m', (Nat.lt_succ_of_le hm).trans hm', hsent⟩

theorem FairRun.ctlStatus_completes (H : FairRun who r) (h : RunInv (r n)) (hst : Stands .ctlStatus pc p (r n)) :
    Completes r n pc := by
  have sent : ∀ {n sub}, RunInv (r n) → Stands .ctlStatus pc (2 :: sub) (r n) → Completes r n pc := fun h hst =>
    (H.line_sent (.inl rfl) _ h hst rfl).imp fun m ⟨hm, hsent⟩ => ⟨hm, hsent.resolve_right nofun⟩
  have hl := (posLegal_of_command hst.command).mp h.legal
  rw [hst.seq] at hl
  simp only [legalPos, legalStatus] at hl
  split at hl
  · obtain ⟨m, s, hm, -, hmoved⟩ := H.next_move h hst rfl rfl
    exact (sent (h.later H.run (hm.trans m.le_succ)) (hmoved.of_more rfl).1).of_le (hm.trans m.le_succ)
  · exact sent h hst
  · cases hl

/-- `CTL.SLEEP` ends an iteration. -/
theorem FairRun.sleep_completes (H : FairRun who r) (h : RunInv (r n)) (hst : Stands .ctlIter pc (7 :: sub) (r n)) :
    Completes r n pc := by
  obtain ⟨m, s, hm, -, ⟨q, u, e, -⟩ | ⟨u, -, hdone⟩⟩ := H.next_move h hst rfl rfl
  · rw [uCtlIter_sleep] at e
    rcases callAt_more e with ⟨q', e', -⟩ | ⟨u', -, e'⟩
    · exact absurd e' (once_not_more (f := .done) fun _ _ _ h => nomatch h)
    · cases e'
  · exact ⟨m + 1, Nat.lt_succ_of_le hm, hdone⟩

/-- From its status line on an iteration ends. -/
theorem FairRun.iter_status_completes (H : FairRun who r) (h : RunInv (r n)) (hst : Stands .ctlIter pc (6 :: sub) (r n)) :
    Completes r n pc := by
  have sent : ∀ {n sub}, RunInv (r n) → Stands .ctlIter pc (6 :: 2 :: sub) (r n) → Completes r n pc := by
    intro n sub h hst
    obtain ⟨m, hm, hdone | ⟨-, hst'⟩⟩ := H.line_sent (.inr rfl) _ h hst rfl
    · exact ⟨m, hm, hdone⟩
    · exact (H.sleep_completes (h.later H.run hm.le) hst').of_le hm.le
  have hl := (posLegal_of_command hst.command).mp h.legal
  rw [hst.seq] at hl
  have hl : legalInCall legalStatus sub = true := hl
  have begin : subPos sub = [1] → Completes r n pc := by
    intro hsub
    obtain ⟨m, s, hm, -, hmoved⟩ := H.next_move h hst rfl rfl
    have e : uCtlIter (6 :: sub) s = .more [6, 2] (s.setTmp { s.tmp with line := statusLine s.lat }) := by
      rw [uCtlIter_status, callAt, ← subPos, hsub]
      rfl
    exact (sent (h.later H.run (hm.trans m.le_succ)) (hmoved.of_more e).1).of_le (hm.trans m.le_succ)
  match sub, hl with
  | [], _ => exact begin rfl
  | [1], _ => exact begin rfl
  | 2 :: sub, _ => exact sent h hst

theorem FairRun.ctlIter_completes (H : FairRun who r) (d : Nat) : ∀ {n p}, RunInv (r n) → Stands .ctlIter pc p (r n) →
    iterRank p (r n).tmp.i = d → Completes r n pc := by
  induction d using Nat.strong_induction_on with
  | _ d ih =>
    intro n p h hst hd
    have hl := (posLegal_of_command hst.command).mp h.legal
    rw [hst.seq] at hl
    match p, hl with
    | (j + 1) :: sub, hl =>
      have before : j < 5 → Completes r n pc := by
        intro hj
        obtain ⟨m, s, hm, htmp, hmoved⟩ := H.next_move h hst rfl rfl
        have hm' : n ≤ m + 1 := hm.trans m.le_succ
        obtain ⟨q, u, e, hst', htmp'⟩ | ⟨u, e, -⟩ := hmoved
        · obtain ⟨n', q', -, rfl, hlt⟩ | rfl := uCtlIter_descends hj e
          · rw [← htmp', htmp, hd] at hlt
            exact (ih _ hlt (h.later H.run hm') hst' rfl).of_le hm'
          · exact (H.iter_status_completes (h.later H.run hm') hst').of_le hm'
        · exact absurd e (uCtlIter_not_done hj)
      match j with
      | 0 | 1 | 2 | 3 | 4 => exact before (by decide)
      | 5 => exact H.iter_status_completes h hst
      | 6 => exact H.sleep_completes h hst
      | j + 7 => cases hl

end Runs

/-- Settles O59: a send holds only on a full ring, whose bytes the armed transmitter takes out one by one; the rest of each command
has no hold, and ends by its rank. -/
theorem sendCompletesUnderFairness : Obligations.SendCompletesUnderFairness := by
  unfold Obligations.SendCompletesUnderFairness
  intro who r n hrun hevt htx hfg hdata hsend hstranded hlegal htxen
  have H : FairRun who r := ⟨hrun, hevt, htx, hfg⟩
  have h : RunInv (r n) := ⟨hdata, hsend, hstranded, hlegal, htxen⟩
  refine ⟨fun b k hs => ?sends, fun i hi hc => ?commands⟩
  case sends =>
    obtain ⟨m, hm, hw, hlast, hsending, hie⟩ := H.send_completes _ h hs rfl
    exact ⟨m, hm, hw, hlast, fun j hj hjm => ⟨(hsending j hj hjm).send, (hsending j hj hjm).pc, (hsending j hj hjm).line⟩, hie⟩
  case commands =>
    have hst : Stands i (r n).seq.pc (r n).seq.ustep (r n) := ⟨hc, rfl⟩
    rcases hi with ⟨b, rfl⟩ | rfl | rfl
    · exact H.uartSend_completes h hst
    · exact H.ctlStatus_completes h hst
    · exact H.ctlIter_completes _ h hst rfl

end Sys2Proof.Machine
end
